-- ==== Sys2Proof/Word.lean ====
section
/-! DEFINITION. The word types of HUF1: bytes, 32-bit host words and bit sequences (00_scope.md R9, R10). -/

namespace Sys2Proof

/-- A buffer byte, a symbol, an opcode (R9, R14). -/
abbrev Byte := BitVec 8

/-- A 32-bit host word: the width of a CSR, of a count and of the widest host access (R8, R9). -/
abbrev Word := BitVec 32

/-- A finite bit sequence, the bit nearest the root of the tree (and first in the payload) first (R10). -/
abbrev Bits := List Bool

end Sys2Proof
end

