-- ==== Sys2Proof/Machine/Bits.lean ====
section
/-! DEFINITION. Bit-field, byte-order and bit-order helpers of the spec's notation (R9, R10, R63, R68, R70). -/

namespace Sys2Proof.Machine

open Sys2Proof

/-- The first bit of `f` is the most significant bit of the result (R68: code bit m at word bit 31 - m; R70: payload bit
j at byte bit 7 - j). -/
def msbFirst (n : Nat) (f : Nat → Bool) : BitVec n :=
  (List.range n).foldl (fun acc j => acc.shiftConcat (f j)) 0#n

/-- Element j of a bit sequence, 0 past its end. -/
def bitAt (u : Bits) (j : Nat) : Bool := u.getD j false

/-- The bytes that hold a payload packed as R70 packs it, pad bits of the last byte 0 (R140, R181). -/
def packBits (u : Bits) : List Byte :=
  (List.range ((u.length + 7) / 8)).map fun k => msbFirst 8 fun j => bitAt u (8 * k + j)

/-- The little-endian value of at most four bytes, the first byte in bits [7:0] (R63). -/
def littleEndian : List Byte → Word
  | [] => 0#32
  | b :: bs => b.setWidth 32 ||| (littleEndian bs <<< 8)

/-- The `n` bytes of a value, bits [7:0] first (R63). -/
def bytesOf (n : Nat) (v : Word) : List Byte :=
  (List.range n).map fun k => v.extractLsb' (8 * k) 8

/-- The low `bits` bits of a value, zero-extended (R9). -/
def lowBits (bits : Nat) (v : Word) : Word := (v.setWidth bits).setWidth 32

/-- `isPrefix(u, v)` of R10. -/
def isPrefix (u v : Bits) : Bool := u.isPrefixOf v

/-- '0' and '1' (R13, PRESUMED by the spec itself from the character code, 93 G1). -/
def charOfBit (b : Bool) : Byte := if b then 0x31#8 else 0x30#8

/-- Space, newline (R13). -/
def spaceChar : Byte := 0x20#8

/-- Newline (R13). -/
def newlineChar : Byte := 0x0A#8

/-- '0' or '1'. -/
def isBitChar (c : Byte) : Bool := c == 0x30#8 || c == 0x31#8

/-- The bit a '0' or '1' spells (c - 0x30, R165, R181). -/
def bitOfChar (c : Byte) : Bool := c == 0x31#8

/-- A decimal digit byte, 0x30 to 0x39 (R13, R164). -/
def isDigit (c : Byte) : Bool := decide (0x30 ≤ c.toNat) && decide (c.toNat ≤ 0x39)

end Sys2Proof.Machine
end

