-- ==== Sys2Proof/Config.lean ====
section
/-! DEFINITION. The implementation parameters of 00_scope.md R8, the fixed constants, and the free values that
stand for everything the spec calls UNSPECIFIED (93_implementation_defined.md V1 to V5, V8). -/

namespace Sys2Proof

/-- The five data buffers of R45. -/
inductive BufId where
  | ibuf | obuf | pbuf | rbuf | tbuf
  deriving DecidableEq, Repr

/-- The OPEN parameters of R8, each with its range. They are fixed for one machine; a claim about every state is a
claim about every parameter value in range (log 1). -/
structure Config where
  /-- IBUF_SIZE, bytes. -/
  ibufSize : Nat
  /-- OBUF_SIZE, bytes. -/
  obufSize : Nat
  /-- PBUF_BITS, bits. -/
  pbufBits : Nat
  /-- RBUF_SIZE, bytes. -/
  rbufSize : Nat
  ibuf_range : 1 ≤ ibufSize ∧ ibufSize ≤ 16777216
  obuf_range : 1 ≤ obufSize ∧ obufSize ≤ 16777216
  pbuf_range : 8 ≤ pbufBits ∧ pbufBits ≤ 134217728 ∧ pbufBits % 8 = 0
  rbuf_range : 1 ≤ rbufSize ∧ rbufSize ≤ 134217728
  deriving DecidableEq, Repr

/-- DESIGN CHOICE (log 1): the parameter values State.reset carries are the default ones of 95_test_vectors.md. -/
def Config.default : Config where
  ibufSize := 4096
  obufSize := 4096
  pbufBits := 32768
  rbufSize := 32768
  ibuf_range := by decide
  obuf_range := by decide
  pbuf_range := by decide
  rbuf_range := by decide

/-- TBUF_SIZE, fixed (R8). -/
def Config.tbufSize : Nat := 66560

/-- MAXLEN, the longest code of a code-table entry (R8). -/
def Config.maxLen : Nat := 255

/-- The constant of the ID register (R24). -/
def Config.idValue : Word := 0x48554631#32

/-- FREE VALUE (log 3): the byte at `offset` of buffer `buf` left UNSPECIFIED by draw number `draw` (R48, R206, R240;
V1 to V4). Each event that makes a buffer UNSPECIFIED takes a new draw number. -/
opaque Config.freeByte (draw : Nat) (buf : BufId) (offset : Nat) : Byte

/-- FREE VALUE (log 4): the word a host read returns where the spec calls it UNSPECIFIED (R241, R249; V5, V8). -/
opaque Config.freeWord (draw : Nat) : Word

end Sys2Proof
end

