-- ==== Sys2Proof/Syntax.lean ====
section
/-! DEFINITION. The commands of HUF1 (30_encoding.md R92), the raw command word (R90), what a host can do to the
block (R60, R240), and the statements of a host program (R96 to R99). -/

namespace Sys2Proof

/-- The nine commands, one per row of the opcode map (R92). No command has an operand field (R91). -/
inductive Instr where
  | count      -- COUNT
  | build      -- BUILD
  | codegen    -- CODEGEN
  | encode     -- ENCODE
  | decode     -- DECODE
  | tabser     -- TABSER
  | tabparse   -- TABPARSE
  | bits2txt   -- BITS2TXT
  | txt2bits   -- TXT2BITS
  deriving DecidableEq, Repr

/-- Format CMD32 (R90): the fields of a 32-bit word written to CMD. -/
structure RawCommand where
  /-- bits [7:0] -/
  op : BitVec 8
  /-- bits [31:8], must be 0 -/
  rsvd : BitVec 24
  deriving DecidableEq, Repr

/-- One host bus access. `bits` is the access width in bits (8, 16 and 32 are the supported widths, R62), `a` the byte
address; a write of fewer than 32 bits carries its value in the low bits of `v` (R63). -/
inductive Access where
  | read (bits : Nat) (a : Word)
  | write (bits : Nat) (a : Word) (v : Word)
  deriving DecidableEq, Repr

/-- One thing the host agent does next. -/
inductive HostOp where
  /-- one bus access -/
  | access (x : Access)
  /-- the poll loop of R97: read STATUS until BUSY = 0; with `stopOnErr`, then end the program if ERR = 1 (R98, R99) -/
  | poll (stopOnErr : Bool)
  /-- the block is reset (R240); `during` is a host access issued during the reset, if there is one (R241) -/
  | reset (during : Option Access)
  deriving DecidableEq, Repr

/-- The register names of R23, as the host assembly spells them (R96). -/
inductive CsrName where
  | ID | CMD | STATUS | ERRCODE | ERRPOS | IN_LEN | PAY_LEN | OUT_LEN | TXT_LEN | RTXT_LEN
  | NSYM | NNODE | ROOT | CAP_IBUF | CAP_OBUF | CAP_PBUF | CAP_RBUF | CAP_TBUF
  deriving DecidableEq, Repr

/-- The statements of the host assembly (R96). Numbers are as written; WellFormed checks that they fit. -/
inductive Stmt where
  | issue (i : Instr)
  | word (imm : Nat)
  | cmd (i : Instr)
  | wr (r : CsrName) (imm : Nat)
  | rd (r : CsrName)
  | wrbuf (b : BufId) (off : Nat) (bytes : List Nat)
  | compress
  | decompress
  deriving DecidableEq, Repr

end Sys2Proof
end

