-- ==== Sys2Proof/WellFormed.lean ====
section
/-! DEFINITION. Well-formedness of commands, raw command words and host statements. -/

namespace Sys2Proof

/-- A command has no fields, so each one is well formed (R91). -/
def Instr.wellFormed : Instr → Bool
  | .count => true
  | .build => true
  | .codegen => true
  | .encode => true
  | .decode => true
  | .tabser => true
  | .tabparse => true
  | .bits2txt => true
  | .txt2bits => true

/-- OP is in the opcode map: 0x01 to 0x09 (R92, R93). -/
def RawCommand.opMapped (r : RawCommand) : Bool :=
  decide (1 ≤ r.op.toNat) && decide (r.op.toNat ≤ 9)

/-- RSVD is 0 (R90). -/
def RawCommand.rsvdZero (r : RawCommand) : Bool :=
  decide (r.rsvd = 0#24)

/-- A raw word is a command when OP is mapped and RSVD is 0 (R92). -/
def RawCommand.wellFormed (r : RawCommand) : Bool :=
  r.opMapped && r.rsvdZero

/-- An IMM32 fits 32 bits (R96). -/
def immFits (n : Nat) : Bool := decide (n < 4294967296)

/-- A byte of BYTES fits 8 bits (R96). -/
def byteFits (n : Nat) : Bool := decide (n < 256)

/-- The numbers of a statement fit their fields (R96). -/
def Stmt.wellFormed : Stmt → Bool
  | .issue i => i.wellFormed
  | .word imm => immFits imm
  | .cmd i => i.wellFormed
  | .wr _ imm => immFits imm
  | .rd _ => true
  | .wrbuf _ off bytes => immFits off && bytes.all byteFits
  | .compress => true
  | .decompress => true

end Sys2Proof
end

