-- ==== Sys2Proof/Decode.lean ====
section
/-! DEFINITION. The command decoder (total on all 2^32 words, R94) and the encoder, from the opcode map of 30_encoding.md
R92 and R93. -/

namespace Sys2Proof

/-- Why a word is illegal (R93). -/
inductive IllegalWord where
  /-- OP is not in the map: SUB 1 -/
  | reservedOpcode
  /-- OP is in the map and w[31:8] != 0: SUB 2 -/
  | reservedBits
  deriving DecidableEq, Repr

/-- What a word is (R94): exactly one command, or illegal. -/
inductive Decoded where
  | command (i : Instr)
  | illegal (why : IllegalWord)
  deriving DecidableEq, Repr

/-- The opcode map of R92, read from OP to command. -/
def opcodeMap : List (BitVec 8 × Instr) :=
  [(0x01#8, .count), (0x02#8, .build), (0x03#8, .codegen), (0x04#8, .encode), (0x05#8, .decode),
   (0x06#8, .tabser), (0x07#8, .tabparse), (0x08#8, .bits2txt), (0x09#8, .txt2bits)]

/-- The fields of a command word (R90). -/
def RawCommand.ofWord (w : Word) : RawCommand :=
  { op := w.extractLsb' 0 8, rsvd := w.extractLsb' 8 24 }

/-- R93: a reserved opcode wins over reserved bits. -/
def decodeRaw (r : RawCommand) : Decoded :=
  match opcodeMap.lookup r.op with
  | none => .illegal .reservedOpcode
  | some i => if r.rsvd = 0#24 then .command i else .illegal .reservedBits

/-- The decoder needs only the word (R94). -/
def decode (w : Word) : Decoded := decodeRaw (RawCommand.ofWord w)

/-- OP of each command (R92). -/
def opcode : Instr → BitVec 8
  | .count => 0x01#8
  | .build => 0x02#8
  | .codegen => 0x03#8
  | .encode => 0x04#8
  | .decode => 0x05#8
  | .tabser => 0x06#8
  | .tabparse => 0x07#8
  | .bits2txt => 0x08#8
  | .txt2bits => 0x09#8

/-- The word that carries the fields of a raw command (R90). -/
def RawCommand.toWord (r : RawCommand) : Word := r.rsvd ++ r.op

/-- The command word of R92: OP in [7:0], RSVD = 0. -/
def encode (i : Instr) : Word := RawCommand.toWord { op := opcode i, rsvd := 0#24 }

/-- A table row's `nbits` bits as the 32-bit word written to CMD; none where the row is wider than a command (R95). -/
def tableWord (nbits w : Nat) : Option Word :=
  let v := w % 2 ^ nbits
  if v < 4294967296 then some (BitVec.ofNat 32 v) else none

/-- The instruction the decoder reads from an opcode-table row's bits. A command is delivered whole by one 32-bit write
(R95), so the row's bit numbering is the word's. -/
def decodeTableWord (nbits w : Nat) : Option Instr :=
  match tableWord nbits w with
  | none => none
  | some v =>
    match decode v with
    | .command i => some i
    | .illegal _ => none

end Sys2Proof
end

