-- ==== Sys2Proof/Machine/State.lean ====
section
/-! DEFINITION. The state of HUF1 (10_state.md R20), the reasons a step can stop, and the state after reset (R48, R240).
INVENTORY.md, heading State, lists every field with its rule and reset value. -/

namespace Sys2Proof.Machine

open Sys2Proof

/-- The engine sequencer SEQ (R22). While a command is in progress the engine holds the accepted word (hidden state,
R47) and `wait`, the number of host steps that still come before the completion (P5, R247; log 5). -/
inductive Seq where
  | idle
  | busy (word : Word) (wait : Nat)
  deriving DecidableEq, Repr

/-- One entry of the node arena (R40). KIND is the constructor (0 NONE, 1 LEAF, 2 INTERNAL; 3 never occurs, Z6); the
fields the spec fixes at 0 for a kind are not stored. -/
inductive Node where
  | none
  | leaf (sym : Byte) (freq : Word)
  | internal (freq : Word) (left right : BitVec 9)
  deriving DecidableEq, Repr

/-- The code of a valid code-table entry (R42): LEN in [1, 255] is the length of `bits`, CODE[j] is its element j. -/
structure Code where
  bits : Bits
  len_range : 1 ≤ bits.length ∧ bits.length ≤ 255
  deriving DecidableEq, Repr

/-- The code table CT (R42): VALID = 0 is `none`. -/
abbrev CodeTable := Vector (Option Code) 256

/-- The frequency array FREQ (R39). -/
abbrev FreqTable := Vector Word 256

/-- The node arena NODE (R40). -/
abbrev Arena := Vector Node 512

/-- A data buffer (R45): the bytes written since it last became UNSPECIFIED, in rising order of offset, and the draw
number that the bytes not listed take their free value from (R48, R206, R240; log 3). -/
structure Memory where
  draw : Nat
  cells : List Host.Cell
  deriving DecidableEq, Repr

/-- ERRCODE (R27): bits [31:16] are reserved and read 0. -/
structure ErrCode where
  /-- bits [7:0] -/
  cause : BitVec 8
  /-- bits [15:8] -/
  sub : BitVec 8
  deriving DecidableEq, Repr

/-- What the bus answered to the last host access (R65): the data of a read (0 for a write) and whether it was a bus
error. -/
structure BusReply where
  data : Word
  error : Bool
  deriving DecidableEq, Repr

/-- The whole machine: the architectural state of R20, the hidden state of a command in progress (in `seq`), and the
model's own fields `latencies`, `host`, `reply` and `draws` (the host agent and the environment). -/
structure State where
  /-- the implementation parameters, which CAP_IBUF to CAP_RBUF read (R8, R37); no step changes them -/
  cfg : Config
  /-- SEQ; STATUS.BUSY is computed from it (R22, R26) -/
  seq : Seq
  /-- STATUS.DONE (R26) -/
  done : Bool
  /-- STATUS.ERR (R26) -/
  err : Bool
  /-- STATUS.OVR (R26) -/
  ovr : Bool
  /-- STATUS.LASTOP (R26) -/
  lastOp : BitVec 8
  /-- ERRCODE (R27) -/
  errCode : ErrCode
  /-- ERRPOS (R28) -/
  errPos : Word
  /-- IN_LEN (R29) -/
  inLen : Word
  /-- PAY_LEN (R30) -/
  payLen : Word
  /-- OUT_LEN (R31) -/
  outLen : Word
  /-- TXT_LEN (R32) -/
  txtLen : Word
  /-- RTXT_LEN (R33) -/
  rtxtLen : Word
  /-- NSYM (R34) -/
  nsym : BitVec 9
  /-- NNODE (R35) -/
  nnode : BitVec 10
  /-- ROOT (R36) -/
  root : BitVec 9
  /-- FREQ (R39) -/
  freq : FreqTable
  /-- NODE (R40) -/
  node : Arena
  /-- CT (R42) -/
  ct : CodeTable
  /-- IBUF (R45) -/
  ibuf : Memory
  /-- OBUF (R45) -/
  obuf : Memory
  /-- PBUF (R45) -/
  pbuf : Memory
  /-- RBUF (R45) -/
  rbuf : Memory
  /-- TBUF (R45) -/
  tbuf : Memory
  /-- model's own (P5): for each command still to be accepted, the host steps that come between its acceptance and its
  completion; 0 once the list is used up -/
  latencies : List Nat
  /-- model's own: what the host agent has still to do, in the order it issues it (R73) -/
  host : List HostOp
  /-- model's own: what the bus answered last; none before the first access -/
  reply : Option BusReply
  /-- model's own: the next draw number of a free value -/
  draws : Nat
  deriving DecidableEq, Repr

/-- The reasons the machine stops. -/
inductive Fault where
  /-- Raised by a host access step: the host wrote a location other than CMD while SEQ = BUSY. R245 makes the target and
  every result of the command UNSPECIFIED and says a model treats the write as a fault of the host program. SAFE: the
  model makes no claim past it. -/
  | hostWriteWhileBusy
  /-- Raised by CODEGEN only: NODE and ROOT are not a tree as R41 gives it (the operand condition of R124), so the walk
  of R124 has no end or a path no CT entry holds. No run from reset reaches it. SAFE: the model stops. -/
  | nodeNotATree
  deriving DecidableEq, Repr

/-- The reasons an instruction is refused. -/
inductive Refusal where
  /-- Raised by an arm of exec whose instruction has no meaning yet; no arm of this model is one. SAFE: the model stops. -/
  | notModelled (mnemonic : String)
  deriving DecidableEq, Repr

/-- The state a reset leaves (R23, R48, R240): every CSR, array and SEQ at its reset value, every buffer UNSPECIFIED by
draw number `draws`. The host agent is outside the block, so what it has still to do is given. -/
def State.afterReset (cfg : Config) (draws : Nat) (latencies : List Nat) (host : List HostOp) : State where
  cfg := cfg
  seq := .idle
  done := false
  err := false
  ovr := false
  lastOp := 0#8
  errCode := { cause := 0#8, sub := 0#8 }
  errPos := 0#32
  inLen := 0#32
  payLen := 0#32
  outLen := 0#32
  txtLen := 0#32
  rtxtLen := 0#32
  nsym := 0#9
  nnode := 0#10
  root := 0#9
  freq := Vector.replicate 256 0#32
  node := Vector.replicate 512 Node.none
  ct := Vector.replicate 256 none
  ibuf := { draw := draws, cells := [] }
  obuf := { draw := draws, cells := [] }
  pbuf := { draw := draws, cells := [] }
  rbuf := { draw := draws, cells := [] }
  tbuf := { draw := draws, cells := [] }
  latencies := latencies
  host := host
  reply := none
  draws := draws + 1

/-- The machine right after reset, with the default parameters (log 1) and a host that has nothing to do (log 6). -/
def State.reset : State := State.afterReset Config.default 0 [] []

end Sys2Proof.Machine
end

