-- ==== Sys2Proof/Machine/Flags.lean ====
section
/-! DEFINITION. The error causes and sub-causes (60_exceptions.md R201, R202), and the words STATUS and ERRCODE read as
(R26, R27). No command computes a flag from its data (R46): BUSY, DONE, ERR and OVR change in Ops.lean only. -/

namespace Sys2Proof.Machine

open Sys2Proof

/-- The failing check of a code-table line, in the order R167 tests them. -/
inductive LineFault where
  | split | ordinalSyntax | ordinalRange | bitChar | emptyCode | codeTooLong | duplicateSymbol | prefixConflict
  deriving DecidableEq, Repr

/-- How the decoder's walk failed (R151). -/
inductive MismatchKind where
  | noMatch | truncated
  deriving DecidableEq, Repr

/-- A length register that exceeds its source buffer. -/
inductive LenReg where
  | inLen | payLen | txtLen | rtxtLen
  deriving DecidableEq, Repr

/-- A destination buffer that is too small. -/
inductive DestBuf where
  | pbuf | obuf | rbuf
  deriving DecidableEq, Repr

/-- The errors of R201, with the sub-cause of R202. -/
inductive CmdError where
  | malformedCodeTable (why : LineFault)
  | malformedPayload
  | decodeMismatch (why : MismatchKind)
  | unmappedSymbol
  | illegalCommand (why : IllegalWord)
  | lengthRange (reg : LenReg)
  | capacityOverflow (dst : DestBuf)
  deriving DecidableEq, Repr

/-- CAUSE (R201). -/
def causeOf : CmdError → BitVec 8
  | .malformedCodeTable _ => 1#8
  | .malformedPayload => 2#8
  | .decodeMismatch _ => 3#8
  | .unmappedSymbol => 4#8
  | .illegalCommand _ => 5#8
  | .lengthRange _ => 6#8
  | .capacityOverflow _ => 7#8

/-- SUB of cause 1 (R202). -/
def lineFaultSub : LineFault → BitVec 8
  | .split => 1#8
  | .ordinalSyntax => 2#8
  | .ordinalRange => 3#8
  | .bitChar => 4#8
  | .emptyCode => 5#8
  | .codeTooLong => 6#8
  | .duplicateSymbol => 7#8
  | .prefixConflict => 8#8

/-- SUB (R202). -/
def subOf : CmdError → BitVec 8
  | .malformedCodeTable why => lineFaultSub why
  | .malformedPayload => 0#8
  | .decodeMismatch .noMatch => 1#8
  | .decodeMismatch .truncated => 2#8
  | .unmappedSymbol => 0#8
  | .illegalCommand .reservedOpcode => 1#8
  | .illegalCommand .reservedBits => 2#8
  | .lengthRange .inLen => 1#8
  | .lengthRange .payLen => 2#8
  | .lengthRange .txtLen => 3#8
  | .lengthRange .rtxtLen => 4#8
  | .capacityOverflow .pbuf => 1#8
  | .capacityOverflow .obuf => 2#8
  | .capacityOverflow .rbuf => 3#8

/-- ERRCODE after an error (R205). -/
def errCodeOf (e : CmdError) : ErrCode := { cause := causeOf e, sub := subOf e }

/-- SEQ = BUSY. -/
def Seq.isBusy : Seq → Bool
  | .idle => false
  | .busy _ _ => true

/-- One bit at position `k` of a 32-bit word. -/
def flagBit (b : Bool) (k : Nat) : Word := (if b then 1#32 else 0#32) <<< k

/-- The word STATUS reads as: BUSY 0, DONE 1, ERR 2, OVR 3, LASTOP [15:8], the rest 0 (R26). -/
def State.statusWord (s : State) : Word :=
  flagBit s.seq.isBusy 0 ||| flagBit s.done 1 ||| flagBit s.err 2 ||| flagBit s.ovr 3 |||
    (s.lastOp.setWidth 32 <<< 8)

/-- The word ERRCODE reads as: CAUSE [7:0], SUB [15:8], the rest 0 (R27). -/
def State.errCodeWord (s : State) : Word :=
  s.errCode.cause.setWidth 32 ||| (s.errCode.sub.setWidth 32 <<< 8)

end Sys2Proof.Machine
end

