-- ==== Sys2Proof/Machine/Ops.lean ====
section
/-! DEFINITION. The named operations on buffers (R11, R61, R70, R71), the acceptance of a command word (R203), its
completion without and with error (R204 to R206: the block's only form of taking an exception; there is no return from
one, R210), and reset (R240). -/

namespace Sys2Proof.Machine

open Sys2Proof

/-- The byte listed at offset `k`, if one is. -/
def Memory.lookup (m : Memory) (k : Nat) : Option Byte := m.cells.lookup k

/-- Writing one cell keeps the cells in rising order and replaces what was listed. -/
def insertCell (k : Nat) (v : Byte) : List Host.Cell → List Host.Cell
  | [] => [(k, v)]
  | c :: cs =>
    if k < c.1 then (k, v) :: c :: cs
    else if k = c.1 then (k, v) :: cs
    else c :: insertCell k v cs

/-- One byte write. -/
def Memory.writeByte (m : Memory) (k : Nat) (v : Byte) : Memory := { m with cells := insertCell k v m.cells }

/-- Bytes written at offsets `off`, `off + 1`, ... in order. -/
def Memory.writeBytes (m : Memory) (off : Nat) : List Byte → Memory
  | [] => m
  | v :: vs => (m.writeByte off v).writeBytes (off + 1) vs

/-- The offsets of the cells rise strictly: the canonical form of a buffer. A byte not listed is UNSPECIFIED, so no listed
cell equals what an unlisted one reads as (log 3). -/
def cellsRise : List Host.Cell → Bool
  | [] => true
  | [_] => true
  | a :: b :: rest => decide (a.1 < b.1) && cellsRise (b :: rest)

/-- A buffer of `size` bytes is in canonical form and lists offsets below `size` only (R61). -/
def Memory.wf (size : Nat) (m : Memory) : Bool :=
  cellsRise m.cells && m.cells.all fun c => decide (c.1 < size)

/-- The buffer named `b`. -/
def State.buf (s : State) : BufId → Memory
  | .ibuf => s.ibuf
  | .obuf => s.obuf
  | .pbuf => s.pbuf
  | .rbuf => s.rbuf
  | .tbuf => s.tbuf

/-- The state with buffer `b` replaced. -/
def State.setBuf (s : State) (b : BufId) (m : Memory) : State :=
  match b with
  | .ibuf => { s with ibuf := m }
  | .obuf => { s with obuf := m }
  | .pbuf => { s with pbuf := m }
  | .rbuf => { s with rbuf := m }
  | .tbuf => { s with tbuf := m }

/-- The size of buffer `b` in bytes (R45). -/
def bufSize (cfg : Config) : BufId → Nat
  | .ibuf => cfg.ibufSize
  | .obuf => cfg.obufSize
  | .pbuf => cfg.pbufBits / 8
  | .rbuf => cfg.rbufSize
  | .tbuf => Config.tbufSize

/-- MemRead(B, off, 1) of R11: the byte listed there, else the free value of its draw (V4, log 3). -/
def State.byteAt (s : State) (b : BufId) (off : Nat) : Byte :=
  match (s.buf b).lookup off with
  | some v => v
  | none => Config.freeByte (s.buf b).draw b off

/-- The `n` bytes of buffer `b` from offset `off` on (MemRead(B, off, n), R11). -/
def State.bytesAt (s : State) (b : BufId) (off n : Nat) : List Byte :=
  (List.range n).map fun k => s.byteAt b (off + k)

/-- MemWrite(B, off, n, v) of R11. -/
def State.writeBytes (s : State) (b : BufId) (off : Nat) (vs : List Byte) : State :=
  s.setBuf b ((s.buf b).writeBytes off vs)

/-- PBit(i) of R70. -/
def State.pBit (s : State) (i : Nat) : Bool := (s.byteAt .pbuf (i / 8)).getLsbD (7 - i % 8)

/-- PBitWrite(i, b) of R70: read the byte, set one bit, write it back. -/
def State.pBitWrite (s : State) (i : Nat) (b : Bool) : State :=
  let old := s.byteAt .pbuf (i / 8)
  let mask := 1#8 <<< (7 - i % 8)
  s.writeBytes .pbuf (i / 8) [if b then old ||| mask else old &&& ~~~mask]

/-- Every byte of buffer `b` becomes UNSPECIFIED: a fresh draw (R206, V2, V3). -/
def State.unspecify (s : State) (b : BufId) : State :=
  { s.setBuf b { draw := s.draws, cells := [] } with draws := s.draws + 1 }

/-- The error a running command raises and the position it records: `raise CAUSE(sub, pos)` of R11. -/
structure Raise where
  error : CmdError
  pos : Nat
  deriving DecidableEq, Repr

/-- R206: the destination buffer after an error completion of command `i`. -/
def State.spoil (s : State) (i : Instr) (e : CmdError) : State :=
  match i, e with
  | .encode, .unmappedSymbol => s.unspecify .pbuf
  | .encode, .capacityOverflow _ => s.unspecify .pbuf
  | .decode, .decodeMismatch _ => s.unspecify .obuf
  | .decode, .capacityOverflow _ => s.unspecify .obuf
  | _, _ => s

/-- Recording an error and ending the command (R205). -/
def State.recordError (s : State) (e : CmdError) (pos : Nat) : State :=
  { s with errCode := errCodeOf e, errPos := BitVec.ofNat 32 pos, seq := .idle, done := true, err := true }

/-- R205 with R206: taking the exception `r` in command `i`. Staged results are dropped because `s` never held them. -/
def State.completeError (s : State) (i : Instr) (r : Raise) : State :=
  (s.spoil i r.error).recordError r.error r.pos

/-- R204 after the commit: SEQ <- IDLE, BUSY <- 0, DONE <- 1; ERR, ERRCODE and ERRPOS stay. -/
def State.completeOk (s : State) : State := { s with seq := .idle, done := true }

/-- The end of command `i` run on `s`: the committed state completes by R204, a raise by R205. -/
def State.settle (s : State) (i : Instr) : Except Raise State → State
  | .ok committed => committed.completeOk
  | .error r => s.completeError i r

/-- The register part of an acceptance (R203): SEQ, STATUS, ERRCODE and ERRPOS. -/
def State.latch (s : State) (w : Word) (wait : Nat) : State :=
  { s with seq := .busy w wait, done := false, err := false, ovr := false, lastOp := w.extractLsb' 0 8,
           errCode := { cause := 0#8, sub := 0#8 }, errPos := 0#32 }

/-- R203: acceptance of `w`. A command then runs until the engine's complete transition; an illegal word completes at
once (R93; log 7). The first latency still listed is this command's. -/
def State.accept (s : State) (w : Word) : State :=
  let t := { s.latch w (s.latencies.headD 0) with latencies := s.latencies.tail }
  match decode w with
  | .command _ => t
  | .illegal why => t.recordError (.illegalCommand why) 0

/-- R240: the block's one atomic reset. The parameters and the host agent stay; every buffer is a fresh draw. -/
def State.resetBlock (s : State) : State := State.afterReset s.cfg s.draws s.latencies s.host

end Sys2Proof.Machine
end

