-- ==== Sys2Proof/Machine/Operands.lean ====
section
/-! DEFINITION. The operands the commands read (30_encoding.md R91): the input bytes, the payload bits, the two texts,
the code table and the arrays, each by offset from the buffer's start (R61, R71). -/

namespace Sys2Proof.Machine

open Sys2Proof

/-- FREQ[s] as a number (R39). -/
def State.freqAt (s : State) (x : Byte) : Nat := (s.freq[x.toNat]'x.isLt).toNat

/-- CT[s] of a table: none when VALID = 0 (R42). -/
def entryAt (t : CodeTable) (x : Byte) : Option Code := t[x.toNat]'x.isLt

/-- CT with the entry of `x` set. -/
def setEntry (t : CodeTable) (x : Byte) (c : Code) : CodeTable := t.set x.toNat (some c) x.isLt

/-- NODE[i] of an arena (R40). -/
def nodeAt (t : Arena) (i : BitVec 9) : Node := t[i.toNat]'i.isLt

/-- NODE[k] of an arena by a number, NONE past its end (R40). -/
def nodeNo (t : Arena) (k : Nat) : Node := (t[k]?).getD Node.none

/-- KIND of a node (R40). -/
def Node.kind : Node → BitVec 2
  | .none => 0#2
  | .leaf _ _ => 1#2
  | .internal _ _ _ => 2#2

/-- SYM of a node: 0 for other kinds than LEAF (R40). -/
def Node.sym : Node → Byte
  | .leaf x _ => x
  | .none => 0#8
  | .internal _ _ _ => 0#8

/-- FREQ of a node: 0 for NONE (R40). -/
def Node.freq : Node → Word
  | .none => 0#32
  | .leaf _ f => f
  | .internal f _ _ => f

/-- LEFT of a node: 0 for other kinds than INTERNAL (R40). -/
def Node.left : Node → BitVec 9
  | .internal _ l _ => l
  | .none => 0#9
  | .leaf _ _ => 0#9

/-- RIGHT of a node: 0 for other kinds than INTERNAL (R40). -/
def Node.right : Node → BitVec 9
  | .internal _ _ r => r
  | .none => 0#9
  | .leaf _ _ => 0#9

/-- LEN of an entry (R42). -/
def Code.len (c : Code) : Nat := c.bits.length

/-- The 256 symbols in ascending order. -/
def symbols : List Byte := (List.range 256).map (BitVec.ofNat 8)

/-- The elements of an array of 256, each with its symbol, in ascending order of the symbol. -/
def indexed {α : Type} (v : Vector α 256) : List (Byte × α) := symbols.zip v.toList

/-- The valid entries of a code table in ascending order of the symbol. -/
def validEntries (t : CodeTable) : List (Byte × Code) :=
  (indexed t).filterMap fun p => p.2.map fun c => (p.1, c)

/-- The empty code table (R48). -/
def emptyTable : CodeTable := Vector.replicate 256 none

/-- IBUF bytes 0..IN_LEN-1, the operand of COUNT and ENCODE (R91). -/
def State.inputBytes (s : State) : List Byte := s.bytesAt .ibuf 0 s.inLen.toNat

/-- PBUF bits 0..PAY_LEN-1, the operand of DECODE and BITS2TXT (R91). -/
def State.payloadBits (s : State) : Bits := (List.range s.payLen.toNat).map s.pBit

/-- TBUF bytes 0..TXT_LEN-1, the operand of TABPARSE (R91). -/
def State.tableText (s : State) : List Byte := s.bytesAt .tbuf 0 s.txtLen.toNat

/-- RBUF bytes 0..RTXT_LEN-1, the operand of TXT2BITS (R91). -/
def State.renderedText (s : State) : List Byte := s.bytesAt .rbuf 0 s.rtxtLen.toNat

/-- A length as a 32-bit register value (R44: it never exceeds the field). -/
def lenWord (n : Nat) : Word := BitVec.ofNat 32 n

/-- Writing a packed payload at PBUF bit 0 and its length, the commit of ENCODE and TXT2BITS (R140, R181): every PBitWrite
and the zeroed pad bits of the last byte at once, so no old PBUF byte shows through. -/
def State.putPayload (s : State) (u : Bits) : State :=
  { s.writeBytes .pbuf 0 (packBits u) with payLen := lenWord u.length }

end Sys2Proof.Machine
end

