-- ==== Sys2Proof/Machine/BitText.lean ====
section
/-! DEFINITION. BITS2TXT and TXT2BITS (45_bit_text.md R180, R181). -/

namespace Sys2Proof.Machine

open Sys2Proof

/-- The result of BITS2TXT before its completion. -/
def runBits2txt (s : State) : Except Raise State :=
  if s.cfg.pbufBits < s.payLen.toNat then .error { error := .lengthRange .payLen, pos := 0 }
  else if s.cfg.rbufSize < s.payLen.toNat then .error { error := .capacityOverflow .rbuf, pos := 0 }
  else .ok { s.writeBytes .rbuf 0 (s.payloadBits.map charOfBit) with rtxtLen := s.payLen }

/-- BITS2TXT (R180). -/
def execBits2txt (s : State) : Host.Outcome State Fault Refusal := .next (s.settle .bits2txt (runBits2txt s))

/-- The offset of the first byte that is neither '0' nor '1', from offset `i` on (R181). -/
def firstNonBit : Nat → List Byte → Option Nat
  | _, [] => none
  | i, c :: cs => if isBitChar c then firstNonBit (i + 1) cs else some i

/-- The result of TXT2BITS before its completion: every check precedes the first write. -/
def runTxt2bits (s : State) : Except Raise State :=
  if s.cfg.rbufSize < s.rtxtLen.toNat then .error { error := .lengthRange .rtxtLen, pos := 0 }
  else if s.cfg.pbufBits < s.rtxtLen.toNat then .error { error := .capacityOverflow .pbuf, pos := 0 }
  else
    match firstNonBit 0 s.renderedText with
    | some i => .error { error := .malformedPayload, pos := i }
    | none => .ok (s.putPayload (s.renderedText.map bitOfChar))

/-- TXT2BITS (R181). -/
def execTxt2bits (s : State) : Host.Outcome State Fault Refusal := .next (s.settle .txt2bits (runTxt2bits s))

end Sys2Proof.Machine
end

