-- ==== Sys2Proof/Machine/Count.lean ====
section
/-! DEFINITION. COUNT (40_count.md R110). -/

namespace Sys2Proof.Machine

open Sys2Proof

/-- One turn of the counting loop: F[s] <- F[s] + 1. -/
def bump (f : Vector Nat 256) (x : Byte) : Vector Nat 256 := f.set x.toNat (f[x.toNat]'x.isLt + 1) x.isLt

/-- The counts of a byte sequence, in one linear pass from all zero (R110; it never accumulates onto an earlier count). -/
def tabulate (bs : List Byte) : Vector Nat 256 := bs.foldl bump (Vector.replicate 256 0)

/-- The result of COUNT before its completion. -/
def runCount (s : State) : Except Raise State :=
  if s.cfg.ibufSize < s.inLen.toNat then .error { error := .lengthRange .inLen, pos := 0 }
  else .ok { s with freq := (tabulate s.inputBytes).map (BitVec.ofNat 32) }

/-- COUNT (R110). -/
def execCount (s : State) : Host.Outcome State Fault Refusal := .next (s.settle .count (runCount s))

end Sys2Proof.Machine
end

