-- ==== Sys2Proof/Machine/PayloadDecode.lean ====
section
/-! DEFINITION. DECODE, the walk of the trie of CT (43_decode.md R150, R151). It never reads NODE or ROOT (R153). -/

namespace Sys2Proof.Machine

open Sys2Proof

/-- HasNode(u) of R150. -/
def hasNode (t : CodeTable) (u : Bits) : Bool :=
  t.toList.any fun e =>
    match e with
    | some c => isPrefix u c.bits
    | none => false

/-- LeafSym(u) of R150. Single-valued under R43; in a table no run reaches, where two symbols share a code, the least
(log 9). -/
def leafSym (t : CodeTable) (u : Bits) : Option Byte :=
  ((validEntries t).find? fun e => e.2.bits == u).map Prod.fst

/-- The walk of R151: at payload offset `p`, on node `u` of the code that began at `start`, with `out` bytes emitted. The
last argument is the payload from `p` on; the result is the bytes emitted from here on. -/
def decodeFrom (t : CodeTable) (capacity : Nat) : Nat → Nat → Bits → Nat → Bits → Except Raise (List Byte)
  | _, start, u, _, [] =>
    if u = [] then .ok [] else .error { error := .decodeMismatch .truncated, pos := start }
  | p, start, u, out, b :: rest =>
    let v := u ++ [b]
    if hasNode t v then
      match leafSym t v with
      | none => decodeFrom t capacity (p + 1) start v out rest
      | some x =>
        if out = capacity then .error { error := .capacityOverflow .obuf, pos := start }
        else
          match decodeFrom t capacity (p + 1) (p + 1) [] (out + 1) rest with
          | .ok xs => .ok (x :: xs)
          | .error r => .error r
    else .error { error := .decodeMismatch .noMatch, pos := start }

/-- The result of DECODE before its completion. -/
def runDecode (s : State) : Except Raise State :=
  if s.cfg.pbufBits < s.payLen.toNat then .error { error := .lengthRange .payLen, pos := 0 }
  else
    match decodeFrom s.ct s.cfg.obufSize 0 0 [] 0 s.payloadBits with
    | .ok xs => .ok { s.writeBytes .obuf 0 xs with outLen := lenWord xs.length }
    | .error r => .error r

/-- DECODE (R151). -/
def execDecode (s : State) : Host.Outcome State Fault Refusal := .next (s.settle .decode (runDecode s))

end Sys2Proof.Machine
end

