-- ==== Sys2Proof/Machine/PayloadEncode.lean ====
section
/-! DEFINITION. ENCODE (42_encode.md R140). -/

namespace Sys2Proof.Machine

open Sys2Proof

/-- The loop of R140 over the input bytes from offset `i` on, `q` bits written so far: the bits it writes from there on.
At one byte UNMAPPED_SYMBOL is tested before CAPACITY_OVERFLOW. -/
def encodeFrom (t : CodeTable) (capacity : Nat) : Nat → Nat → List Byte → Except Raise Bits
  | _, _, [] => .ok []
  | i, q, x :: xs =>
    match entryAt t x with
    | none => .error { error := .unmappedSymbol, pos := i }
    | some c =>
      if capacity < q + c.len then .error { error := .capacityOverflow .pbuf, pos := i }
      else
        match encodeFrom t capacity (i + 1) (q + c.len) xs with
        | .ok u => .ok (c.bits ++ u)
        | .error r => .error r

/-- The result of ENCODE before its completion. -/
def runEncode (s : State) : Except Raise State :=
  if s.cfg.ibufSize < s.inLen.toNat then .error { error := .lengthRange .inLen, pos := 0 }
  else
    match encodeFrom s.ct s.cfg.pbufBits 0 0 s.inputBytes with
    | .ok u => .ok (s.putPayload u)
    | .error r => .error r

/-- ENCODE (R140). -/
def execEncode (s : State) : Host.Outcome State Fault Refusal := .next (s.settle .encode (runEncode s))

end Sys2Proof.Machine
end

