-- ==== Sys2Proof/Machine/TableCodec.lean ====
section
/-! DEFINITION. TABSER and TABPARSE (44_table_codec.md R160 to R167). -/

namespace Sys2Proof.Machine

open Sys2Proof

/-- The digit byte of a number below 10 (R13). -/
def digitChar (n : Nat) : Byte := BitVec.ofNat 8 (0x30 + n)

/-- dec(s) of R160: no sign, no leading zero. -/
def decimal (x : Byte) : List Byte :=
  let n := x.toNat
  if n < 10 then [digitChar n]
  else if n < 100 then [digitChar (n / 10), digitChar (n % 10)]
  else [digitChar (n / 100), digitChar (n / 10 % 10), digitChar (n % 10)]

/-- line(s) of R160, without its newline. -/
def tableLine (x : Byte) (c : Code) : List Byte := c.bits.map charOfBit ++ spaceChar :: decimal x

/-- The order of R161: byte by byte as unsigned values, a proper prefix first. -/
def lineLe : List Byte → List Byte → Bool
  | [], _ => true
  | _ :: _, [] => false
  | a :: as, b :: bs => decide (a.toNat < b.toNat) || (decide (a = b) && lineLe as bs)

/-- One line put in its place in sorted lines. -/
def insertLine (l : List Byte) : List (List Byte) → List (List Byte)
  | [] => [l]
  | m :: ms => if lineLe l m then l :: m :: ms else m :: insertLine l ms

/-- The lines in ascending order (R161). -/
def sortLines : List (List Byte) → List (List Byte)
  | [] => []
  | l :: ls => insertLine l (sortLines ls)

/-- The text of a code table (R162): its sorted lines, each with its newline. -/
def tableTextOf (t : CodeTable) : List Byte :=
  (sortLines ((validEntries t).map fun e => tableLine e.1 e.2)).flatMap fun l => l ++ [newlineChar]

/-- The committed result of TABSER (R162). -/
def runTabser (s : State) : Except Raise State :=
  let text := tableTextOf s.ct
  .ok { s.writeBytes .tbuf 0 text with txtLen := lenWord text.length }

/-- TABSER (R162): it cannot fail. -/
def execTabser (s : State) : Host.Outcome State Fault Refusal := .next (s.settle .tabser (runTabser s))

/-- A segment of the text and the offset of its first byte (R163). -/
structure Segment where
  start : Nat
  text : List Byte
  deriving DecidableEq, Repr

/-- The text from offset `a` on, cut at every newline (R163). -/
def segments : Nat → List Byte → List Segment
  | a, [] => [{ start := a, text := [] }]
  | a, b :: bs =>
    if b = newlineChar then { start := a, text := [] } :: segments (a + 1) bs
    else
      match segments (a + 1) bs with
      | [] => [{ start := a, text := [b] }]
      | g :: gs => { start := a, text := b :: g.text } :: gs

/-- The non-empty segments, in text order (R163). -/
def tableLines (text : List Byte) : List Segment := (segments 0 text).filter fun g => !g.text.isEmpty

/-- The bytes before the first space and the bytes after it (R163). -/
def splitAtSpace : List Byte → Option (List Byte × List Byte)
  | [] => none
  | b :: bs =>
    if b = spaceChar then some ([], bs)
    else
      match splitAtSpace bs with
      | none => none
      | some (before, after) => some (b :: before, after)

/-- The number a string of digits spells, of any size (R15, R164). -/
def digitsValue (ds : List Byte) : Nat := ds.foldl (fun v d => 10 * v + (d.toNat - 0x30)) 0

/-- Some valid entry's code is a prefix of `u`, or has `u` as a prefix (R166). -/
def prefixConflicts (t : CodeTable) (u : Bits) : Bool :=
  t.toList.any fun e =>
    match e with
    | some c => isPrefix u c.bits || isPrefix c.bits u
    | none => false

/-- One line, its eight checks in the order of R167: the table with the line's entry, or the first failing check. -/
def parseLine (t : CodeTable) (line : List Byte) : Except LineFault CodeTable :=
  match splitAtSpace line with
  | none => .error .split
  | some (bitText, ordinal) =>
    if ordinal.isEmpty || !ordinal.all isDigit then .error .ordinalSyntax
    else if 255 < digitsValue ordinal then .error .ordinalRange
    else if !bitText.all isBitChar then .error .bitChar
    else
      let u := bitText.map bitOfChar
      let x : Byte := BitVec.ofNat 8 (digitsValue ordinal)
      if hlo : u.length = 0 then .error .emptyCode
      else if hhi : 255 < u.length then .error .codeTooLong
      else if (entryAt t x).isSome then .error .duplicateSymbol
      else if prefixConflicts t u then .error .prefixConflict
      else .ok (setEntry t x { bits := u, len_range := ⟨by omega, by omega⟩ })

/-- The lines in text order; the first failing one is reported at its first byte (R167). -/
def parseLines : CodeTable → List Segment → Except Raise CodeTable
  | t, [] => .ok t
  | t, g :: gs =>
    match parseLine t g.text with
    | .error why => .error { error := .malformedCodeTable why, pos := g.start }
    | .ok t' => parseLines t' gs

/-- The result of TABPARSE before its completion. NSYM is the number of lines read, one entry each. -/
def runTabparse (s : State) : Except Raise State :=
  if Config.tbufSize < s.txtLen.toNat then .error { error := .lengthRange .txtLen, pos := 0 }
  else
    let lines := tableLines s.tableText
    match parseLines emptyTable lines with
    | .ok table => .ok { s with ct := table, nsym := BitVec.ofNat 9 lines.length }
    | .error r => .error r

/-- TABPARSE (R167). -/
def execTabparse (s : State) : Host.Outcome State Fault Refusal := .next (s.settle .tabparse (runTabparse s))

end Sys2Proof.Machine
end

