-- ==== Sys2Proof/Machine/Tree.lean ====
section
/-! DEFINITION. BUILD and CODEGEN (41_tree.md R120 to R125). -/

namespace Sys2Proof.Machine

open Sys2Proof

/-- An element of BUILD's priority queue: a node's frequency and index, which are its key (R121). -/
structure QueueItem where
  freq : Nat
  idx : Nat
  deriving DecidableEq, Repr

/-- key(i) < key(j): by frequency, then by index (R121). -/
def QueueItem.before (x y : QueueItem) : Bool :=
  decide (x.freq < y.freq) || (decide (x.freq = y.freq) && decide (x.idx < y.idx))

/-- argmin over the queue, and the queue without it (R121). -/
def extractMin : List QueueItem → Option (QueueItem × List QueueItem)
  | [] => none
  | x :: xs =>
    match extractMin xs with
    | none => some (x, [])
    | some (m, rest) => if x.before m then some (x, xs) else some (m, x :: rest)

/-- The internal nodes in creation order, and the index of the root. -/
structure Merged where
  nodes : List Node
  root : Nat
  deriving DecidableEq, Repr

/-- The merge loop of R120: extract two (first left, second right), reinsert their sum at index `next`, until one
element remains. Each turn removes one element, so a queue of n elements needs n turns at most. -/
def mergeLoop : Nat → Nat → List QueueItem → Merged
  | 0, _, _ => { nodes := [], root := 0 }
  | turns + 1, next, queue =>
    match extractMin queue with
    | none => { nodes := [], root := 0 }
    | some (x, queue1) =>
      match extractMin queue1 with
      | none => { nodes := [], root := x.idx }
      | some (y, queue2) =>
        let f := x.freq + y.freq
        let rest := mergeLoop turns (next + 1) ({ freq := f, idx := next } :: queue2)
        { nodes := .internal (BitVec.ofNat 32 f) (BitVec.ofNat 9 x.idx) (BitVec.ofNat 9 y.idx) :: rest.nodes
          root := rest.root }

/-- The symbols that occur and their counts, in ascending order of the symbol: the leaves at indices 1, 2, ... (R120). -/
def occurring (f : FreqTable) : List (Byte × Word) := (indexed f).filter fun p => decide (p.2 ≠ 0#32)

/-- The leaf node of a symbol (R120). -/
def leafOf (p : Byte × Word) : Node := .leaf p.1 p.2

/-- The queue the leaves seed (R120). -/
def seedQueue (leaves : List (Byte × Word)) : List QueueItem :=
  leaves.zipIdx.map fun p => { freq := p.1.2.toNat, idx := p.2 + 1 }

/-- An arena from the nodes at indices 0, 1, ..., every further entry NONE. -/
def arenaOf (nodes : List Node) : Arena :=
  ⟨⟨(nodes ++ List.replicate 512 Node.none).take 512⟩, by
    rw [List.size_toArray, List.length_take, List.length_append, List.length_replicate]; omega⟩

/-- The committed result of BUILD (R120). -/
def runBuild (s : State) : Except Raise State :=
  let leaves := occurring s.freq
  let n := leaves.length
  let merged := mergeLoop n (n + 1) (seedQueue leaves)
  let count := n + merged.nodes.length
  .ok { s with node := arenaOf (.none :: (leaves.map leafOf ++ merged.nodes))
               root := BitVec.ofNat 9 merged.root
               nnode := BitVec.ofNat 10 count }

/-- BUILD (R120): it cannot fail. -/
def execBuild (s : State) : Host.Outcome State Fault Refusal := .next (s.settle .build (runBuild s))

/-- `visit(i, p)` of R124: the leaves below node `i` with their paths, left to right. `depth` bounds the walk: a tree of
256 leaves has paths of at most 255 bits (R122). None where NODE is no such tree (R41). -/
def visit (t : Arena) : Nat → BitVec 9 → Bits → Option (List (Byte × Bits))
  | 0, _, _ => none
  | depth + 1, i, p =>
    match nodeAt t i with
    | .none => none
    | .leaf x _ => some [(x, p)]
    | .internal _ l r =>
      match visit t depth l (p ++ [false]), visit t depth r (p ++ [true]) with
      | some a, some b => some (a ++ b)
      | _, _ => none

/-- The single-leaf override of R125: the code [0]. -/
def singleCode : Code := { bits := [false], len_range := by decide }

/-- A bit sequence as a code, if its length is in [1, 255] (R42). -/
def codeOf (u : Bits) : Option Code :=
  if h : 1 ≤ u.length ∧ u.length ≤ 255 then some { bits := u, len_range := h } else none

/-- The assignments T[sym] <- path of R124, in the order of the walk. -/
def assignCodes : CodeTable → List (Byte × Bits) → Option CodeTable
  | t, [] => some t
  | t, (x, p) :: rest =>
    match codeOf p with
    | none => none
    | some c => assignCodes (setEntry t x c) rest

/-- The code table and its number of entries for the tree at `r` (R124): none where NODE is no tree (R41). -/
def deriveCodes (t : Arena) (r : BitVec 9) : Option (CodeTable × Nat) :=
  if r = 0#9 then some (emptyTable, 0)
  else
    match nodeAt t r with
    | .leaf x _ => some (setEntry emptyTable x singleCode, 1)
    | _ =>
      match visit t 256 r [] with
      | none => none
      | some paths =>
        match assignCodes emptyTable paths with
        | none => none
        | some table => some (table, paths.length)

/-- CODEGEN (R124): on every NODE that is a tree (R41) it cannot fail. -/
def execCodegen (s : State) : Host.Outcome State Fault Refusal :=
  match deriveCodes s.node s.root with
  | none => .fault .nodeNotATree
  | some (table, m) => .next (s.settle .codegen (.ok { s with ct := table, nsym := BitVec.ofNat 9 m }))

end Sys2Proof.Machine
end

