-- ==== Sys2Proof/Machine/Dispatch.lean ====
section
/-! DEFINITION. One arm per command: the engine's complete transition of an accepted command (R203 to R205). -/

namespace Sys2Proof.Machine

open Sys2Proof

def exec (i : Instr) (s : State) : Host.Outcome State Fault Refusal :=
  match i with
  | .count => Sys2Proof.Machine.execCount s
  | .build => Sys2Proof.Machine.execBuild s
  | .codegen => Sys2Proof.Machine.execCodegen s
  | .encode => Sys2Proof.Machine.execEncode s
  | .decode => Sys2Proof.Machine.execDecode s
  | .tabser => Sys2Proof.Machine.execTabser s
  | .tabparse => Sys2Proof.Machine.execTabparse s
  | .bits2txt => Sys2Proof.Machine.execBits2txt s
  | .txt2bits => Sys2Proof.Machine.execTxt2bits s

end Sys2Proof.Machine
end

