-- ==== Sys2Proof/Machine/Engine.lean ====
section
/-! DEFINITION. The engine's complete transition (60_exceptions.md R203 to R205). -/

namespace Sys2Proof.Machine

open Sys2Proof

/-- The complete transition of the accepted word: the command it decodes to runs on the state as it is (R203). An illegal
word is never in progress (accept completes it at once, R93), and would complete the same way here. -/
def complete (w : Word) (s : State) : Host.Outcome State Fault Refusal :=
  match decode w with
  | .command i => exec i s
  | .illegal why => .next (s.recordError (.illegalCommand why) 0)

end Sys2Proof.Machine
end

