-- ==== Sys2Proof/Machine/HostPort.lean ====
section
/-! DEFINITION. The host bus: the address map (20_memory.md R60), access widths, alignment and bus errors (R62 to R65),
the CSRs and array windows (10_state.md R23 to R38; R66 to R68), the buffer windows (R69, R79), and what an access does
while a command runs (R208, R245, R249). -/

namespace Sys2Proof.Machine

open Sys2Proof

/-- The regions of the address map (R60). -/
inductive Region where
  | csr | freqWin | nodeWin | ctWin
  | buffer (b : BufId)
  deriving DecidableEq, Repr

/-- One row of the address map: base, size in bytes, region. -/
structure RegionRow where
  base : Nat
  size : Nat
  region : Region
  deriving DecidableEq, Repr

/-- The host address of a buffer's first byte (R60). -/
def bufBase : BufId → Nat
  | .tbuf => 0x00010000
  | .ibuf => 0x01000000
  | .obuf => 0x02000000
  | .pbuf => 0x04000000
  | .rbuf => 0x08000000

/-- The row of a buffer. -/
def bufRow (cfg : Config) (b : BufId) : RegionRow :=
  { base := bufBase b, size := bufSize cfg b, region := .buffer b }

/-- The address map (R60). -/
def addressMap (cfg : Config) : List RegionRow :=
  [{ base := 0x0000, size := 0x1000, region := .csr },
   { base := 0x1000, size := 0x400, region := .freqWin },
   { base := 0x2000, size := 0x2000, region := .nodeWin },
   { base := 0x4000, size := 0x4000, region := .ctWin },
   bufRow cfg .tbuf, bufRow cfg .ibuf, bufRow cfg .obuf, bufRow cfg .pbuf, bufRow cfg .rbuf]

/-- The region that holds all `n` bytes from address `a` on, and the offset in it (R60, R64). -/
def locate (cfg : Config) (a n : Nat) : Option (Region × Nat) :=
  ((addressMap cfg).find? fun r => decide (r.base ≤ a) && decide (a + n ≤ r.base + r.size)).map
    fun r => (r.region, a - r.base)

/-- The widths a region admits (R62). -/
def widthAdmitted : Region → Nat → Bool
  | .buffer _, bits => bits == 8 || bits == 16 || bits == 32
  | .csr, bits => bits == 32
  | .freqWin, bits => bits == 32
  | .nodeWin, bits => bits == 32
  | .ctWin, bits => bits == 32

/-- The location of an access, or none where it gets the bus error of R65: an unsupported width (R62), a misaligned or
region-crossing access (R64), an unmapped address (R60). -/
def resolve (cfg : Config) (bits : Nat) (a : Word) : Option (Region × Nat) :=
  if (bits = 8 ∨ bits = 16 ∨ bits = 32) ∧ a.toNat % (bits / 8) = 0 then
    match locate cfg a.toNat (bits / 8) with
    | some (r, off) => if widthAdmitted r bits then some (r, off) else none
    | none => none
  else none

/-- The offset of each register (R23). -/
def csrOffset : CsrName → Nat
  | .ID => 0x000
  | .CMD => 0x004
  | .STATUS => 0x008
  | .ERRCODE => 0x00C
  | .ERRPOS => 0x010
  | .IN_LEN => 0x014
  | .PAY_LEN => 0x018
  | .OUT_LEN => 0x01C
  | .TXT_LEN => 0x020
  | .RTXT_LEN => 0x024
  | .NSYM => 0x028
  | .NNODE => 0x02C
  | .ROOT => 0x030
  | .CAP_IBUF => 0x034
  | .CAP_OBUF => 0x038
  | .CAP_PBUF => 0x03C
  | .CAP_RBUF => 0x040
  | .CAP_TBUF => 0x044

/-- The registers, in offset order. -/
def csrNames : List CsrName :=
  [.ID, .CMD, .STATUS, .ERRCODE, .ERRPOS, .IN_LEN, .PAY_LEN, .OUT_LEN, .TXT_LEN, .RTXT_LEN,
   .NSYM, .NNODE, .ROOT, .CAP_IBUF, .CAP_OBUF, .CAP_PBUF, .CAP_RBUF, .CAP_TBUF]

/-- The register at a CSR offset, none for a reserved one (R38). -/
def csrAt (off : Nat) : Option CsrName := csrNames.find? fun r => csrOffset r == off

/-- What a 32-bit read of a register returns while SEQ = IDLE (R24 to R37; CMD reads 0, R25). -/
def State.csrRead (s : State) : CsrName → Word
  | .ID => Config.idValue
  | .CMD => 0#32
  | .STATUS => s.statusWord
  | .ERRCODE => s.errCodeWord
  | .ERRPOS => s.errPos
  | .IN_LEN => s.inLen
  | .PAY_LEN => s.payLen
  | .OUT_LEN => s.outLen
  | .TXT_LEN => s.txtLen
  | .RTXT_LEN => s.rtxtLen
  | .NSYM => s.nsym.setWidth 32
  | .NNODE => s.nnode.setWidth 32
  | .ROOT => s.root.setWidth 32
  | .CAP_IBUF => lenWord s.cfg.ibufSize
  | .CAP_OBUF => lenWord s.cfg.obufSize
  | .CAP_PBUF => lenWord s.cfg.pbufBits
  | .CAP_RBUF => lenWord s.cfg.rbufSize
  | .CAP_TBUF => lenWord Config.tbufSize

/-- What a 32-bit write to a register other than CMD stores: the four RW registers hold every bit written, every other
write is ignored (R23, R29 to R33, R78). -/
def State.csrWrite (s : State) (r : CsrName) (v : Word) : State :=
  match r with
  | .IN_LEN => { s with inLen := v }
  | .PAY_LEN => { s with payLen := v }
  | .TXT_LEN => { s with txtLen := v }
  | .RTXT_LEN => { s with rtxtLen := v }
  | .ID => s
  | .CMD => s
  | .STATUS => s
  | .ERRCODE => s
  | .ERRPOS => s
  | .OUT_LEN => s
  | .NSYM => s
  | .NNODE => s
  | .ROOT => s
  | .CAP_IBUF => s
  | .CAP_OBUF => s
  | .CAP_PBUF => s
  | .CAP_RBUF => s
  | .CAP_TBUF => s

/-- Word `k` of a NODE window entry (R67): KIND [1:0] and SYM [15:8], FREQ, LEFT, RIGHT, every other bit 0. -/
def nodeWord (n : Node) (k : Nat) : Word :=
  match k with
  | 0 => n.kind.setWidth 32 ||| (n.sym.setWidth 32 <<< 8)
  | 1 => n.freq
  | 2 => n.left.setWidth 32
  | 3 => n.right.setWidth 32
  | _ => 0#32

/-- Word `k` of a CT window entry (R68): LEN and VALID, then code bit 32*j + m at bit 31 - m of word 1 + j. -/
def ctWord (e : Option Code) (k : Nat) : Word :=
  match e with
  | none => 0#32
  | some c =>
    if k = 0 then BitVec.ofNat 32 c.len ||| flagBit true 31
    else if k ≤ 8 then msbFirst 32 fun m => bitAt c.bits (32 * (k - 1) + m)
    else 0#32

/-- What a read of `bits` bits at offset `off` of a region returns while SEQ = IDLE (R63, R66 to R69). -/
def State.readAt (s : State) (r : Region) (off bits : Nat) : Word :=
  match r with
  | .csr =>
    match csrAt off with
    | some name => s.csrRead name
    | none => 0#32
  | .freqWin => s.freq.toList.getD (off / 4) 0#32
  | .nodeWin => nodeWord (s.node.toList.getD (off / 16) Node.none) (off % 16 / 4)
  | .ctWin => ctWord (s.ct.toList.getD (off / 64) none) (off % 64 / 4)
  | .buffer b => littleEndian (s.bytesAt b off (bits / 8))

/-- What a write of `bits` bits at offset `off` of a region does while SEQ = IDLE, CMD apart: it stores into a RW register
or a buffer, and is ignored elsewhere (R66 to R69, R78, R79). -/
def State.writeAt (s : State) (r : Region) (off bits : Nat) (v : Word) : State :=
  match r with
  | .csr =>
    match csrAt off with
    | some name => s.csrWrite name v
    | none => s
  | .freqWin => s
  | .nodeWin => s
  | .ctWin => s
  | .buffer b => s.writeBytes b off (bytesOf (bits / 8) v)

/-- The locations a host may read while SEQ = BUSY: ID, STATUS, ERRCODE, ERRPOS and the CAP registers (R249). -/
def readableWhileBusy (r : Region) (off : Nat) : Bool :=
  match r with
  | .csr =>
    match csrAt off with
    | some .ID => true
    | some .STATUS => true
    | some .ERRCODE => true
    | some .ERRPOS => true
    | some .CAP_IBUF => true
    | some .CAP_OBUF => true
    | some .CAP_PBUF => true
    | some .CAP_RBUF => true
    | some .CAP_TBUF => true
    | _ => false
  | .freqWin => false
  | .nodeWin => false
  | .ctWin => false
  | .buffer _ => false

/-- The bus answers an access. -/
def State.answer (s : State) (data : Word) (error : Bool) : State :=
  { s with reply := some { data := data, error := error } }

/-- The bus error response (R65): a read returns 0, nothing changes. -/
def State.busError (s : State) : State := s.answer 0#32 true

/-- A read that returns an UNSPECIFIED value (R241, R249; log 4). -/
def State.answerFree (s : State) (bits : Nat) : State :=
  { s.answer (lowBits bits (Config.freeWord s.draws)) false with draws := s.draws + 1 }

/-- A host read (R72: no side effect). -/
def State.hostRead (s : State) (bits : Nat) (a : Word) : State :=
  match resolve s.cfg bits a with
  | none => s.busError
  | some (r, off) =>
    if s.seq.isBusy && !readableWhileBusy r off then s.answerFree bits
    else s.answer (s.readAt r off bits) false

/-- A 32-bit write to CMD: a command request, accepted while IDLE (R203), dropped while BUSY (R208). -/
def State.requestCommand (s : State) (w : Word) : State :=
  if s.seq.isBusy then { s with ovr := true } else s.accept w

/-- A host write. While BUSY a write to a location other than CMD is a fault of the host program (R245); an access that
gets the bus error touches no location (R65; log 8). -/
def State.hostWrite (s : State) (bits : Nat) (a v : Word) : Host.Outcome State Fault Refusal :=
  match resolve s.cfg bits a with
  | none => .next s.busError
  | some (r, off) =>
    if r = .csr ∧ off = csrOffset .CMD then .next ((s.requestCommand v).answer 0#32 false)
    else if s.seq.isBusy then .fault .hostWriteWhileBusy
    else .next ((s.writeAt r off bits v).answer 0#32 false)

/-- One host access. -/
def State.access (s : State) : Access → Host.Outcome State Fault Refusal
  | .read bits a => .next (s.hostRead bits a)
  | .write bits a v => s.hostWrite bits a v

/-- One turn of the poll loop of R97: a read of STATUS; BUSY = 1 keeps the poll at the front of the program. Once BUSY = 0,
ERR = 1 ends the program if the poll asks for it (R98, R99, R251). -/
def State.pollTurn (s : State) (stopOnErr : Bool) : State :=
  let t := s.answer s.statusWord false
  if s.statusWord.getLsbD 0 then { t with host := .poll stopOnErr :: s.host }
  else if stopOnErr && s.statusWord.getLsbD 2 then { t with host := [] }
  else t

/-- A reset, with a host access issued during it, if there is one: such a write has no effect, such a read returns an
UNSPECIFIED value (R240, R241). -/
def State.resetTurn (s : State) : Option Access → State
  | none => s.resetBlock
  | some (.read bits _) => s.resetBlock.answerFree bits
  | some (.write _ _ _) => s.resetBlock.answer 0#32 false

/-- One step of the host agent. -/
def State.hostTurn (s : State) : HostOp → Host.Outcome State Fault Refusal
  | .access x => s.access x
  | .poll stopOnErr => .next (s.pollTurn stopOnErr)
  | .reset during => .next (s.resetTurn during)

end Sys2Proof.Machine
end

