-- ==== Sys2Proof/Machine/Step.lean ====
section
/-! DEFINITION. One step of the machine: a host step, or the engine's complete transition of the accepted command (R203 to
R205, R247), one agent at a time (R7, R73). -/

namespace Sys2Proof.Machine

open Sys2Proof

/-- One step. While BUSY the engine completes once the command's host steps are used up, or when the host has nothing to
do (R247: every accepted command completes). Otherwise the host performs its next operation; with none left, nothing
happens (R240: the block waits for a CMD write). -/
def step (s : State) : Host.Outcome State Fault Refusal :=
  match s.seq, s.host with
  | .idle, [] => .next s
  | .idle, op :: rest => State.hostTurn { s with host := rest } op
  | .busy w 0, _ => complete w s
  | .busy w (_ + 1), [] => complete w s
  | .busy w (wait + 1), op :: rest => State.hostTurn { s with host := rest, seq := .busy w wait } op

/-- The state in which the row's word has just been accepted (R203) and the engine moves next, so that the very next step
runs its command: the block has no program counter and fetches nothing (R22), a command comes by a CMD write (log 6). -/
def State.withFetchWord (s : State) (nbits w : Nat) : State :=
  s.latch (BitVec.ofNat 32 (w % 2 ^ nbits)) 0

end Sys2Proof.Machine
end

