-- ==== Sys2Proof/Machine/Assembly.lean ====
section
/-! DEFINITION. The host assembly of 30_encoding.md R96 to R99: what each statement has the host do, the text syntax of a
program line, loading a program into the host agent, and when a program has ended (R251). -/

namespace Sys2Proof.Machine

open Sys2Proof

/-- A 32-bit write to a register. -/
def writeCsr (r : CsrName) (v : Word) : HostOp := .access (.write 32 (BitVec.ofNat 32 (csrOffset r)) v)

/-- A 32-bit read of a register. -/
def readCsr (r : CsrName) : HostOp := .access (.read 32 (BitVec.ofNat 32 (csrOffset r)))

/-- `issue X` (R96): one write of the command word to CMD. -/
def issueOps (i : Instr) : List HostOp := [writeCsr .CMD (encode i)]

/-- `cmd X` (R97): issue X, then poll STATUS until BUSY = 0. -/
def cmdOps (stopOnErr : Bool) (i : Instr) : List HostOp := issueOps i ++ [.poll stopOnErr]

/-- The commands of COMPRESS, in order (R98). -/
def compressSeq : List Instr := [.count, .build, .codegen, .encode, .tabser, .bits2txt]

/-- The commands of DECOMPRESS, in order (R99). -/
def decompressSeq : List Instr := [.tabparse, .txt2bits, .decode]

/-- Host byte writes to a buffer at offsets `off`, `off + 1`, ... (R96). DESIGN CHOICE (log 15): each goes to the address base +
offset modulo 2^32, and past the buffer's end it is the access that address gives, a bus error where it is unmapped, a write to
another region where it lies in one. -/
def bufferWrites (b : BufId) : Nat → List Nat → List HostOp
  | _, [] => []
  | off, v :: vs =>
    .access (.write 8 (BitVec.ofNat 32 (bufBase b + off)) (BitVec.ofNat 32 v)) :: bufferWrites b (off + 1) vs

/-- What a statement has the host do (R96 to R99). -/
def expandStmt : Stmt → List HostOp
  | .issue i => issueOps i
  | .word imm => [writeCsr .CMD (BitVec.ofNat 32 imm)]
  | .cmd i => cmdOps false i
  | .wr r imm => [writeCsr r (BitVec.ofNat 32 imm)]
  | .rd r => [readCsr r]
  | .wrbuf b off bytes => bufferWrites b off bytes
  | .compress => compressSeq.flatMap (cmdOps true)
  | .decompress => decompressSeq.flatMap (cmdOps true)

/-- A host program loaded into the host agent, with the latencies of its commands (log 5, log 6). -/
def State.load (s : State) (prog : List Stmt) (latencies : List Nat) : State :=
  { s with host := prog.flatMap expandStmt, latencies := latencies }

/-- The program's last statement is `issue` or `word`: its end waits for the engine (R251). -/
def endsByIssue (prog : List Stmt) : Bool :=
  match prog.getLast? with
  | some (.issue _) => true
  | some (.word _) => true
  | _ => false

/-- The host program has ended (R251): nothing of it is left to do, and if it ends by `issue` or `word` the engine has
completed. The final poll of a `cmd`, COMPRESS or DECOMPRESS is left to do until it reads BUSY = 0, and one that stops on
ERR = 1 leaves nothing to do (pollTurn). -/
def State.programEnded (s : State) (prog : List Stmt) : Bool :=
  s.host.isEmpty && (!endsByIssue prog || !s.seq.isBusy)

/-- The tokens of a line. -/
inductive Tok where
  | word (cs : List Char)
  | str (bytes : List Nat)
  | comma | colon | lbrace | rbrace
  deriving DecidableEq, Repr

/-- Where the tokenizer is. -/
inductive LexMode where
  | plain
  | word (acc : List Char)
  | str (acc : List Nat)
  | esc (acc : List Nat)
  | comment
  deriving DecidableEq, Repr

/-- A letter, a digit or an underscore. -/
def isWordChar (c : Char) : Bool := c.isAlphanum || c == '_'

/-- A character outside a word, a string and a comment: the tokens it ends with and the mode it starts. -/
def plainChar (c : Char) : Option (List Tok × LexMode) :=
  if c == ' ' || c == '\t' then some ([], .plain)
  else if c == ';' then some ([], .comment)
  else if c == ',' then some ([.comma], .plain)
  else if c == ':' then some ([.colon], .plain)
  else if c == Char.ofNat 0x7B then some ([.lbrace], .plain)
  else if c == Char.ofNat 0x7D then some ([.rbrace], .plain)
  else if c == Char.ofNat 0x22 then some ([], .str [])
  else if isWordChar c then some ([], .word [c])
  else none

/-- The tokens of a line, none where it has none. DESIGN CHOICE (log 15): a string character from 0x80 to 0xFF, which R13 gives
no code, is the byte of its code point. -/
def lexLine : LexMode → List Char → Option (List Tok)
  | .plain, [] => some []
  | .comment, _ => some []
  | .word acc, [] => some [.word acc.reverse]
  | .str _, [] => none
  | .esc _, [] => none
  | .plain, c :: cs =>
    match plainChar c with
    | none => none
    | some (ts, m) => (lexLine m cs).map (ts ++ ·)
  | .word acc, c :: cs =>
    if isWordChar c then lexLine (.word (c :: acc)) cs
    else
      match plainChar c with
      | none => none
      | some (ts, m) => (lexLine m cs).map fun rest => .word acc.reverse :: (ts ++ rest)
  | .str acc, c :: cs =>
    if c == Char.ofNat 0x22 then (lexLine .plain cs).map (.str acc.reverse :: ·)
    else if c == '\\' then lexLine (.esc acc) cs
    else lexLine (.str (c.toNat :: acc)) cs
  | .esc acc, c :: cs => if c == 'n' then lexLine (.str (0x0A :: acc)) cs else none

/-- The value of a digit in base 16 or below. -/
def digitOf (c : Char) : Option Nat :=
  if '0' ≤ c ∧ c ≤ '9' then some (c.toNat - 48)
  else if 'a' ≤ c ∧ c ≤ 'f' then some (c.toNat - 87)
  else if 'A' ≤ c ∧ c ≤ 'F' then some (c.toNat - 55)
  else none

/-- The number a non-empty string of digits spells in base `b`, read on from `acc`. -/
def digitsIn (b : Nat) : Nat → List Char → Option Nat
  | acc, [] => some acc
  | acc, c :: cs =>
    match digitOf c with
    | none => none
    | some d => if d < b then digitsIn b (b * acc + d) cs else none

/-- IMM32, OFF and byte: decimal or 0x-prefixed hexadecimal (R96). DESIGN CHOICE (log 15): digits only, so an underscore
between digits, as the spec's own constants have, is refused. -/
def parseNumber : List Char → Option Nat
  | [] => none
  | '0' :: 'x' :: c :: cs => digitsIn 16 0 (c :: cs)
  | c :: cs => digitsIn 10 0 (c :: cs)

/-- MNEMONIC (R96). -/
def mnemonics : List (String × Instr) :=
  [("COUNT", .count), ("BUILD", .build), ("CODEGEN", .codegen), ("ENCODE", .encode), ("DECODE", .decode),
   ("TABSER", .tabser), ("TABPARSE", .tabparse), ("BITS2TXT", .bits2txt), ("TXT2BITS", .txt2bits)]

/-- CSRNAME (R96). -/
def csrSpellings : List (String × CsrName) :=
  [("ID", .ID), ("CMD", .CMD), ("STATUS", .STATUS), ("ERRCODE", .ERRCODE), ("ERRPOS", .ERRPOS), ("IN_LEN", .IN_LEN),
   ("PAY_LEN", .PAY_LEN), ("OUT_LEN", .OUT_LEN), ("TXT_LEN", .TXT_LEN), ("RTXT_LEN", .RTXT_LEN), ("NSYM", .NSYM),
   ("NNODE", .NNODE), ("ROOT", .ROOT), ("CAP_IBUF", .CAP_IBUF), ("CAP_OBUF", .CAP_OBUF), ("CAP_PBUF", .CAP_PBUF),
   ("CAP_RBUF", .CAP_RBUF), ("CAP_TBUF", .CAP_TBUF)]

/-- BUF (R96). -/
def bufSpellings : List (String × BufId) :=
  [("IBUF", .ibuf), ("OBUF", .obuf), ("PBUF", .pbuf), ("RBUF", .rbuf), ("TBUF", .tbuf)]

/-- The thing a word spells, letter for letter. -/
def spelled {α : Type} (table : List (String × α)) (cs : List Char) : Option α := table.lookup (String.ofList cs)

/-- The bytes of a brace list after its opening brace: byte (',' byte)* and the closing brace, at the line's end (R96). -/
def parseByteList : List Tok → Option (List Nat)
  | [.word n, .rbrace] => (parseNumber n).map fun v => [v]
  | .word n :: .comma :: rest =>
    match parseNumber n, parseByteList rest with
    | some v, some vs => some (v :: vs)
    | _, _ => none
  | _ => none

/-- BYTES (R96). -/
def parseBytes : List Tok → Option (List Nat)
  | [.str bytes] => some bytes
  | .lbrace :: rest => parseByteList rest
  | _ => none

/-- One statement (R96), not yet checked for well-formedness. -/
def parseStmt : List Tok → Option Stmt
  | [.word k] =>
    if String.ofList k == "COMPRESS" then some .compress
    else if String.ofList k == "DECOMPRESS" then some .decompress
    else none
  | [.word k, .word a] =>
    if String.ofList k == "issue" then (spelled mnemonics a).map .issue
    else if String.ofList k == "cmd" then (spelled mnemonics a).map .cmd
    else if String.ofList k == "word" then (parseNumber a).map .word
    else if String.ofList k == "rd" then (spelled csrSpellings a).map .rd
    else none
  | .word k :: .word a :: .comma :: .word n :: rest =>
    if String.ofList k == "wr" then
      match spelled csrSpellings a, parseNumber n, rest with
      | some r, some v, [] => some (.wr r v)
      | _, _, _ => none
    else if String.ofList k == "wrbuf" then
      match spelled bufSpellings a, parseNumber n, rest with
      | some b, some off, .comma :: bytes => (parseBytes bytes).map (.wrbuf b off)
      | _, _, _ => none
    else none
  | _ => none

/-- A line's statement, if it has one: the outer none is a line that is no line of R96. No statement names a label, so a
label has no effect. -/
def parseLineToks : List Tok → Option (Option Stmt)
  | [] => some none
  | [.word _, .colon] => some none
  | .word _ :: .colon :: rest => (parseStmt rest).map some
  | toks => (parseStmt toks).map some

/-- One line of a program, with its well-formedness checks. -/
def assembleLine (line : List Char) : Option (Option Stmt) :=
  match (lexLine .plain line).bind parseLineToks with
  | some (some st) => if st.wellFormed then some (some st) else none
  | r => r

/-- The lines of a text. -/
def textLines : List Char → List (List Char)
  | [] => [[]]
  | c :: cs =>
    if c == '\n' then [] :: textLines cs
    else
      match textLines cs with
      | [] => [[c]]
      | l :: ls => (c :: l) :: ls

/-- The statements of the lines, none where one line is no line of R96. -/
def assembleLines : List (List Char) → Option (List Stmt)
  | [] => some []
  | l :: ls =>
    match assembleLine l, assembleLines ls with
    | some (some st), some sts => some (st :: sts)
    | some none, some sts => some sts
    | _, _ => none

/-- A host program from its text (R96). -/
def assemble (text : String) : Option (List Stmt) := assembleLines (textLines text.toList)

end Sys2Proof.Machine
end

