-- ==== Sys2Proof/Machine/EndOfRun.lean ====
section
/-! DEFINITION. The end of a run (70_reset_and_hazards.md R251): what a finished host program leaves to be said. The lengths
the last commands wrote are noted beside the machine while it runs, since no register keeps them (log 19). -/

namespace Sys2Proof.Machine

open Sys2Proof

/-- The host operation the next step performs; none when the engine moves or nothing happens. -/
def State.hostMove (s : State) : Option HostOp :=
  match s.seq, s.host with
  | .idle, op :: _ => some op
  | .busy _ (_ + 1), op :: _ => some op
  | _, _ => none

/-- The lengths the last commands wrote since the last reset: OBUF bytes (DECODE), PBUF bits (ENCODE, TXT2BITS), TBUF bytes
(TABSER), RBUF bytes (BITS2TXT). -/
structure CmdLengths where
  out : Nat
  pay : Nat
  txt : Nat
  rtxt : Nat
  deriving DecidableEq, Repr

/-- No command has written a buffer yet. -/
def CmdLengths.zero : CmdLengths := { out := 0, pay := 0, txt := 0, rtxt := 0 }

/-- The lengths after command `i` has completed without error, leaving `t` (R49). -/
def CmdLengths.afterCommand (l : CmdLengths) (i : Instr) (t : State) : CmdLengths :=
  match i with
  | .encode => { l with pay := t.payLen.toNat }
  | .txt2bits => { l with pay := t.payLen.toNat }
  | .decode => { l with out := t.outLen.toNat }
  | .tabser => { l with txt := t.txtLen.toNat }
  | .bits2txt => { l with rtxt := t.rtxtLen.toNat }
  | .count => l
  | .build => l
  | .codegen => l
  | .tabparse => l

/-- The lengths after the step from `s` to `t`: a reset forgets them, no other host operation changes them. -/
def CmdLengths.note (l : CmdLengths) (s t : State) : CmdLengths :=
  match s.hostMove with
  | some (.reset _) => CmdLengths.zero
  | some (.access _) => l
  | some (.poll _) => l
  | none =>
    match s.seq with
    | .idle => l
    | .busy w _ =>
      match decode w with
      | .command i => if t.err then l else l.afterCommand i t
      | .illegal _ => l

/-- The first `n` bytes of a buffer, none for an UNSPECIFIED one. -/
def Memory.view (m : Memory) (n : Nat) : List (Option Byte) := (List.range n).map m.lookup

/-- The first `n` payload bits of PBUF (R70), none in an UNSPECIFIED byte. DESIGN CHOICE (log 19): R251 speaks of bytes
beyond a length in bits, and the view stops at the bit, so the pad bits of the last payload byte (R140, R181) are no part of
it. -/
def Memory.viewBits (m : Memory) (n : Nat) : List (Option Bool) :=
  (List.range n).map fun i => (m.lookup (i / 8)).map fun b => b.getLsbD (7 - i % 8)

/-- What the end of a run says (R251): every register and array, and of each buffer a command writes the bytes below the
length the last command wrote. -/
structure EndView where
  status : Word
  errCode : Word
  errPos : Word
  inLen : Word
  payLen : Word
  outLen : Word
  txtLen : Word
  rtxtLen : Word
  nsym : BitVec 9
  nnode : BitVec 10
  root : BitVec 9
  freq : FreqTable
  node : Arena
  ct : CodeTable
  output : List (Option Byte)
  payload : List (Option Bool)
  tableText : List (Option Byte)
  rendered : List (Option Byte)
  deriving DecidableEq, Repr

/-- The end view of a state, for the lengths the last commands wrote: no byte beyond them, no UNSPECIFIED byte's value, no
time (R251). -/
def State.endView (s : State) (l : CmdLengths) : EndView where
  status := s.statusWord
  errCode := s.errCodeWord
  errPos := s.errPos
  inLen := s.inLen
  payLen := s.payLen
  outLen := s.outLen
  txtLen := s.txtLen
  rtxtLen := s.rtxtLen
  nsym := s.nsym
  nnode := s.nnode
  root := s.root
  freq := s.freq
  node := s.node
  ct := s.ct
  output := s.obuf.view l.out
  payload := s.pbuf.viewBits l.pay
  tableText := s.tbuf.view l.txt
  rendered := s.rbuf.view l.rtxt

/-- A run of at most `steps` steps of a loaded program, to its end: what the end says, none where the run stops on a fault or
has not ended. -/
def State.runToEnd (prog : List Stmt) : Nat → CmdLengths → State → Option EndView
  | 0, l, s => if s.programEnded prog then some (s.endView l) else none
  | steps + 1, l, s =>
    if s.programEnded prog then some (s.endView l)
    else
      match step s with
      | .next t => State.runToEnd prog steps (l.note s t) t
      | .fault _ => none
      | .refused _ => none

end Sys2Proof.Machine
end

