-- ==== Sys2Proof/Safety.lean ====
section
/-! DEFINITION. The invariant of the reachable states (10_state.md R22, R26, R31, R34, R36, R41, R43, R44; 20_memory.md
R61), and the words claims are stated in. Nothing here is called by the machine. -/

namespace Sys2Proof.Machine

open Sys2Proof

/-- Every buffer is in canonical form and lists offsets below its size only (R61). -/
abbrev MemInv (s : State) : Prop :=
  s.ibuf.wf (bufSize s.cfg .ibuf) = true ∧ s.obuf.wf (bufSize s.cfg .obuf) = true ∧
  s.pbuf.wf (bufSize s.cfg .pbuf) = true ∧ s.rbuf.wf (bufSize s.cfg .rbuf) = true ∧
  s.tbuf.wf (bufSize s.cfg .tbuf) = true

/-- The pairs of CAUSE and SUB that a command can record (R201, R202). -/
def legalErrCodes : List (BitVec 8 × BitVec 8) :=
  [(1#8, 1#8), (1#8, 2#8), (1#8, 3#8), (1#8, 4#8), (1#8, 5#8), (1#8, 6#8), (1#8, 7#8), (1#8, 8#8),
   (2#8, 0#8), (3#8, 1#8), (3#8, 2#8), (4#8, 0#8), (5#8, 1#8), (5#8, 2#8),
   (6#8, 1#8), (6#8, 2#8), (6#8, 3#8), (6#8, 4#8), (7#8, 1#8), (7#8, 2#8), (7#8, 3#8)]

/-- R26 and R200: BUSY = 1 implies DONE = 0 and ERR = 0; ERR = 1 implies DONE = 1; ERRCODE holds a pair of R202 when
ERR = 1, and ERRCODE and ERRPOS are 0 otherwise. -/
abbrev StatusInv (s : State) : Prop :=
  (s.seq.isBusy = true → s.done = false ∧ s.err = false) ∧
  (s.err = true → s.done = true ∧ (s.errCode.cause, s.errCode.sub) ∈ legalErrCodes) ∧
  (s.err = false → s.errCode = { cause := 0#8, sub := 0#8 } ∧ s.errPos = 0#32)

/-- A word in progress is a legal command word, and LASTOP is its OP (R93, R203). -/
def runsCommand : Seq → BitVec 8 → Bool
  | .idle, _ => true
  | .busy w _, op =>
    (match decode w with
      | .command _ => true
      | .illegal _ => false) && decide (w.extractLsb' 0 8 = op)

/-- The sum of all counts. -/
def freqTotal (s : State) : Nat := (s.freq.toList.map BitVec.toNat).sum

/-- R41 for `n` leaves, n = 0 the empty tree: entries 1..n are LEAF with SYM strictly ascending, n+1..2n-1 INTERNAL with
children below them and FREQ their sum, all others NONE, and every index in 1..2n-2 is the child of exactly one. -/
abbrev IsTree (t : Arena) (n : Nat) : Prop :=
  (∀ k < 512, (k = 0 ∨ 2 * n ≤ k) → nodeNo t k = Node.none) ∧
  (∀ k < n + 1, 1 ≤ k → (nodeNo t k).kind = 1#2) ∧
  (∀ j < n + 1, ∀ i < j, 1 ≤ i → (nodeNo t i).sym.toNat < (nodeNo t j).sym.toNat) ∧
  (∀ k < 2 * n, n < k → (nodeNo t k).kind = 2#2 ∧
    (nodeNo t k).left.toNat < k ∧ (nodeNo t k).right.toNat < k ∧ (nodeNo t k).left ≠ (nodeNo t k).right ∧
    (nodeNo t k).freq.toNat =
      (nodeNo t (nodeNo t k).left.toNat).freq.toNat + (nodeNo t (nodeNo t k).right.toNat).freq.toNat) ∧
  (∀ i < 2 * n - 1, 1 ≤ i →
    (List.range (2 * n)).countP (fun k => decide (n < k ∧
      ((nodeNo t k).left.toNat = i ∨ (nodeNo t k).right.toNat = i))) = 1)

/-- R35, R36 and R41: NNODE = ROOT = 2n-1 (0 for n = 0) and NODE is a tree of n leaves, for some n in [0, 256]. -/
abbrev TreeInv (s : State) : Prop :=
  ∃ n < 257, s.nnode.toNat = 2 * n - 1 ∧ s.root.toNat = 2 * n - 1 ∧ IsTree s.node n

/-- No code of the table is a prefix of the code of another symbol (R43). Lengths in [1, 255] are in the type of a code. -/
abbrev PrefixFree (t : CodeTable) : Prop :=
  (validEntries t).Pairwise fun a b => isPrefix a.2.bits b.2.bits = false ∧ isPrefix b.2.bits a.2.bits = false

/-- R34 and R43. -/
abbrev TableInv (s : State) : Prop := PrefixFree s.ct ∧ s.nsym.toNat = (validEntries s.ct).length

/-- The invariant that every step keeps. -/
structure Inv (s : State) : Prop where
  mem : MemInv s
  status : StatusInv s
  running : runsCommand s.seq s.lastOp = true
  /-- R44 -/
  counts : freqTotal s ≤ s.cfg.ibufSize
  tree : TreeInv s
  table : TableInv s
  /-- R31 -/
  outLen : s.outLen.toNat ≤ s.cfg.obufSize

/-- The state with SEQ, STATUS.DONE, STATUS.ERR, ERRCODE and ERRPOS of another: what every completion may write (R49). -/
def State.withStatusOf (s t : State) : State :=
  { s with seq := t.seq, done := t.done, err := t.err, errCode := t.errCode, errPos := t.errPos }

/-- What an error completion leaves, buffers apart (R205). -/
def State.failed (s : State) (cause sub : BitVec 8) (pos : Nat) : State :=
  { s with seq := .idle, done := true, err := true, errCode := { cause := cause, sub := sub }, errPos := BitVec.ofNat 32 pos }

/-- The leaf a bit sequence leads to from node `i`: 0 goes left, 1 goes right (R124). -/
def follow (t : Arena) : BitVec 9 → Bits → Option Byte
  | i, [] =>
    match nodeAt t i with
    | .leaf x _ => some x
    | .none => none
    | .internal _ _ _ => none
  | i, b :: u =>
    match nodeAt t i with
    | .internal _ l r => follow t (if b then r else l) u
    | .none => none
    | .leaf _ _ => none

/-- code(b_0) ++ code(b_1) ++ ... (R141); none where a byte has no entry. -/
def codesOf (t : CodeTable) : List Byte → Option Bits
  | [] => some []
  | x :: xs =>
    match entryAt t x, codesOf t xs with
    | some c, some u => some (c.bits ++ u)
    | _, _ => none

/-- LEN of a symbol's entry, 0 where VALID = 0 (R42). -/
def lenOf (t : CodeTable) (x : Byte) : Nat :=
  match entryAt t x with
  | some c => c.len
  | none => 0

/-- key(i) < key(j) of R121, in a built arena. -/
def keyLess (t : Arena) (i j : Nat) : Prop :=
  (nodeNo t i).freq.toNat < (nodeNo t j).freq.toNat ∨
  ((nodeNo t i).freq.toNat = (nodeNo t j).freq.toNat ∧ i < j)

/-- Node `j` is in the queue when internal node `k` is made, in a tree of `n` leaves: it exists and no earlier merge took
it (R120). -/
def inQueue (t : Arena) (n k j : Nat) : Prop :=
  1 ≤ j ∧ j < k ∧ ∀ m, n < m → m < k → (nodeNo t m).left.toNat ≠ j ∧ (nodeNo t m).right.toNat ≠ j

/-- All `n` bytes from address `a` on lie in one region of the map of R60, with its numbers written out. -/
def mapped (cfg : Config) (a n : Nat) : Prop :=
  a + n ≤ 0x1000 ∨
  (0x1000 ≤ a ∧ a + n ≤ 0x1400) ∨
  (0x2000 ≤ a ∧ a + n ≤ 0x4000) ∨
  (0x4000 ≤ a ∧ a + n ≤ 0x8000) ∨
  (0x10000 ≤ a ∧ a + n ≤ 0x20400) ∨
  (0x1000000 ≤ a ∧ a + n ≤ 0x1000000 + cfg.ibufSize) ∨
  (0x2000000 ≤ a ∧ a + n ≤ 0x2000000 + cfg.obufSize) ∨
  (0x4000000 ≤ a ∧ a + n ≤ 0x4000000 + cfg.pbufBits / 8) ∨
  (0x8000000 ≤ a ∧ a + n ≤ 0x8000000 + cfg.rbufSize)

/-- The conditions of the bus error of R65: an unsupported width (R62), a misaligned access or one not inside one mapped
region (R60, R64). -/
def busErrorCondition (cfg : Config) (bits : Nat) (a : Word) : Prop :=
  (bits ≠ 8 ∧ bits ≠ 16 ∧ bits ≠ 32) ∨
  (bits ≠ 32 ∧ a.toNat < 0x8000) ∨
  a.toNat % (bits / 8) ≠ 0 ∨
  ¬ mapped cfg a.toNat (bits / 8)

/-- A host operation that R245 permits while a command runs and that does not reset the block. -/
def keepsRunning : HostOp → Bool
  | .access (.read _ _) => true
  | .access (.write bits a _) => decide (bits = 32) && decide (a = 4#32)
  | .poll _ => true
  | .reset _ => false

/-- The bits of `u` written one PBitWrite at a time from payload bit `q` on, as the loops of R140 and R181 do. -/
def State.writeBits (s : State) (q : Nat) : Bits → State
  | [] => s
  | b :: u => (s.pBitWrite q b).writeBits (q + 1) u

/-- A line R164 accepts for the code `u` of symbol `x`, with leading zeros in the ordinal, written with the library's decimal
rendering. -/
def specLineZeros (zeros : Nat) (x : Byte) (u : Bits) : List Byte :=
  (u.map fun b => if b then 0x31#8 else 0x30#8) ++
    0x20#8 :: (List.replicate zeros 0x30#8 ++ (Nat.toDigits 10 x.toNat).map fun ch => BitVec.ofNat 8 ch.toNat)

/-- line(s) of R160: no leading zero. -/
def specLine (x : Byte) (u : Bits) : List Byte := specLineZeros 0 x u

/-- A byte that is neither '0' nor '1' (R181). -/
def nonBinary (c : Byte) : Prop := c ≠ 0x30#8 ∧ c ≠ 0x31#8

/-- A byte that is no decimal digit (R164). -/
def nonDigit (c : Byte) : Prop := c.toNat < 0x30 ∨ 0x39 < c.toNat

/-- The number of symbols that occur (R120). -/
def leafCount (s : State) : Nat := (s.freq.toList.filter fun f => decide (f ≠ 0#32)).length

/-- The total bit count of the input under a code table (R123, R127). -/
def weightedLength (s : State) (t : CodeTable) : Nat := (symbols.map fun x => s.freqAt x * lenOf t x).sum

end Sys2Proof.Machine
end

