-- ==== Sys2Proof/Certificates/Slice0/Obligations.lean ====
section
/-! DEFINITION. The statements about HUF1. Each docstring names the rules it formalises; OBLIGATIONS.json lists them in this
order. In all of them an error completion's free bytes (log 3) and a free read value (log 4) are left open. -/

open Sys2Proof Sys2Proof.Machine

/-- Sanity: the words of the opcode map (R92) and some illegal words of L2.9 decode as the spec says. -/
def Obligations.CommandWordsDecode : Prop :=
  decode 0x00000001#32 = .command .count ∧ decode 0x00000002#32 = .command .build ∧
  decode 0x00000003#32 = .command .codegen ∧ decode 0x00000004#32 = .command .encode ∧
  decode 0x00000005#32 = .command .decode ∧ decode 0x00000006#32 = .command .tabser ∧
  decode 0x00000007#32 = .command .tabparse ∧ decode 0x00000008#32 = .command .bits2txt ∧
  decode 0x00000009#32 = .command .txt2bits ∧
  decode 0x00000000#32 = .illegal .reservedOpcode ∧ decode 0x0000000A#32 = .illegal .reservedOpcode ∧
  decode 0xFFFFFF00#32 = .illegal .reservedOpcode ∧
  decode 0x00000101#32 = .illegal .reservedBits ∧ decode 0x80000005#32 = .illegal .reservedBits

/-- R92, R94: a word is the command i exactly when it is i's word. So decoding an encoded command gives it back, and no
other word decodes to it. -/
def Obligations.DecodeEncodeAgree : Prop :=
  ∀ (w : Word) (i : Instr), decode w = .command i ↔ w = encode i

/-- R93, R94: which words are illegal, and why; a reserved opcode wins over reserved bits. -/
def Obligations.IllegalWordsByCause : Prop :=
  ∀ w : Word,
    (decode w = .illegal .reservedOpcode ↔ w.toNat % 256 = 0 ∨ 10 ≤ w.toNat % 256) ∧
    (decode w = .illegal .reservedBits ↔ 1 ≤ w.toNat % 256 ∧ w.toNat % 256 ≤ 9 ∧ 256 ≤ w.toNat)

/-- R203, R204: when the engine moves (its command's host steps are used up, or the host has nothing to do: log 5), a step
is the execution of the accepted command; and so it is right after the word's acceptance. -/
def Obligations.StepRunsDecodedCommand : Prop :=
  (∀ (s : State) (w : Word) (wait : Nat) (i : Instr), s.seq = .busy w wait → (wait = 0 ∨ s.host = []) →
    decode w = .command i → step s = exec i s) ∧
  (∀ (s : State) (i : Instr),
    step (s.withFetchWord 32 (encode i).toNat) = exec i (s.latch (encode i) 0))

/-- R73, R240: in every other case the step is the host's next operation, or nothing when the block is IDLE and the host has
nothing to do. -/
def Obligations.StepGivesTheHostItsTurn : Prop :=
  (∀ s : State, s.seq = .idle → s.host = [] → step s = .next s) ∧
  (∀ (s : State) (op : HostOp) (rest : List HostOp), s.host = op :: rest →
    (s.seq = .idle → step s = State.hostTurn { s with host := rest } op) ∧
    (∀ (w : Word) (n : Nat), s.seq = .busy w (n + 1) →
      step s = State.hostTurn { s with host := rest, seq := .busy w n } op))

/-- R247 (with the model's latency list, log 5): a command in progress completes after at most its latency plus one steps
when the host keeps R245 and does not reset the block. -/
def Obligations.AcceptedCommandCompletes : Prop :=
  ∀ (s : State) (w : Word) (n : Nat), Inv s → s.seq = .busy w n → (∀ op ∈ s.host, keepsRunning op = true) →
    ∃ k, k ≤ n + 1 ∧ ∃ t : State, Host.Core.run core k s = .next t ∧ t.seq = .idle ∧ t.done = true

/-- R203: acceptance of a command word by a 32-bit write to CMD while IDLE. -/
def Obligations.AcceptanceLatchesTheCommand : Prop :=
  ∀ (s : State) (w : Word) (i : Instr), s.seq = .idle → decode w = .command i →
    s.hostWrite 32 0x4#32 w = .next
      { s with seq := .busy w (s.latencies.headD 0), latencies := s.latencies.tail,
               done := false, err := false, ovr := false, lastOp := BitVec.ofNat 8 w.toNat,
               errCode := { cause := 0#8, sub := 0#8 }, errPos := 0#32, reply := some { data := 0#32, error := false } }

/-- R93 (with R203, R205): an accepted illegal word completes at once with ILLEGAL_COMMAND, SUB 1 for a reserved opcode, SUB
2 for reserved bits, ERRPOS 0, and changes nothing else of the block. -/
def Obligations.IllegalWordCompletesAtOnce : Prop :=
  ∀ (s : State) (w : Word), s.seq = .idle → (w.toNat % 256 = 0 ∨ 10 ≤ w.toNat % 256 ∨ 256 ≤ w.toNat) →
    s.hostWrite 32 0x4#32 w = .next
      { s with latencies := s.latencies.tail, done := true, err := true, ovr := false, lastOp := BitVec.ofNat 8 w.toNat,
               errCode := { cause := 5#8, sub := if w.toNat % 256 = 0 ∨ 10 ≤ w.toNat % 256 then 1#8 else 2#8 },
               errPos := 0#32, reply := some { data := 0#32, error := false } }

/-- R208: a CMD write while BUSY is dropped and sets OVR; only an acceptance or a reset clears OVR. -/
def Obligations.BusyCmdWriteIsDropped : Prop :=
  (∀ (s : State) (w : Word), s.seq.isBusy = true →
    s.hostWrite 32 0x4#32 w = .next { s with ovr := true, reply := some { data := 0#32, error := false } }) ∧
  (∀ s t : State, step s = .next t → s.ovr = true → t.ovr = false →
    (∃ v rest, s.seq = .idle ∧ s.host = .access (.write 32 0x4#32 v) :: rest) ∨
    (∃ during rest, s.host = .reset during :: rest))

/-- R245: while BUSY a write to a location other than CMD is a fault of the host program; a write to CMD is none, and while
IDLE no write is. -/
def Obligations.BusyWriteIsAFault : Prop :=
  ∀ (s : State) (bits : Nat) (a v : Word), ¬ busErrorCondition s.cfg bits a →
    (s.seq.isBusy = true → a ≠ 0x4#32 → s.hostWrite bits a v = .fault .hostWriteWhileBusy) ∧
    (a = 0x4#32 ∨ s.seq.isBusy = false → ∃ t, s.hostWrite bits a v = .next t)

/-- R26, R27, R28: every bit of the words STATUS and ERRCODE read as, and that a host read while IDLE returns them and
ERRPOS. -/
def Obligations.StatusAndErrcodeWords : Prop :=
  ∀ s : State,
    s.statusWord.getLsbD 0 = s.seq.isBusy ∧ s.statusWord.getLsbD 1 = s.done ∧
    s.statusWord.getLsbD 2 = s.err ∧ s.statusWord.getLsbD 3 = s.ovr ∧
    (∀ k, 4 ≤ k → k < 8 → s.statusWord.getLsbD k = false) ∧
    (∀ k, k < 8 → s.statusWord.getLsbD (8 + k) = s.lastOp.getLsbD k) ∧
    (∀ k, 16 ≤ k → s.statusWord.getLsbD k = false) ∧
    (∀ k, k < 8 → s.errCodeWord.getLsbD k = s.errCode.cause.getLsbD k) ∧
    (∀ k, k < 8 → s.errCodeWord.getLsbD (8 + k) = s.errCode.sub.getLsbD k) ∧
    (∀ k, 16 ≤ k → s.errCodeWord.getLsbD k = false) ∧
    (s.seq = .idle →
      (s.hostRead 32 0x08#32).reply = some { data := s.statusWord, error := false } ∧
      (s.hostRead 32 0x0C#32).reply = some { data := s.errCodeWord, error := false } ∧
      (s.hostRead 32 0x10#32).reply = some { data := s.errPos, error := false })

/-- R65: while IDLE an access gets the bus error exactly under the conditions of R60, R62 and R64; then a read returns 0, and
neither a read nor a write changes any state of the block. -/
def Obligations.BusErrorExactly : Prop :=
  ∀ (s : State) (bits : Nat) (a v : Word), s.seq = .idle →
    (busErrorCondition s.cfg bits a →
      s.hostRead bits a = { s with reply := some { data := 0#32, error := true } } ∧
      s.hostWrite bits a v = .next { s with reply := some { data := 0#32, error := true } }) ∧
    (¬ busErrorCondition s.cfg bits a →
      (∃ d, (s.hostRead bits a).reply = some { data := d, error := false }) ∧
      (∀ t, s.hostWrite bits a v = .next t → t.reply = some { data := 0#32, error := false }))

/-- The model's choice (log 8): while BUSY an access that meets a condition of R65 is answered as a bus error too, and an
access that meets none is never answered as one. -/
def Obligations.BusErrorsWhileBusy : Prop :=
  ∀ (s : State) (bits : Nat) (a v : Word), s.seq.isBusy = true →
    (busErrorCondition s.cfg bits a →
      s.hostRead bits a = { s with reply := some { data := 0#32, error := true } } ∧
      s.hostWrite bits a v = .next { s with reply := some { data := 0#32, error := true } }) ∧
    (¬ busErrorCondition s.cfg bits a →
      (∃ d, (s.hostRead bits a).reply = some { data := d, error := false }) ∧
      (∀ t, s.hostWrite bits a v = .next t → t.reply = some { data := 0#32, error := false }))

/-- R72: a host read while IDLE changes nothing but the answer, and a second one gives the same answer. -/
def Obligations.IdleReadsHaveNoSideEffect : Prop :=
  ∀ (s : State) (bits : Nat) (a : Word), s.seq = .idle →
    ∃ r, s.hostRead bits a = { s with reply := some r } ∧
      State.hostRead { s with reply := some r } bits a = { s with reply := some r }

/-- R63, R69, R79: a host write of 8, 16 or 32 bits to a buffer changes exactly the bytes it covers, little-endian, and a
read of the same width gives the value back. In every IDLE state a read of any width returns the little-endian value of the
bytes it covers, whoever wrote them. -/
def Obligations.BufferWriteThenRead : Prop :=
  ∀ (s : State) (b : BufId) (off bits : Nat) (v : Word), s.seq = .idle →
    (bits = 8 ∨ bits = 16 ∨ bits = 32) → off % (bits / 8) = 0 → off + bits / 8 ≤ bufSize s.cfg b →
    (s.hostRead bits (BitVec.ofNat 32 (bufBase b + off))).reply =
      some { data := BitVec.ofNat 32 ((List.range (bits / 8)).map fun k => (s.byteAt b (off + k)).toNat * 256 ^ k).sum,
             error := false } ∧
    ∃ t, s.hostWrite bits (BitVec.ofNat 32 (bufBase b + off)) v = .next t ∧
      t = { s with ibuf := t.ibuf, obuf := t.obuf, pbuf := t.pbuf, rbuf := t.rbuf, tbuf := t.tbuf,
                   reply := some { data := 0#32, error := false } } ∧
      (∀ k, k < bits / 8 → t.byteAt b (off + k) = v.extractLsb' (8 * k) 8) ∧
      (∀ b' k, b' ≠ b ∨ k < off ∨ off + bits / 8 ≤ k → t.byteAt b' k = s.byteAt b' k) ∧
      (t.hostRead bits (BitVec.ofNat 32 (bufBase b + off))).reply =
        some { data := BitVec.ofNat 32 (v.toNat % 2 ^ bits), error := false }

/-- R78: a write to a read-only register, a window or a reserved offset is ignored without a bus error, and a read of CMD
returns 0. -/
def Obligations.ReadOnlyWritesAreIgnored : Prop :=
  ∀ s : State, s.seq = .idle →
    (∀ (bits : Nat) (a v : Word), ¬ busErrorCondition s.cfg bits a → a.toNat < 0x8000 →
      a.toNat ∉ [0x4, 0x14, 0x18, 0x20, 0x24] →
      s.hostWrite bits a v = .next { s with reply := some { data := 0#32, error := false } }) ∧
    (s.hostRead 32 0x4#32).reply = some { data := 0#32, error := false }

/-- R29, R30, R32, R33: the four RW registers hold every bit the host writes, and read back. R31, R34 to R36, R38: what the
read-only registers and the reserved offsets read as. -/
def Obligations.LengthRegistersStoreAndReadBack : Prop :=
  ∀ (s : State) (v : Word), s.seq = .idle →
    s.hostWrite 32 0x14#32 v = .next { s with inLen := v, reply := some { data := 0#32, error := false } } ∧
    s.hostWrite 32 0x18#32 v = .next { s with payLen := v, reply := some { data := 0#32, error := false } } ∧
    s.hostWrite 32 0x20#32 v = .next { s with txtLen := v, reply := some { data := 0#32, error := false } } ∧
    s.hostWrite 32 0x24#32 v = .next { s with rtxtLen := v, reply := some { data := 0#32, error := false } } ∧
    (s.hostRead 32 0x14#32).reply = some { data := s.inLen, error := false } ∧
    (s.hostRead 32 0x18#32).reply = some { data := s.payLen, error := false } ∧
    (s.hostRead 32 0x20#32).reply = some { data := s.txtLen, error := false } ∧
    (s.hostRead 32 0x24#32).reply = some { data := s.rtxtLen, error := false } ∧
    (s.hostRead 32 0x1C#32).reply = some { data := s.outLen, error := false } ∧
    (s.hostRead 32 0x28#32).reply = some { data := BitVec.ofNat 32 s.nsym.toNat, error := false } ∧
    (s.hostRead 32 0x2C#32).reply = some { data := BitVec.ofNat 32 s.nnode.toNat, error := false } ∧
    (s.hostRead 32 0x30#32).reply = some { data := BitVec.ofNat 32 s.root.toNat, error := false } ∧
    (∀ k, 0x48 ≤ k → k < 0x1000 → k % 4 = 0 →
      (s.hostRead 32 (BitVec.ofNat 32 k)).reply = some { data := 0#32, error := false })

/-- R24, R37: ID and the CAP registers read their constants, BUSY or not, and no step changes them. -/
def Obligations.IdentityAndCapacitiesAreConstant : Prop :=
  (∀ s : State,
    (s.hostRead 32 0x00#32).reply = some { data := 0x48554631#32, error := false } ∧
    (s.hostRead 32 0x34#32).reply = some { data := BitVec.ofNat 32 s.cfg.ibufSize, error := false } ∧
    (s.hostRead 32 0x38#32).reply = some { data := BitVec.ofNat 32 s.cfg.obufSize, error := false } ∧
    (s.hostRead 32 0x3C#32).reply = some { data := BitVec.ofNat 32 s.cfg.pbufBits, error := false } ∧
    (s.hostRead 32 0x40#32).reply = some { data := BitVec.ofNat 32 s.cfg.rbufSize, error := false } ∧
    (s.hostRead 32 0x44#32).reply = some { data := 0x00010400#32, error := false }) ∧
  (∀ s t : State, step s = .next t → t.cfg = s.cfg)

/-- R66: the FREQ window reads FREQ, and ignores writes. -/
def Obligations.FreqWindowReadsFreq : Prop :=
  ∀ (s : State) (x : Byte) (v : Word), s.seq = .idle →
    s.hostRead 32 (BitVec.ofNat 32 (0x1000 + 4 * x.toNat)) =
      { s with reply := some { data := s.freq[x.toNat]'x.isLt, error := false } } ∧
    s.hostWrite 32 (BitVec.ofNat 32 (0x1000 + 4 * x.toNat)) v =
      .next { s with reply := some { data := 0#32, error := false } }

/-- R67: the four words of a NODE window entry, and that writes are ignored. -/
def Obligations.NodeWindowReadsNode : Prop :=
  ∀ (s : State) (i : BitVec 9) (v : Word), s.seq = .idle →
    (∃ w, (s.hostRead 32 (BitVec.ofNat 32 (0x2000 + 16 * i.toNat))).reply = some { data := w, error := false } ∧
      w.extractLsb' 0 2 = (nodeAt s.node i).kind ∧ w.extractLsb' 2 6 = 0#6 ∧
      w.extractLsb' 8 8 = (nodeAt s.node i).sym ∧ w.extractLsb' 16 16 = 0#16) ∧
    (s.hostRead 32 (BitVec.ofNat 32 (0x2004 + 16 * i.toNat))).reply =
      some { data := (nodeAt s.node i).freq, error := false } ∧
    (s.hostRead 32 (BitVec.ofNat 32 (0x2008 + 16 * i.toNat))).reply =
      some { data := (nodeAt s.node i).left.setWidth 32, error := false } ∧
    (s.hostRead 32 (BitVec.ofNat 32 (0x200C + 16 * i.toNat))).reply =
      some { data := (nodeAt s.node i).right.setWidth 32, error := false } ∧
    (∀ k < 4, s.hostWrite 32 (BitVec.ofNat 32 (0x2000 + 16 * i.toNat + 4 * k)) v =
      .next { s with reply := some { data := 0#32, error := false } })

/-- R68: the sixteen words of a CT window entry: VALID and LEN, the code bits with code bit 0 at bit 31, zeros elsewhere;
writes are ignored. -/
def Obligations.CtWindowReadsCode : Prop :=
  ∀ (s : State) (x : Byte) (v : Word) (u : Bits), s.seq = .idle →
    u = (match entryAt s.ct x with | some c => c.bits | none => []) →
    (∃ w, (s.hostRead 32 (BitVec.ofNat 32 (0x4000 + 64 * x.toNat))).reply = some { data := w, error := false } ∧
      w.getLsbD 31 = (entryAt s.ct x).isSome ∧ w.extractLsb' 8 23 = 0#23 ∧
      w.extractLsb' 0 8 = BitVec.ofNat 8 u.length) ∧
    (∀ k < 8, ∃ w, (s.hostRead 32 (BitVec.ofNat 32 (0x4004 + 64 * x.toNat + 4 * k))).reply =
        some { data := w, error := false } ∧
      ∀ m < 32, w.getLsbD (31 - m) = u.getD (32 * k + m) false) ∧
    (∀ j, 9 ≤ j → j < 16 → (s.hostRead 32 (BitVec.ofNat 32 (0x4000 + 64 * x.toNat + 4 * j))).reply =
      some { data := 0#32, error := false }) ∧
    (∀ j < 16, s.hostWrite 32 (BitVec.ofNat 32 (0x4000 + 64 * x.toNat + 4 * j)) v =
      .next { s with reply := some { data := 0#32, error := false } })

/-- R249: what a host read returns while BUSY. StatusInv is the invariant that ERRCODE and ERRPOS are 0 then. -/
def Obligations.ReadsWhileBusy : Prop :=
  ∀ s : State, s.seq.isBusy = true → StatusInv s →
    (s.hostRead 32 0x00#32).reply = some { data := 0x48554631#32, error := false } ∧
    (s.hostRead 32 0x08#32).reply = some { data := s.statusWord, error := false } ∧
    s.statusWord.getLsbD 0 = true ∧
    (s.hostRead 32 0x0C#32).reply = some { data := 0#32, error := false } ∧
    (s.hostRead 32 0x10#32).reply = some { data := 0#32, error := false } ∧
    (s.hostRead 32 0x34#32).reply = some { data := BitVec.ofNat 32 s.cfg.ibufSize, error := false } ∧
    (s.hostRead 32 0x38#32).reply = some { data := BitVec.ofNat 32 s.cfg.obufSize, error := false } ∧
    (s.hostRead 32 0x3C#32).reply = some { data := BitVec.ofNat 32 s.cfg.pbufBits, error := false } ∧
    (s.hostRead 32 0x40#32).reply = some { data := BitVec.ofNat 32 s.cfg.rbufSize, error := false } ∧
    (s.hostRead 32 0x44#32).reply = some { data := 0x00010400#32, error := false } ∧
    (∀ (bits : Nat) (a : Word), s.hostRead bits a =
      { s with reply := (s.hostRead bits a).reply, draws := (s.hostRead bits a).draws })

/-- R240, R241, R48: one atomic transition, whatever SEQ holds; every buffer takes a fresh draw (log 3), and a host access
issued during the reset has no other effect. The parameters and the host agent are outside it. -/
def Obligations.ResetSetsEverything : Prop :=
  ∀ (s : State) (during : Option Access), ∃ t, s.hostTurn (.reset during) = .next t ∧
    t = { s with
      seq := .idle, done := false, err := false, ovr := false, lastOp := 0#8,
      errCode := { cause := 0#8, sub := 0#8 }, errPos := 0#32,
      inLen := 0#32, payLen := 0#32, outLen := 0#32, txtLen := 0#32, rtxtLen := 0#32,
      nsym := 0#9, nnode := 0#10, root := 0#9,
      freq := t.freq, node := t.node, ct := t.ct,
      ibuf := { draw := s.draws, cells := [] }, obuf := { draw := s.draws, cells := [] },
      pbuf := { draw := s.draws, cells := [] }, rbuf := { draw := s.draws, cells := [] },
      tbuf := { draw := s.draws, cells := [] }, reply := t.reply, draws := t.draws } ∧
    s.draws < t.draws ∧
    (∀ x, t.freqAt x = 0) ∧ (∀ i, nodeAt t.node i = Node.none) ∧ (∀ x, entryAt t.ct x = none)

/-- R48: the state after reset meets the invariant. -/
def Obligations.ResetMeetsTheInvariant : Prop := Inv State.reset

/-- R26, R31, R34 to R36, R41, R43, R44, R61: every step keeps the invariant, from every state that meets it. -/
def Obligations.StepKeepsTheInvariant : Prop :=
  ∀ s t : State, Inv s → step s = .next t → Inv t

/-- R204, R205, R247: on every state that meets the invariant each command completes, without error or with one. -/
def Obligations.EveryCommandCompletes : Prop :=
  ∀ (s : State) (i : Instr), Inv s →
    ∃ t, exec i s = .next t ∧ t.seq = .idle ∧ t.done = true ∧
      (t = { t with err := s.err, errCode := s.errCode, errPos := s.errPos } ∨
       (t.err = true ∧ (t.errCode.cause, t.errCode.sub) ∈ legalErrCodes))

/-- R49: a command writes no state not in its row, and of its destination buffer only the bytes the row names. ENCODE's and
DECODE's rows are those of a success: their errors are in ErrorsArePrecise. The model's draw counter (log 3) moves where a
buffer becomes UNSPECIFIED. -/
def Obligations.CommandsWriteOnlyTheirRow : Prop :=
  ∀ (i : Instr) (s t : State), exec i s = .next t →
    match i with
    | .count => t = { s.withStatusOf t with freq := t.freq }
    | .build => t = { s.withStatusOf t with node := t.node, nnode := t.nnode, root := t.root } ∧
        nodeNo t.node 0 = Node.none
    | .codegen => t = { s.withStatusOf t with ct := t.ct, nsym := t.nsym }
    | .encode => t = { s.withStatusOf t with pbuf := t.pbuf, payLen := t.payLen, draws := t.draws } ∧
        (t.err = false → t.draws = s.draws ∧
          ∀ k, (t.payLen.toNat + 7) / 8 ≤ k → t.byteAt .pbuf k = s.byteAt .pbuf k)
    | .decode => t = { s.withStatusOf t with obuf := t.obuf, outLen := t.outLen, draws := t.draws } ∧
        (t.err = false → t.draws = s.draws ∧
          ∀ k, t.outLen.toNat ≤ k → t.byteAt .obuf k = s.byteAt .obuf k)
    | .tabser => t = { s.withStatusOf t with tbuf := t.tbuf, txtLen := t.txtLen } ∧
        (∀ k, t.txtLen.toNat ≤ k → t.byteAt .tbuf k = s.byteAt .tbuf k)
    | .tabparse => t = { s.withStatusOf t with ct := t.ct, nsym := t.nsym }
    | .bits2txt => t = { s.withStatusOf t with rbuf := t.rbuf, rtxtLen := t.rtxtLen } ∧
        (∀ k, t.rtxtLen.toNat ≤ k → t.byteAt .rbuf k = s.byteAt .rbuf k)
    | .txt2bits => t = { s.withStatusOf t with pbuf := t.pbuf, payLen := t.payLen } ∧
        (∀ k, (t.payLen.toNat + 7) / 8 ≤ k → t.byteAt .pbuf k = s.byteAt .pbuf k)

/-- R205, R206: an error completion is precise for every register and array, and leaves every buffer unchanged but PBUF
after ENCODE's and OBUF after DECODE's data errors. -/
def Obligations.ErrorsArePrecise : Prop :=
  ∀ (i : Instr) (s t : State), exec i s = .next t → s.err = false → t.err = true →
    t = { s.withStatusOf t with pbuf := t.pbuf, obuf := t.obuf, draws := t.draws } ∧
    t.seq = .idle ∧ t.done = true ∧ (t.errCode.cause, t.errCode.sub) ∈ legalErrCodes ∧
    (t.pbuf = s.pbuf ∨ (i = .encode ∧ (t.errCode.cause = 4#8 ∨ t.errCode.cause = 7#8))) ∧
    (t.obuf = s.obuf ∨ (i = .decode ∧ (t.errCode.cause = 3#8 ∨ t.errCode.cause = 7#8)))

/-- R201, R207: a length register beyond its source buffer is LENGTH_RANGE, tested first; nothing else changes. -/
def Obligations.LengthBeyondBufferIsReported : Prop :=
  ∀ s : State,
    (s.cfg.ibufSize < s.inLen.toNat →
      exec .count s = .next (s.failed 6#8 1#8 0) ∧ exec .encode s = .next (s.failed 6#8 1#8 0)) ∧
    (s.cfg.pbufBits < s.payLen.toNat →
      exec .decode s = .next (s.failed 6#8 2#8 0) ∧ exec .bits2txt s = .next (s.failed 6#8 2#8 0)) ∧
    (66560 < s.txtLen.toNat → exec .tabparse s = .next (s.failed 6#8 3#8 0)) ∧
    (s.cfg.rbufSize < s.rtxtLen.toNat → exec .txt2bits s = .next (s.failed 6#8 4#8 0))

/-- R110, R111: COUNT (word 0x1) completes when IN_LEN is within IBUF: FREQ[s] is the number of offsets that hold s, the sum
is IN_LEN, nothing else changes. Beyond IBUF it is LENGTH_RANGE, SUB 1, and FREQ is unchanged. -/
def Obligations.CountTabulatesTheInput : Prop :=
  decode 0x1#32 = .command .count ∧
  ∀ s : State,
    (s.inLen.toNat ≤ s.cfg.ibufSize →
      ∃ t, exec .count s = .next t ∧ t = { s with freq := t.freq, seq := .idle, done := true } ∧
        (∀ x, t.freqAt x = ((List.range s.inLen.toNat).filter fun i => decide (s.byteAt .ibuf i = x)).length) ∧
        freqTotal t = s.inLen.toNat) ∧
    (s.cfg.ibufSize < s.inLen.toNat → exec .count s = .next (s.failed 6#8 1#8 0))

/-- R122 (with R120): BUILD completes, and the tree it builds has the shape of R122 and R41. The premise is R44's bound. -/
def Obligations.BuildMakesATree : Prop :=
  ∀ s : State, freqTotal s < 4294967296 →
    ∃ t, exec .build s = .next t ∧
      t = { s with node := t.node, root := t.root, nnode := t.nnode, seq := .idle, done := true } ∧
      t.nnode.toNat = 2 * leafCount s - 1 ∧ t.root.toNat = 2 * leafCount s - 1 ∧ IsTree t.node (leafCount s) ∧
      (∀ k x, (symbols.filter fun y => decide (s.freqAt y ≠ 0))[k]? = some x →
        nodeNo t.node (k + 1) = .leaf x (s.freq[x.toNat]'x.isLt)) ∧
      (nodeNo t.node t.root.toNat).freq.toNat = freqTotal s ∧
      (∀ u x, follow t.node t.root u = some x → u.length ≤ leafCount s - 1)

/-- R121: each merge takes the two least keys (frequency, index) of the queue, first extracted left, second right; and the
result is a function of FREQ alone. -/
def Obligations.BuildMergesTheTwoLeast : Prop :=
  (∀ (s t : State) (k l r : Nat), freqTotal s < 4294967296 → exec .build s = .next t →
    leafCount s < k → k < 2 * leafCount s →
    l = (nodeNo t.node k).left.toNat → r = (nodeNo t.node k).right.toNat →
    inQueue t.node (leafCount s) k l ∧ inQueue t.node (leafCount s) k r ∧ l ≠ r ∧
    (∀ j, inQueue t.node (leafCount s) k j → j ≠ l → keyLess t.node l j) ∧
    (∀ j, inQueue t.node (leafCount s) k j → j ≠ l → j ≠ r → keyLess t.node r j)) ∧
  (∀ s s' t t' : State, s.freq = s'.freq → exec .build s = .next t → exec .build s' = .next t' →
    t.node = t'.node ∧ t.root = t'.root ∧ t.nnode = t'.nnode)

/-- R124, R125: CODEGEN (word 0x3) completes on every tree (R41); each leaf's code is its path, 0 left and 1 right; a single leaf gets
the code [0]; the empty tree gives the empty table. -/
def Obligations.CodegenAssignsPaths : Prop :=
  decode 0x3#32 = .command .codegen ∧
  ∀ s : State, TreeInv s →
    ∃ t, exec .codegen s = .next t ∧ t = { s with ct := t.ct, nsym := t.nsym, seq := .idle, done := true } ∧
      t.nsym.toNat = (validEntries t.ct).length ∧
      (s.root = 0#9 → validEntries t.ct = []) ∧
      (∀ x f, nodeAt s.node s.root = .leaf x f →
        ∀ y c, entryAt t.ct y = some c ↔ y = x ∧ c.bits = [false]) ∧
      ((nodeAt s.node s.root).kind = 2#2 →
        ∀ y c, entryAt t.ct y = some c ↔ follow s.node s.root c.bits = some y)

/-- R126: after CODEGEN no code is a prefix of another, and for two or more symbols the sum of 2^(-LEN) is 1. -/
def Obligations.CodegenCodesArePrefixFreeAndComplete : Prop :=
  ∀ s t : State, TreeInv s → exec .codegen s = .next t →
    PrefixFree t.ct ∧
    (2 ≤ (validEntries t.ct).length →
      ((validEntries t.ct).map fun e => 2 ^ (255 - e.2.len)).sum = 2 ^ 255)

/-- R123: for two or more symbols no prefix code for the frequency table has a smaller total bit count than the codes
CODEGEN derives from the tree BUILD builds; for one symbol the total is its count. -/
def Obligations.CodesAreOptimal : Prop :=
  ∀ s t u : State, freqTotal s < 4294967296 → exec .build s = .next t → exec .codegen t = .next u →
    (2 ≤ leafCount s → ∀ other : Byte → Bits,
      (∀ x y, s.freqAt x ≠ 0 → s.freqAt y ≠ 0 → x ≠ y → isPrefix (other x) (other y) = false) →
      weightedLength s u.ct ≤ (symbols.map fun x => s.freqAt x * (other x).length).sum) ∧
    (leafCount s = 1 → weightedLength s u.ct = freqTotal s)

/-- R141 (with R140): when every input byte has a code and the codes fit PBUF, ENCODE completes and the payload is their
concatenation; the pad bits of the last byte are 0, every other PBUF byte and everything else is unchanged. -/
def Obligations.EncodeConcatenatesTheCodes : Prop :=
  ∀ (s : State) (u : Bits), s.inLen.toNat ≤ s.cfg.ibufSize → codesOf s.ct s.inputBytes = some u →
    u.length ≤ s.cfg.pbufBits →
    ∃ t, exec .encode s = .next t ∧ t = { s with pbuf := t.pbuf, payLen := t.payLen, seq := .idle, done := true } ∧
      t.payLen.toNat = u.length ∧ t.payLen.toNat = (s.inputBytes.map (lenOf s.ct)).sum ∧
      (∀ k, k < u.length → t.pBit k = u.getD k false) ∧
      (∀ k, u.length ≤ k → k < 8 * ((u.length + 7) / 8) → t.pBit k = false) ∧
      (∀ k, (u.length + 7) / 8 ≤ k → t.byteAt .pbuf k = s.byteAt .pbuf k)

/-- R140, R206: the first input byte that has no code, or whose code does not fit, is reported at its offset; every PBUF byte
becomes UNSPECIFIED, in the model a fresh draw (log 3), and nothing else changes. -/
def Obligations.EncodeReportsTheFirstBadByte : Prop :=
  ∀ (s : State) (before after : List Byte) (x : Byte) (u : Bits), s.inLen.toNat ≤ s.cfg.ibufSize →
    s.inputBytes = before ++ x :: after → codesOf s.ct before = some u → u.length ≤ s.cfg.pbufBits →
    (entryAt s.ct x = none →
      exec .encode s = .next
        { s.failed 4#8 0#8 before.length with pbuf := { draw := s.draws, cells := [] }, draws := s.draws + 1 }) ∧
    (∀ c, entryAt s.ct x = some c → s.cfg.pbufBits < u.length + c.len →
      exec .encode s = .next
        { s.failed 7#8 1#8 before.length with pbuf := { draw := s.draws, cells := [] }, draws := s.draws + 1 })

/-- R127: with FREQ tabulated over the same input, the payload length is the sum of FREQ[s] * LEN, for any code table. -/
def Obligations.EncodedSizeIsTheWeightedSum : Prop :=
  ∀ s t : State, (∀ x, s.freqAt x = s.inputBytes.count x) → exec .encode s = .next t →
    s.err = false → t.err = false → t.payLen.toNat = weightedLength s s.ct

/-- R140 and R181 write bit by bit (R70); the model writes the packed bytes at once. Both leave the same PBUF bytes. -/
def Obligations.PackingMatchesBitWrites : Prop :=
  (∀ (s : State) (i : Nat) (b : Bool) (j : Nat), (s.pBitWrite i b).pBit j = if j = i then b else s.pBit j) ∧
  (∀ (s : State) (u : Bits) (k : Nat),
    (s.writeBits 0 (u ++ List.replicate (8 * ((u.length + 7) / 8) - u.length) false)).byteAt .pbuf k =
      (s.putPayload u).byteAt .pbuf k)

/-- R152: at the start of a code, the walk of the trie gives what table matching gives: a match emits (or overflows OBUF),
a proper prefix of a code is TRUNCATED, anything else NO_MATCH. -/
def Obligations.DecodeIsTableMatching : Prop :=
  ∀ (t : CodeTable) (capacity p out : Nat) (bits : Bits), PrefixFree t →
    (bits = [] → decodeFrom t capacity p p [] out bits = .ok []) ∧
    (∀ x c rest, entryAt t x = some c → bits = c.bits ++ rest →
      decodeFrom t capacity p p [] out bits =
        if out = capacity then .error { error := .capacityOverflow .obuf, pos := p }
        else (decodeFrom t capacity (p + c.len) (p + c.len) [] (out + 1) rest).map fun xs => x :: xs) ∧
    (bits ≠ [] → (∀ x c, entryAt t x = some c → ¬ c.bits <+: bits) →
      (∃ x c, entryAt t x = some c ∧ bits <+: c.bits) →
      decodeFrom t capacity p p [] out bits = .error { error := .decodeMismatch .truncated, pos := p }) ∧
    (bits ≠ [] → (∀ x c, entryAt t x = some c → ¬ c.bits <+: bits ∧ ¬ bits <+: c.bits) →
      decodeFrom t capacity p p [] out bits = .error { error := .decodeMismatch .noMatch, pos := p })

/-- R151: DECODE completes on a payload that is the concatenation of codes, emits their symbols, and changes nothing
else. -/
def Obligations.DecodeRecoversTheSymbols : Prop :=
  ∀ (s : State) (xs : List Byte) (u : Bits), PrefixFree s.ct → s.payLen.toNat ≤ s.cfg.pbufBits →
    codesOf s.ct xs = some u → s.payloadBits = u → xs.length ≤ s.cfg.obufSize →
    ∃ t, exec .decode s = .next t ∧ t = { s with obuf := t.obuf, outLen := t.outLen, seq := .idle, done := true } ∧
      t.outLen.toNat = xs.length ∧ t.bytesAt .obuf 0 xs.length = xs ∧
      (∀ k, xs.length ≤ k → t.byteAt .obuf k = s.byteAt .obuf k)

/-- R153: DECODE never reads NODE, ROOT, NNODE or FREQ: whatever they hold, the result is the same. -/
def Obligations.DecodeIgnoresTheTree : Prop :=
  ∀ (s t : State) (node : Arena) (root : BitVec 9) (nnode : BitVec 10) (freq : FreqTable), exec .decode s = .next t →
    exec .decode { s with node := node, root := root, nnode := nnode, freq := freq } =
      .next { t with node := node, root := root, nnode := nnode, freq := freq }

/-- R154: COUNT, BUILD, CODEGEN, ENCODE, DECODE in this order give the input back when the payload fits PBUF and the input
fits OBUF. -/
def Obligations.CompressDecompressRoundTrip : Prop :=
  ∀ s : State, s.err = false → s.inLen.toNat ≤ s.cfg.ibufSize → s.inLen.toNat ≤ s.cfg.obufSize →
    ∃ t1 t2 t3, exec .count s = .next t1 ∧ exec .build t1 = .next t2 ∧ exec .codegen t2 = .next t3 ∧
      (weightedLength t3 t3.ct ≤ s.cfg.pbufBits →
        ∃ t4 t5, exec .encode t3 = .next t4 ∧ exec .decode t4 = .next t5 ∧ t4.err = false ∧ t5.err = false ∧
          t5.outLen = s.inLen ∧ ∀ k, k < s.inLen.toNat → t5.byteAt .obuf k = s.byteAt .ibuf k)

/-- R160, R161, R162: TABSER (word 0x6) completes; TBUF holds one line per valid entry, in ascending lexicographic order, each ended by
a newline; the rest of TBUF and everything else is unchanged. -/
def Obligations.TabserWritesSortedLines : Prop :=
  decode 0x6#32 = .command .tabser ∧
  ∀ s : State, ∃ (t : State) (lines : List (List Byte)), exec .tabser s = .next t ∧
    t = { s with tbuf := t.tbuf, txtLen := t.txtLen, seq := .idle, done := true } ∧
    lines.Perm ((validEntries s.ct).map fun e => specLine e.1 e.2.bits) ∧
    lines.Pairwise (fun a b => a.map BitVec.toNat ≤ b.map BitVec.toNat) ∧
    t.txtLen.toNat = (lines.flatMap fun l => l ++ [0x0A#8]).length ∧ t.txtLen.toNat ≤ 66560 ∧
    t.tableText = (lines.flatMap fun l => l ++ [0x0A#8]) ∧
    (∀ k, t.txtLen.toNat ≤ k → t.byteAt .tbuf k = s.byteAt .tbuf k)

/-- R163: the text is cut at every newline byte and nowhere else, the last segment with or without a newline after it, and
each segment keeps its offset; the lines TABPARSE reads are the segments that are not empty. -/
def Obligations.TextIsCutAtNewlines : Prop :=
  ∀ (a : Nat) (ls : List (List Byte)) (l : List Byte), (∀ m ∈ ls, 0x0A#8 ∉ m) → 0x0A#8 ∉ l →
    segments a (ls.flatMap (fun m => m ++ [0x0A#8]) ++ l) =
      ((ls ++ [l]).zipIdx.map fun p =>
        { start := a + ((ls.take p.2).map fun m => m.length + 1).sum, text := p.1 }) ∧
    tableLines (ls.flatMap (fun m => m ++ [0x0A#8]) ++ l) =
      ((ls ++ [l]).zipIdx.filter fun p => decide (p.1 ≠ [])).map fun p =>
        { start := ((ls.take p.2).map fun m => m.length + 1).sum, text := p.1 }

/-- R163 to R167: the eight checks of a table line, in their order, and the entry of a line that passes them. -/
def Obligations.TableLineChecksInOrder : Prop :=
  (∀ (t : CodeTable) (line : List Byte), 0x20#8 ∉ line → parseLine t line = .error .split) ∧
  (∀ (t : CodeTable) (B O : List Byte) (v : Nat), 0x20#8 ∉ B →
    v = Nat.ofDigits 10 (O.reverse.map fun d => d.toNat - 48) →
    (O = [] ∨ (∃ d ∈ O, nonDigit d) → parseLine t (B ++ 0x20#8 :: O) = .error .ordinalSyntax) ∧
    (O ≠ [] → (∀ d ∈ O, ¬ nonDigit d) →
      (255 < v → parseLine t (B ++ 0x20#8 :: O) = .error .ordinalRange) ∧
      (v ≤ 255 → (∃ c ∈ B, nonBinary c) → parseLine t (B ++ 0x20#8 :: O) = .error .bitChar) ∧
      (v ≤ 255 → B = [] → parseLine t (B ++ 0x20#8 :: O) = .error .emptyCode) ∧
      (v ≤ 255 → (∀ c ∈ B, ¬ nonBinary c) → 255 < B.length →
        parseLine t (B ++ 0x20#8 :: O) = .error .codeTooLong) ∧
      (∀ c : Code, v ≤ 255 → B = (c.bits.map fun b => if b then 0x31#8 else 0x30#8) →
        (entryAt t (BitVec.ofNat 8 v) ≠ none → parseLine t (B ++ 0x20#8 :: O) = .error .duplicateSymbol) ∧
        (entryAt t (BitVec.ofNat 8 v) = none →
          ((∃ x d, entryAt t x = some d ∧ (c.bits <+: d.bits ∨ d.bits <+: c.bits)) →
            parseLine t (B ++ 0x20#8 :: O) = .error .prefixConflict) ∧
          ((∀ x d, entryAt t x = some d → ¬ c.bits <+: d.bits ∧ ¬ d.bits <+: c.bits) →
            parseLine t (B ++ 0x20#8 :: O) = .ok (setEntry t (BitVec.ofNat 8 v) c))))))

/-- R167, R202: TABPARSE reports the first failing line at its first byte, with the number of the check it fails as SUB, and
changes nothing else. -/
def Obligations.TabparseReportsTheFirstBadLine : Prop :=
  ∀ (s : State) (good rest : List Segment) (bad : Segment) (table : CodeTable) (why : LineFault) (sub : BitVec 8),
    (why, sub) ∈ [(.split, 1#8), (.ordinalSyntax, 2#8), (.ordinalRange, 3#8), (.bitChar, 4#8), (.emptyCode, 5#8),
      (.codeTooLong, 6#8), (.duplicateSymbol, 7#8), (.prefixConflict, 8#8)] →
    s.txtLen.toNat ≤ 66560 → tableLines s.tableText = good ++ bad :: rest →
    parseLines emptyTable good = .ok table → parseLine table bad.text = .error why →
    exec .tabparse s = .next (s.failed 1#8 sub bad.start)

/-- R163, R164, R167: TABPARSE completes on the lines of any prefix-free list of distinct entries, in any order, with empty
lines anywhere, leading zeros in the ordinals (the number of zeros is an entry's first part) and with or without a final
newline; CT is exactly those entries. -/
def Obligations.TabparseLoadsTheEntries : Prop :=
  ∀ (s : State) (es : List (Nat × Byte × Code)) (ls : List (List Byte)) (l : List Byte), s.txtLen.toNat ≤ 66560 →
    es.Pairwise (fun a b => a.2.1 ≠ b.2.1 ∧ ¬ a.2.2.bits <+: b.2.2.bits ∧ ¬ b.2.2.bits <+: a.2.2.bits) →
    ((ls ++ [l]).filter fun m => decide (m ≠ [])) = (es.map fun e => specLineZeros e.1 e.2.1 e.2.2.bits) →
    s.tableText = (ls.flatMap fun m => m ++ [0x0A#8]) ++ l →
    ∃ t, exec .tabparse s = .next t ∧ t = { s with ct := t.ct, nsym := t.nsym, seq := .idle, done := true } ∧
      t.nsym.toNat = es.length ∧ (∀ x c, entryAt t.ct x = some c ↔ ∃ zeros, (zeros, x, c) ∈ es)

/-- R168: TABSER then TABPARSE succeeds and leaves CT and NSYM as they were. -/
def Obligations.TableSerializationRoundTrip : Prop :=
  ∀ s t u : State, TableInv s → exec .tabser s = .next t → exec .tabparse t = .next u →
    u = { t with seq := .idle, done := true } ∧ u.ct = s.ct ∧ u.nsym = s.nsym

/-- R180: BITS2TXT (word 0x8) completes when the payload fits RBUF: one character per bit, nothing else changes. Its errors
are LENGTH_RANGE, then CAPACITY_OVERFLOW, and leave RBUF and RTXT_LEN unchanged. -/
def Obligations.Bits2txtRendersTheBits : Prop :=
  decode 0x8#32 = .command .bits2txt ∧
  ∀ s : State,
    (s.cfg.pbufBits < s.payLen.toNat → exec .bits2txt s = .next (s.failed 6#8 2#8 0)) ∧
    (s.payLen.toNat ≤ s.cfg.pbufBits → s.cfg.rbufSize < s.payLen.toNat →
      exec .bits2txt s = .next (s.failed 7#8 3#8 0)) ∧
    (s.payLen.toNat ≤ s.cfg.pbufBits → s.payLen.toNat ≤ s.cfg.rbufSize →
      ∃ t, exec .bits2txt s = .next t ∧ t = { s with rbuf := t.rbuf, rtxtLen := s.payLen, seq := .idle, done := true } ∧
        (∀ k, k < s.payLen.toNat → t.byteAt .rbuf k = if s.pBit k then 0x31#8 else 0x30#8) ∧
        (∀ k, s.payLen.toNat ≤ k → t.byteAt .rbuf k = s.byteAt .rbuf k))

/-- R181: TXT2BITS (word 0x9) completes on a text of '0' and '1' that fits PBUF: the payload is the text's bits, the pad bits
are 0, nothing else changes. Its errors are LENGTH_RANGE, then CAPACITY_OVERFLOW, then the first other byte at its offset,
and leave PBUF and PAY_LEN unchanged. -/
def Obligations.Txt2bitsParsesTheText : Prop :=
  decode 0x9#32 = .command .txt2bits ∧
  ∀ s : State,
    (s.cfg.rbufSize < s.rtxtLen.toNat → exec .txt2bits s = .next (s.failed 6#8 4#8 0)) ∧
    (s.rtxtLen.toNat ≤ s.cfg.rbufSize → s.cfg.pbufBits < s.rtxtLen.toNat →
      exec .txt2bits s = .next (s.failed 7#8 1#8 0)) ∧
    (s.rtxtLen.toNat ≤ s.cfg.rbufSize → s.rtxtLen.toNat ≤ s.cfg.pbufBits →
      ((∀ k, k < s.rtxtLen.toNat → ¬ nonBinary (s.byteAt .rbuf k)) →
        ∃ t, exec .txt2bits s = .next t ∧
          t = { s with pbuf := t.pbuf, payLen := s.rtxtLen, seq := .idle, done := true } ∧
          (∀ k, k < s.rtxtLen.toNat → t.pBit k = decide (s.byteAt .rbuf k = 0x31#8)) ∧
          (∀ k, s.rtxtLen.toNat ≤ k → k < 8 * ((s.rtxtLen.toNat + 7) / 8) → t.pBit k = false) ∧
          (∀ k, (s.rtxtLen.toNat + 7) / 8 ≤ k → t.byteAt .pbuf k = s.byteAt .pbuf k)) ∧
      (∀ i, i < s.rtxtLen.toNat → nonBinary (s.byteAt .rbuf i) → (∀ k, k < i → ¬ nonBinary (s.byteAt .rbuf k)) →
        exec .txt2bits s = .next (s.failed 2#8 0#8 i)))

/-- R182: BITS2TXT and TXT2BITS undo each other. -/
def Obligations.BitTextRoundTrip : Prop :=
  (∀ s t u : State, s.payLen.toNat ≤ s.cfg.pbufBits → s.payLen.toNat ≤ s.cfg.rbufSize →
    exec .bits2txt s = .next t → exec .txt2bits t = .next u →
    u.payLen = s.payLen ∧ (∀ k, k < s.payLen.toNat → u.pBit k = s.pBit k) ∧
    (∀ k, s.payLen.toNat ≤ k → k < 8 * ((s.payLen.toNat + 7) / 8) → u.pBit k = false)) ∧
  (∀ s t u : State, s.rtxtLen.toNat ≤ s.cfg.rbufSize → s.rtxtLen.toNat ≤ s.cfg.pbufBits →
    (∀ k, k < s.rtxtLen.toNat → ¬ nonBinary (s.byteAt .rbuf k)) →
    exec .txt2bits s = .next t → exec .bits2txt t = .next u →
    u.rtxtLen = s.rtxtLen ∧ (∀ k, k < s.rtxtLen.toNat → u.byteAt .rbuf k = s.byteAt .rbuf k))

/-- R211: the degenerate empty cases raise nothing. -/
def Obligations.EmptyInputRaisesNothing : Prop :=
  ∀ s : State,
    (s.inLen = 0#32 →
      exec .count s = .next { s with freq := Vector.replicate 256 0#32, seq := .idle, done := true } ∧
      exec .encode s = .next { s with payLen := 0#32, seq := .idle, done := true }) ∧
    ((∀ x, s.freqAt x = 0) →
      exec .build s = .next { s with node := Vector.replicate 512 Node.none, root := 0#9, nnode := 0#10,
                                     seq := .idle, done := true }) ∧
    (s.root = 0#9 → exec .codegen s = .next { s with ct := emptyTable, nsym := 0#9, seq := .idle, done := true }) ∧
    (validEntries s.ct = [] → exec .tabser s = .next { s with txtLen := 0#32, seq := .idle, done := true }) ∧
    (s.txtLen.toNat ≤ 66560 → (∀ b ∈ s.tableText, b = 0x0A#8) →
      exec .tabparse s = .next { s with ct := emptyTable, nsym := 0#9, seq := .idle, done := true }) ∧
    (s.payLen = 0#32 → exec .decode s = .next { s with outLen := 0#32, seq := .idle, done := true })

/-- R39, R40, R42, R45: FREQ is written only by the completion of COUNT and by reset, NODE only by BUILD's and reset, CT only
by CODEGEN's and TABPARSE's and reset, IBUF only by the host and reset. A completion taken with a reset at the head of the
host's list is no reset. -/
def Obligations.ArraysAreWrittenOnlyByTheirCommands : Prop :=
  ∀ s t : State, step s = .next t →
    ((∃ during rest, s.host = .reset during :: rest) ∧ ∀ w, s.seq ≠ .busy w 0) ∨
    ((t.freq = s.freq ∨ ∃ w n, s.seq = .busy w n ∧ (n = 0 ∨ s.host = []) ∧ t.seq = .idle ∧ w = encode .count) ∧
     (t.node = s.node ∨ ∃ w n, s.seq = .busy w n ∧ (n = 0 ∨ s.host = []) ∧ t.seq = .idle ∧ w = encode .build) ∧
     (t.ct = s.ct ∨ ∃ w n, s.seq = .busy w n ∧ (n = 0 ∨ s.host = []) ∧ t.seq = .idle ∧
       (w = encode .codegen ∨ w = encode .tabparse)) ∧
     (t.ibuf = s.ibuf ∨ ∃ bits a v rest, s.seq = .idle ∧ s.host = .access (.write bits a v) :: rest))

/-- R97, R98, R251: one turn of the poll loop: BUSY keeps polling, then ERR ends the program where the poll asks for it. -/
def Obligations.PollLoopTurns : Prop :=
  ∀ (s : State) (stop : Bool),
    (s.seq.isBusy = true → s.hostTurn (.poll stop) =
      .next { s with reply := some { data := s.statusWord, error := false }, host := .poll stop :: s.host }) ∧
    (s.seq.isBusy = false → (stop = false ∨ s.err = false) → s.hostTurn (.poll stop) =
      .next { s with reply := some { data := s.statusWord, error := false } }) ∧
    (s.seq.isBusy = false → stop = true → s.err = true → s.hostTurn (.poll stop) =
      .next { s with reply := some { data := s.statusWord, error := false }, host := [] })

/-- R96 to R99: what every statement has the host do. The accesses of `wrbuf` are the model's own as far as OFF passes the
buffer's end (log 15). -/
def Obligations.PseudoInstructionsExpand : Prop :=
  (∀ i, expandStmt (.issue i) = [.access (.write 32 0x4#32 (encode i))]) ∧
  (∀ imm, expandStmt (.word imm) = [.access (.write 32 0x4#32 (BitVec.ofNat 32 imm))]) ∧
  (∀ (r : CsrName) (off : Word) (imm : Nat),
    (r, off) ∈ [(.ID, 0x00#32), (.CMD, 0x04#32), (.STATUS, 0x08#32), (.ERRCODE, 0x0C#32), (.ERRPOS, 0x10#32),
      (.IN_LEN, 0x14#32), (.PAY_LEN, 0x18#32), (.OUT_LEN, 0x1C#32), (.TXT_LEN, 0x20#32), (.RTXT_LEN, 0x24#32),
      (.NSYM, 0x28#32), (.NNODE, 0x2C#32), (.ROOT, 0x30#32), (.CAP_IBUF, 0x34#32), (.CAP_OBUF, 0x38#32),
      (.CAP_PBUF, 0x3C#32), (.CAP_RBUF, 0x40#32), (.CAP_TBUF, 0x44#32)] →
    expandStmt (.wr r imm) = [.access (.write 32 off (BitVec.ofNat 32 imm))] ∧
    expandStmt (.rd r) = [.access (.read 32 off)]) ∧
  (∀ (b : BufId) (base off : Nat) (bytes : List Nat),
    (b, base) ∈ [(.tbuf, 0x00010000), (.ibuf, 0x01000000), (.obuf, 0x02000000), (.pbuf, 0x04000000), (.rbuf, 0x08000000)] →
    expandStmt (.wrbuf b off bytes) = bytes.zipIdx.map fun p =>
      .access (.write 8 (BitVec.ofNat 32 (base + off + p.2)) (BitVec.ofNat 32 p.1))) ∧
  (∀ i, expandStmt (.cmd i) = [.access (.write 32 0x4#32 (encode i)), .poll false]) ∧
  expandStmt .compress =
    [.access (.write 32 0x4#32 0x1#32), .poll true, .access (.write 32 0x4#32 0x2#32), .poll true,
     .access (.write 32 0x4#32 0x3#32), .poll true, .access (.write 32 0x4#32 0x4#32), .poll true,
     .access (.write 32 0x4#32 0x6#32), .poll true, .access (.write 32 0x4#32 0x8#32), .poll true] ∧
  expandStmt .decompress =
    [.access (.write 32 0x4#32 0x7#32), .poll true, .access (.write 32 0x4#32 0x9#32), .poll true,
     .access (.write 32 0x4#32 0x5#32), .poll true]

/-- R46: the flags BUSY, DONE, ERR and OVR change only by an acceptance, a completion, a dropped CMD write and a reset. -/
def Obligations.FlagsChangeOnlyByTransitions : Prop :=
  ∀ s t : State, step s = .next t →
    (t.seq.isBusy = s.seq.isBusy ∧ t.done = s.done ∧ t.err = s.err ∧ t.ovr = s.ovr) ∨
    (∃ v rest, s.seq = .idle ∧ s.host = .access (.write 32 0x4#32 v) :: rest ∧ t.ovr = false ∧
      ((t.seq.isBusy = true ∧ t.done = false ∧ t.err = false) ∨ (t.seq = .idle ∧ t.done = true ∧ t.err = true))) ∨
    (∃ w n, s.seq = .busy w n ∧ t.seq = .idle ∧ t.done = true ∧ t.ovr = s.ovr) ∨
    (∃ v rest, s.seq.isBusy = true ∧ s.host = .access (.write 32 0x4#32 v) :: rest ∧ t.seq.isBusy = true ∧
      t.done = s.done ∧ t.err = s.err ∧ t.ovr = true) ∨
    (∃ during rest, s.host = .reset during :: rest ∧ t.seq = .idle ∧ t.done = false ∧ t.err = false ∧ t.ovr = false)

/-- R245, R247: from a state that meets the invariant the machine stops for one reason only, a host write to a location other
than CMD while a command runs. That such a write meets no condition of the bus error is the model's choice (log 8). -/
def Obligations.OnlyTheBusyWriteStopsTheMachine : Prop :=
  (∀ (s : State) (r : Refusal), step s ≠ .refused r) ∧
  (∀ (s : State) (f : Fault), Inv s → step s = .fault f →
    f = .hostWriteWhileBusy ∧ s.seq.isBusy = true ∧
      ∃ bits a v rest, s.host = .access (.write bits a v) :: rest ∧ a ≠ 0x4#32 ∧ ¬ busErrorCondition s.cfg bits a)

/-- R151, R201, R206: DECODE on a payload that is the codes of some symbols and then a rest that fails reports the failure at the
offset where the rest begins: NO_MATCH, TRUNCATED, or CAPACITY_OVERFLOW when OBUF is full. Every OBUF byte becomes
UNSPECIFIED, in the model a fresh draw (log 3), and nothing else changes. -/
def Obligations.DecodeReportsTheFirstBadCode : Prop :=
  ∀ (s : State) (xs : List Byte) (u rest : Bits), PrefixFree s.ct → s.payLen.toNat ≤ s.cfg.pbufBits →
    codesOf s.ct xs = some u → s.payloadBits = u ++ rest → xs.length ≤ s.cfg.obufSize →
    (rest ≠ [] → (∀ x c, entryAt s.ct x = some c → ¬ c.bits <+: rest ∧ ¬ rest <+: c.bits) →
      exec .decode s = .next
        { s.failed 3#8 1#8 u.length with obuf := { draw := s.draws, cells := [] }, draws := s.draws + 1 }) ∧
    (rest ≠ [] → (∀ x c, entryAt s.ct x = some c → ¬ c.bits <+: rest) →
      (∃ x c, entryAt s.ct x = some c ∧ rest <+: c.bits) →
      exec .decode s = .next
        { s.failed 3#8 2#8 u.length with obuf := { draw := s.draws, cells := [] }, draws := s.draws + 1 }) ∧
    (xs.length = s.cfg.obufSize → (∃ x c, entryAt s.ct x = some c ∧ c.bits <+: rest) →
      exec .decode s = .next
        { s.failed 7#8 2#8 u.length with obuf := { draw := s.draws, cells := [] }, draws := s.draws + 1 })

/-- R251: when a program has ended, whatever its last statement (as log 14 reads R251 for `wr` and `rd`), and what
the end says: nothing of a buffer beyond the lengths the last commands wrote, which no host access changes (log 19), nothing
of an UNSPECIFIED byte's value and nothing of time. That PBUF is cut at bit l.pay, without the pad bits of its byte, is the
model's choice (log 19). -/
def Obligations.EndOfAProgram : Prop :=
  (∀ s : State, s.programEnded [] = true ↔ s.host = []) ∧
  (∀ (s : State) (before : List Stmt) (last : Stmt), s.programEnded (before ++ [last]) = true ↔
    s.host = [] ∧ (((∃ i, last = .issue i) ∨ ∃ imm, last = .word imm) → s.seq = .idle)) ∧
  (∀ (l : CmdLengths) (s t : State) (x : Access) (rest : List HostOp), step s = .next t →
    s.host = .access x :: rest → (∀ w, s.seq ≠ .busy w 0) → l.note s t = l) ∧
  (∀ (l : CmdLengths) (s t : State),
    t = { s with seq := t.seq, ibuf := t.ibuf, obuf := t.obuf, pbuf := t.pbuf, rbuf := t.rbuf, tbuf := t.tbuf,
                 latencies := t.latencies, host := t.host, reply := t.reply, draws := t.draws } →
    t.seq.isBusy = s.seq.isBusy →
    (∀ k < l.out, t.obuf.lookup k = s.obuf.lookup k) →
    (∀ k < l.pay, (t.pbuf.lookup (k / 8)).map (fun b => b.getLsbD (7 - k % 8)) =
      (s.pbuf.lookup (k / 8)).map (fun b => b.getLsbD (7 - k % 8))) →
    (∀ k < l.txt, t.tbuf.lookup k = s.tbuf.lookup k) →
    (∀ k < l.rtxt, t.rbuf.lookup k = s.rbuf.lookup k) →
    t.endView l = s.endView l)
end

