-- ==== Sys2Proof/Laws/State.lean ====
section
/-! SUPPORT. One lemma per field per named update of State, true by rfl and tagged simp, so that no later proof unfolds a
record update. -/

namespace Sys2Proof.Machine

open Sys2Proof

/-! R204. -/

@[simp] theorem completeOk_cfg (s : State) : (s.completeOk).cfg = s.cfg := rfl
@[simp] theorem completeOk_seq (s : State) : (s.completeOk).seq = .idle := rfl
@[simp] theorem completeOk_done (s : State) : (s.completeOk).done = true := rfl
@[simp] theorem completeOk_err (s : State) : (s.completeOk).err = s.err := rfl
@[simp] theorem completeOk_ovr (s : State) : (s.completeOk).ovr = s.ovr := rfl
@[simp] theorem completeOk_lastOp (s : State) : (s.completeOk).lastOp = s.lastOp := rfl
@[simp] theorem completeOk_errCode (s : State) : (s.completeOk).errCode = s.errCode := rfl
@[simp] theorem completeOk_errPos (s : State) : (s.completeOk).errPos = s.errPos := rfl
@[simp] theorem completeOk_inLen (s : State) : (s.completeOk).inLen = s.inLen := rfl
@[simp] theorem completeOk_payLen (s : State) : (s.completeOk).payLen = s.payLen := rfl
@[simp] theorem completeOk_outLen (s : State) : (s.completeOk).outLen = s.outLen := rfl
@[simp] theorem completeOk_txtLen (s : State) : (s.completeOk).txtLen = s.txtLen := rfl
@[simp] theorem completeOk_rtxtLen (s : State) : (s.completeOk).rtxtLen = s.rtxtLen := rfl
@[simp] theorem completeOk_nsym (s : State) : (s.completeOk).nsym = s.nsym := rfl
@[simp] theorem completeOk_nnode (s : State) : (s.completeOk).nnode = s.nnode := rfl
@[simp] theorem completeOk_root (s : State) : (s.completeOk).root = s.root := rfl
@[simp] theorem completeOk_freq (s : State) : (s.completeOk).freq = s.freq := rfl
@[simp] theorem completeOk_node (s : State) : (s.completeOk).node = s.node := rfl
@[simp] theorem completeOk_ct (s : State) : (s.completeOk).ct = s.ct := rfl
@[simp] theorem completeOk_ibuf (s : State) : (s.completeOk).ibuf = s.ibuf := rfl
@[simp] theorem completeOk_obuf (s : State) : (s.completeOk).obuf = s.obuf := rfl
@[simp] theorem completeOk_pbuf (s : State) : (s.completeOk).pbuf = s.pbuf := rfl
@[simp] theorem completeOk_rbuf (s : State) : (s.completeOk).rbuf = s.rbuf := rfl
@[simp] theorem completeOk_tbuf (s : State) : (s.completeOk).tbuf = s.tbuf := rfl
@[simp] theorem completeOk_latencies (s : State) : (s.completeOk).latencies = s.latencies := rfl
@[simp] theorem completeOk_host (s : State) : (s.completeOk).host = s.host := rfl
@[simp] theorem completeOk_reply (s : State) : (s.completeOk).reply = s.reply := rfl
@[simp] theorem completeOk_draws (s : State) : (s.completeOk).draws = s.draws := rfl

/-! R205. -/

@[simp] theorem recordError_cfg (s : State) (e : CmdError) (pos : Nat) : (s.recordError e pos).cfg = s.cfg := rfl
@[simp] theorem recordError_seq (s : State) (e : CmdError) (pos : Nat) : (s.recordError e pos).seq = .idle := rfl
@[simp] theorem recordError_done (s : State) (e : CmdError) (pos : Nat) : (s.recordError e pos).done = true := rfl
@[simp] theorem recordError_err (s : State) (e : CmdError) (pos : Nat) : (s.recordError e pos).err = true := rfl
@[simp] theorem recordError_ovr (s : State) (e : CmdError) (pos : Nat) : (s.recordError e pos).ovr = s.ovr := rfl
@[simp] theorem recordError_lastOp (s : State) (e : CmdError) (pos : Nat) : (s.recordError e pos).lastOp = s.lastOp := rfl
@[simp] theorem recordError_errCode (s : State) (e : CmdError) (pos : Nat) : (s.recordError e pos).errCode = errCodeOf e := rfl
@[simp] theorem recordError_errPos (s : State) (e : CmdError) (pos : Nat) : (s.recordError e pos).errPos = BitVec.ofNat 32 pos := rfl
@[simp] theorem recordError_inLen (s : State) (e : CmdError) (pos : Nat) : (s.recordError e pos).inLen = s.inLen := rfl
@[simp] theorem recordError_payLen (s : State) (e : CmdError) (pos : Nat) : (s.recordError e pos).payLen = s.payLen := rfl
@[simp] theorem recordError_outLen (s : State) (e : CmdError) (pos : Nat) : (s.recordError e pos).outLen = s.outLen := rfl
@[simp] theorem recordError_txtLen (s : State) (e : CmdError) (pos : Nat) : (s.recordError e pos).txtLen = s.txtLen := rfl
@[simp] theorem recordError_rtxtLen (s : State) (e : CmdError) (pos : Nat) : (s.recordError e pos).rtxtLen = s.rtxtLen := rfl
@[simp] theorem recordError_nsym (s : State) (e : CmdError) (pos : Nat) : (s.recordError e pos).nsym = s.nsym := rfl
@[simp] theorem recordError_nnode (s : State) (e : CmdError) (pos : Nat) : (s.recordError e pos).nnode = s.nnode := rfl
@[simp] theorem recordError_root (s : State) (e : CmdError) (pos : Nat) : (s.recordError e pos).root = s.root := rfl
@[simp] theorem recordError_freq (s : State) (e : CmdError) (pos : Nat) : (s.recordError e pos).freq = s.freq := rfl
@[simp] theorem recordError_node (s : State) (e : CmdError) (pos : Nat) : (s.recordError e pos).node = s.node := rfl
@[simp] theorem recordError_ct (s : State) (e : CmdError) (pos : Nat) : (s.recordError e pos).ct = s.ct := rfl
@[simp] theorem recordError_ibuf (s : State) (e : CmdError) (pos : Nat) : (s.recordError e pos).ibuf = s.ibuf := rfl
@[simp] theorem recordError_obuf (s : State) (e : CmdError) (pos : Nat) : (s.recordError e pos).obuf = s.obuf := rfl
@[simp] theorem recordError_pbuf (s : State) (e : CmdError) (pos : Nat) : (s.recordError e pos).pbuf = s.pbuf := rfl
@[simp] theorem recordError_rbuf (s : State) (e : CmdError) (pos : Nat) : (s.recordError e pos).rbuf = s.rbuf := rfl
@[simp] theorem recordError_tbuf (s : State) (e : CmdError) (pos : Nat) : (s.recordError e pos).tbuf = s.tbuf := rfl
@[simp] theorem recordError_latencies (s : State) (e : CmdError) (pos : Nat) : (s.recordError e pos).latencies = s.latencies := rfl
@[simp] theorem recordError_host (s : State) (e : CmdError) (pos : Nat) : (s.recordError e pos).host = s.host := rfl
@[simp] theorem recordError_reply (s : State) (e : CmdError) (pos : Nat) : (s.recordError e pos).reply = s.reply := rfl
@[simp] theorem recordError_draws (s : State) (e : CmdError) (pos : Nat) : (s.recordError e pos).draws = s.draws := rfl

/-! R203. -/

@[simp] theorem latch_cfg (s : State) (w : Word) (wait : Nat) : (s.latch w wait).cfg = s.cfg := rfl
@[simp] theorem latch_seq (s : State) (w : Word) (wait : Nat) : (s.latch w wait).seq = .busy w wait := rfl
@[simp] theorem latch_done (s : State) (w : Word) (wait : Nat) : (s.latch w wait).done = false := rfl
@[simp] theorem latch_err (s : State) (w : Word) (wait : Nat) : (s.latch w wait).err = false := rfl
@[simp] theorem latch_ovr (s : State) (w : Word) (wait : Nat) : (s.latch w wait).ovr = false := rfl
@[simp] theorem latch_lastOp (s : State) (w : Word) (wait : Nat) : (s.latch w wait).lastOp = w.extractLsb' 0 8 := rfl
@[simp] theorem latch_errCode (s : State) (w : Word) (wait : Nat) : (s.latch w wait).errCode = { cause := 0#8, sub := 0#8 } := rfl
@[simp] theorem latch_errPos (s : State) (w : Word) (wait : Nat) : (s.latch w wait).errPos = 0#32 := rfl
@[simp] theorem latch_inLen (s : State) (w : Word) (wait : Nat) : (s.latch w wait).inLen = s.inLen := rfl
@[simp] theorem latch_payLen (s : State) (w : Word) (wait : Nat) : (s.latch w wait).payLen = s.payLen := rfl
@[simp] theorem latch_outLen (s : State) (w : Word) (wait : Nat) : (s.latch w wait).outLen = s.outLen := rfl
@[simp] theorem latch_txtLen (s : State) (w : Word) (wait : Nat) : (s.latch w wait).txtLen = s.txtLen := rfl
@[simp] theorem latch_rtxtLen (s : State) (w : Word) (wait : Nat) : (s.latch w wait).rtxtLen = s.rtxtLen := rfl
@[simp] theorem latch_nsym (s : State) (w : Word) (wait : Nat) : (s.latch w wait).nsym = s.nsym := rfl
@[simp] theorem latch_nnode (s : State) (w : Word) (wait : Nat) : (s.latch w wait).nnode = s.nnode := rfl
@[simp] theorem latch_root (s : State) (w : Word) (wait : Nat) : (s.latch w wait).root = s.root := rfl
@[simp] theorem latch_freq (s : State) (w : Word) (wait : Nat) : (s.latch w wait).freq = s.freq := rfl
@[simp] theorem latch_node (s : State) (w : Word) (wait : Nat) : (s.latch w wait).node = s.node := rfl
@[simp] theorem latch_ct (s : State) (w : Word) (wait : Nat) : (s.latch w wait).ct = s.ct := rfl
@[simp] theorem latch_ibuf (s : State) (w : Word) (wait : Nat) : (s.latch w wait).ibuf = s.ibuf := rfl
@[simp] theorem latch_obuf (s : State) (w : Word) (wait : Nat) : (s.latch w wait).obuf = s.obuf := rfl
@[simp] theorem latch_pbuf (s : State) (w : Word) (wait : Nat) : (s.latch w wait).pbuf = s.pbuf := rfl
@[simp] theorem latch_rbuf (s : State) (w : Word) (wait : Nat) : (s.latch w wait).rbuf = s.rbuf := rfl
@[simp] theorem latch_tbuf (s : State) (w : Word) (wait : Nat) : (s.latch w wait).tbuf = s.tbuf := rfl
@[simp] theorem latch_latencies (s : State) (w : Word) (wait : Nat) : (s.latch w wait).latencies = s.latencies := rfl
@[simp] theorem latch_host (s : State) (w : Word) (wait : Nat) : (s.latch w wait).host = s.host := rfl
@[simp] theorem latch_reply (s : State) (w : Word) (wait : Nat) : (s.latch w wait).reply = s.reply := rfl
@[simp] theorem latch_draws (s : State) (w : Word) (wait : Nat) : (s.latch w wait).draws = s.draws := rfl

/-! The bus reply (R65). -/

@[simp] theorem answer_cfg (s : State) (data : Word) (error : Bool) : (s.answer data error).cfg = s.cfg := rfl
@[simp] theorem answer_seq (s : State) (data : Word) (error : Bool) : (s.answer data error).seq = s.seq := rfl
@[simp] theorem answer_done (s : State) (data : Word) (error : Bool) : (s.answer data error).done = s.done := rfl
@[simp] theorem answer_err (s : State) (data : Word) (error : Bool) : (s.answer data error).err = s.err := rfl
@[simp] theorem answer_ovr (s : State) (data : Word) (error : Bool) : (s.answer data error).ovr = s.ovr := rfl
@[simp] theorem answer_lastOp (s : State) (data : Word) (error : Bool) : (s.answer data error).lastOp = s.lastOp := rfl
@[simp] theorem answer_errCode (s : State) (data : Word) (error : Bool) : (s.answer data error).errCode = s.errCode := rfl
@[simp] theorem answer_errPos (s : State) (data : Word) (error : Bool) : (s.answer data error).errPos = s.errPos := rfl
@[simp] theorem answer_inLen (s : State) (data : Word) (error : Bool) : (s.answer data error).inLen = s.inLen := rfl
@[simp] theorem answer_payLen (s : State) (data : Word) (error : Bool) : (s.answer data error).payLen = s.payLen := rfl
@[simp] theorem answer_outLen (s : State) (data : Word) (error : Bool) : (s.answer data error).outLen = s.outLen := rfl
@[simp] theorem answer_txtLen (s : State) (data : Word) (error : Bool) : (s.answer data error).txtLen = s.txtLen := rfl
@[simp] theorem answer_rtxtLen (s : State) (data : Word) (error : Bool) : (s.answer data error).rtxtLen = s.rtxtLen := rfl
@[simp] theorem answer_nsym (s : State) (data : Word) (error : Bool) : (s.answer data error).nsym = s.nsym := rfl
@[simp] theorem answer_nnode (s : State) (data : Word) (error : Bool) : (s.answer data error).nnode = s.nnode := rfl
@[simp] theorem answer_root (s : State) (data : Word) (error : Bool) : (s.answer data error).root = s.root := rfl
@[simp] theorem answer_freq (s : State) (data : Word) (error : Bool) : (s.answer data error).freq = s.freq := rfl
@[simp] theorem answer_node (s : State) (data : Word) (error : Bool) : (s.answer data error).node = s.node := rfl
@[simp] theorem answer_ct (s : State) (data : Word) (error : Bool) : (s.answer data error).ct = s.ct := rfl
@[simp] theorem answer_ibuf (s : State) (data : Word) (error : Bool) : (s.answer data error).ibuf = s.ibuf := rfl
@[simp] theorem answer_obuf (s : State) (data : Word) (error : Bool) : (s.answer data error).obuf = s.obuf := rfl
@[simp] theorem answer_pbuf (s : State) (data : Word) (error : Bool) : (s.answer data error).pbuf = s.pbuf := rfl
@[simp] theorem answer_rbuf (s : State) (data : Word) (error : Bool) : (s.answer data error).rbuf = s.rbuf := rfl
@[simp] theorem answer_tbuf (s : State) (data : Word) (error : Bool) : (s.answer data error).tbuf = s.tbuf := rfl
@[simp] theorem answer_latencies (s : State) (data : Word) (error : Bool) : (s.answer data error).latencies = s.latencies := rfl
@[simp] theorem answer_host (s : State) (data : Word) (error : Bool) : (s.answer data error).host = s.host := rfl
@[simp] theorem answer_reply (s : State) (data : Word) (error : Bool) : (s.answer data error).reply = some { data := data, error := error } := rfl
@[simp] theorem answer_draws (s : State) (data : Word) (error : Bool) : (s.answer data error).draws = s.draws := rfl

/-! A buffer replaced. -/

@[simp] theorem setBuf_cfg (s : State) (b : BufId) (m : Memory) : (s.setBuf b m).cfg = s.cfg := by cases b <;> rfl
@[simp] theorem setBuf_seq (s : State) (b : BufId) (m : Memory) : (s.setBuf b m).seq = s.seq := by cases b <;> rfl
@[simp] theorem setBuf_done (s : State) (b : BufId) (m : Memory) : (s.setBuf b m).done = s.done := by cases b <;> rfl
@[simp] theorem setBuf_err (s : State) (b : BufId) (m : Memory) : (s.setBuf b m).err = s.err := by cases b <;> rfl
@[simp] theorem setBuf_ovr (s : State) (b : BufId) (m : Memory) : (s.setBuf b m).ovr = s.ovr := by cases b <;> rfl
@[simp] theorem setBuf_lastOp (s : State) (b : BufId) (m : Memory) : (s.setBuf b m).lastOp = s.lastOp := by cases b <;> rfl
@[simp] theorem setBuf_errCode (s : State) (b : BufId) (m : Memory) : (s.setBuf b m).errCode = s.errCode := by cases b <;> rfl
@[simp] theorem setBuf_errPos (s : State) (b : BufId) (m : Memory) : (s.setBuf b m).errPos = s.errPos := by cases b <;> rfl
@[simp] theorem setBuf_inLen (s : State) (b : BufId) (m : Memory) : (s.setBuf b m).inLen = s.inLen := by cases b <;> rfl
@[simp] theorem setBuf_payLen (s : State) (b : BufId) (m : Memory) : (s.setBuf b m).payLen = s.payLen := by cases b <;> rfl
@[simp] theorem setBuf_outLen (s : State) (b : BufId) (m : Memory) : (s.setBuf b m).outLen = s.outLen := by cases b <;> rfl
@[simp] theorem setBuf_txtLen (s : State) (b : BufId) (m : Memory) : (s.setBuf b m).txtLen = s.txtLen := by cases b <;> rfl
@[simp] theorem setBuf_rtxtLen (s : State) (b : BufId) (m : Memory) : (s.setBuf b m).rtxtLen = s.rtxtLen := by cases b <;> rfl
@[simp] theorem setBuf_nsym (s : State) (b : BufId) (m : Memory) : (s.setBuf b m).nsym = s.nsym := by cases b <;> rfl
@[simp] theorem setBuf_nnode (s : State) (b : BufId) (m : Memory) : (s.setBuf b m).nnode = s.nnode := by cases b <;> rfl
@[simp] theorem setBuf_root (s : State) (b : BufId) (m : Memory) : (s.setBuf b m).root = s.root := by cases b <;> rfl
@[simp] theorem setBuf_freq (s : State) (b : BufId) (m : Memory) : (s.setBuf b m).freq = s.freq := by cases b <;> rfl
@[simp] theorem setBuf_node (s : State) (b : BufId) (m : Memory) : (s.setBuf b m).node = s.node := by cases b <;> rfl
@[simp] theorem setBuf_ct (s : State) (b : BufId) (m : Memory) : (s.setBuf b m).ct = s.ct := by cases b <;> rfl
@[simp] theorem setBuf_latencies (s : State) (b : BufId) (m : Memory) : (s.setBuf b m).latencies = s.latencies := by cases b <;> rfl
@[simp] theorem setBuf_host (s : State) (b : BufId) (m : Memory) : (s.setBuf b m).host = s.host := by cases b <;> rfl
@[simp] theorem setBuf_reply (s : State) (b : BufId) (m : Memory) : (s.setBuf b m).reply = s.reply := by cases b <;> rfl
@[simp] theorem setBuf_draws (s : State) (b : BufId) (m : Memory) : (s.setBuf b m).draws = s.draws := by cases b <;> rfl

/-! A buffer write (R11). -/

@[simp] theorem writeBytes_cfg (s : State) (b : BufId) (off : Nat) (vs : List Byte) : (s.writeBytes b off vs).cfg = s.cfg := by cases b <;> rfl
@[simp] theorem writeBytes_seq (s : State) (b : BufId) (off : Nat) (vs : List Byte) : (s.writeBytes b off vs).seq = s.seq := by cases b <;> rfl
@[simp] theorem writeBytes_done (s : State) (b : BufId) (off : Nat) (vs : List Byte) : (s.writeBytes b off vs).done = s.done := by cases b <;> rfl
@[simp] theorem writeBytes_err (s : State) (b : BufId) (off : Nat) (vs : List Byte) : (s.writeBytes b off vs).err = s.err := by cases b <;> rfl
@[simp] theorem writeBytes_ovr (s : State) (b : BufId) (off : Nat) (vs : List Byte) : (s.writeBytes b off vs).ovr = s.ovr := by cases b <;> rfl
@[simp] theorem writeBytes_lastOp (s : State) (b : BufId) (off : Nat) (vs : List Byte) : (s.writeBytes b off vs).lastOp = s.lastOp := by cases b <;> rfl
@[simp] theorem writeBytes_errCode (s : State) (b : BufId) (off : Nat) (vs : List Byte) : (s.writeBytes b off vs).errCode = s.errCode := by cases b <;> rfl
@[simp] theorem writeBytes_errPos (s : State) (b : BufId) (off : Nat) (vs : List Byte) : (s.writeBytes b off vs).errPos = s.errPos := by cases b <;> rfl
@[simp] theorem writeBytes_inLen (s : State) (b : BufId) (off : Nat) (vs : List Byte) : (s.writeBytes b off vs).inLen = s.inLen := by cases b <;> rfl
@[simp] theorem writeBytes_payLen (s : State) (b : BufId) (off : Nat) (vs : List Byte) : (s.writeBytes b off vs).payLen = s.payLen := by cases b <;> rfl
@[simp] theorem writeBytes_outLen (s : State) (b : BufId) (off : Nat) (vs : List Byte) : (s.writeBytes b off vs).outLen = s.outLen := by cases b <;> rfl
@[simp] theorem writeBytes_txtLen (s : State) (b : BufId) (off : Nat) (vs : List Byte) : (s.writeBytes b off vs).txtLen = s.txtLen := by cases b <;> rfl
@[simp] theorem writeBytes_rtxtLen (s : State) (b : BufId) (off : Nat) (vs : List Byte) : (s.writeBytes b off vs).rtxtLen = s.rtxtLen := by cases b <;> rfl
@[simp] theorem writeBytes_nsym (s : State) (b : BufId) (off : Nat) (vs : List Byte) : (s.writeBytes b off vs).nsym = s.nsym := by cases b <;> rfl
@[simp] theorem writeBytes_nnode (s : State) (b : BufId) (off : Nat) (vs : List Byte) : (s.writeBytes b off vs).nnode = s.nnode := by cases b <;> rfl
@[simp] theorem writeBytes_root (s : State) (b : BufId) (off : Nat) (vs : List Byte) : (s.writeBytes b off vs).root = s.root := by cases b <;> rfl
@[simp] theorem writeBytes_freq (s : State) (b : BufId) (off : Nat) (vs : List Byte) : (s.writeBytes b off vs).freq = s.freq := by cases b <;> rfl
@[simp] theorem writeBytes_node (s : State) (b : BufId) (off : Nat) (vs : List Byte) : (s.writeBytes b off vs).node = s.node := by cases b <;> rfl
@[simp] theorem writeBytes_ct (s : State) (b : BufId) (off : Nat) (vs : List Byte) : (s.writeBytes b off vs).ct = s.ct := by cases b <;> rfl
@[simp] theorem writeBytes_latencies (s : State) (b : BufId) (off : Nat) (vs : List Byte) : (s.writeBytes b off vs).latencies = s.latencies := by cases b <;> rfl
@[simp] theorem writeBytes_host (s : State) (b : BufId) (off : Nat) (vs : List Byte) : (s.writeBytes b off vs).host = s.host := by cases b <;> rfl
@[simp] theorem writeBytes_reply (s : State) (b : BufId) (off : Nat) (vs : List Byte) : (s.writeBytes b off vs).reply = s.reply := by cases b <;> rfl
@[simp] theorem writeBytes_draws (s : State) (b : BufId) (off : Nat) (vs : List Byte) : (s.writeBytes b off vs).draws = s.draws := by cases b <;> rfl

/-! A buffer UNSPECIFIED (R206). -/

@[simp] theorem unspecify_cfg (s : State) (b : BufId) : (s.unspecify b).cfg = s.cfg := by cases b <;> rfl
@[simp] theorem unspecify_seq (s : State) (b : BufId) : (s.unspecify b).seq = s.seq := by cases b <;> rfl
@[simp] theorem unspecify_done (s : State) (b : BufId) : (s.unspecify b).done = s.done := by cases b <;> rfl
@[simp] theorem unspecify_err (s : State) (b : BufId) : (s.unspecify b).err = s.err := by cases b <;> rfl
@[simp] theorem unspecify_ovr (s : State) (b : BufId) : (s.unspecify b).ovr = s.ovr := by cases b <;> rfl
@[simp] theorem unspecify_lastOp (s : State) (b : BufId) : (s.unspecify b).lastOp = s.lastOp := by cases b <;> rfl
@[simp] theorem unspecify_errCode (s : State) (b : BufId) : (s.unspecify b).errCode = s.errCode := by cases b <;> rfl
@[simp] theorem unspecify_errPos (s : State) (b : BufId) : (s.unspecify b).errPos = s.errPos := by cases b <;> rfl
@[simp] theorem unspecify_inLen (s : State) (b : BufId) : (s.unspecify b).inLen = s.inLen := by cases b <;> rfl
@[simp] theorem unspecify_payLen (s : State) (b : BufId) : (s.unspecify b).payLen = s.payLen := by cases b <;> rfl
@[simp] theorem unspecify_outLen (s : State) (b : BufId) : (s.unspecify b).outLen = s.outLen := by cases b <;> rfl
@[simp] theorem unspecify_txtLen (s : State) (b : BufId) : (s.unspecify b).txtLen = s.txtLen := by cases b <;> rfl
@[simp] theorem unspecify_rtxtLen (s : State) (b : BufId) : (s.unspecify b).rtxtLen = s.rtxtLen := by cases b <;> rfl
@[simp] theorem unspecify_nsym (s : State) (b : BufId) : (s.unspecify b).nsym = s.nsym := by cases b <;> rfl
@[simp] theorem unspecify_nnode (s : State) (b : BufId) : (s.unspecify b).nnode = s.nnode := by cases b <;> rfl
@[simp] theorem unspecify_root (s : State) (b : BufId) : (s.unspecify b).root = s.root := by cases b <;> rfl
@[simp] theorem unspecify_freq (s : State) (b : BufId) : (s.unspecify b).freq = s.freq := by cases b <;> rfl
@[simp] theorem unspecify_node (s : State) (b : BufId) : (s.unspecify b).node = s.node := by cases b <;> rfl
@[simp] theorem unspecify_ct (s : State) (b : BufId) : (s.unspecify b).ct = s.ct := by cases b <;> rfl
@[simp] theorem unspecify_latencies (s : State) (b : BufId) : (s.unspecify b).latencies = s.latencies := by cases b <;> rfl
@[simp] theorem unspecify_host (s : State) (b : BufId) : (s.unspecify b).host = s.host := by cases b <;> rfl
@[simp] theorem unspecify_reply (s : State) (b : BufId) : (s.unspecify b).reply = s.reply := by cases b <;> rfl
@[simp] theorem unspecify_draws (s : State) (b : BufId) : (s.unspecify b).draws = s.draws + 1 := by cases b <;> rfl

/-! R240. -/

@[simp] theorem resetBlock_cfg (s : State) : (s.resetBlock).cfg = s.cfg := rfl
@[simp] theorem resetBlock_seq (s : State) : (s.resetBlock).seq = .idle := rfl
@[simp] theorem resetBlock_done (s : State) : (s.resetBlock).done = false := rfl
@[simp] theorem resetBlock_err (s : State) : (s.resetBlock).err = false := rfl
@[simp] theorem resetBlock_ovr (s : State) : (s.resetBlock).ovr = false := rfl
@[simp] theorem resetBlock_lastOp (s : State) : (s.resetBlock).lastOp = 0#8 := rfl
@[simp] theorem resetBlock_errCode (s : State) : (s.resetBlock).errCode = { cause := 0#8, sub := 0#8 } := rfl
@[simp] theorem resetBlock_errPos (s : State) : (s.resetBlock).errPos = 0#32 := rfl
@[simp] theorem resetBlock_inLen (s : State) : (s.resetBlock).inLen = 0#32 := rfl
@[simp] theorem resetBlock_payLen (s : State) : (s.resetBlock).payLen = 0#32 := rfl
@[simp] theorem resetBlock_outLen (s : State) : (s.resetBlock).outLen = 0#32 := rfl
@[simp] theorem resetBlock_txtLen (s : State) : (s.resetBlock).txtLen = 0#32 := rfl
@[simp] theorem resetBlock_rtxtLen (s : State) : (s.resetBlock).rtxtLen = 0#32 := rfl
@[simp] theorem resetBlock_nsym (s : State) : (s.resetBlock).nsym = 0#9 := rfl
@[simp] theorem resetBlock_nnode (s : State) : (s.resetBlock).nnode = 0#10 := rfl
@[simp] theorem resetBlock_root (s : State) : (s.resetBlock).root = 0#9 := rfl
@[simp] theorem resetBlock_freq (s : State) : (s.resetBlock).freq = Vector.replicate 256 0#32 := rfl
@[simp] theorem resetBlock_node (s : State) : (s.resetBlock).node = Vector.replicate 512 Node.none := rfl
@[simp] theorem resetBlock_ct (s : State) : (s.resetBlock).ct = Vector.replicate 256 none := rfl
@[simp] theorem resetBlock_ibuf (s : State) : (s.resetBlock).ibuf = { draw := s.draws, cells := [] } := rfl
@[simp] theorem resetBlock_obuf (s : State) : (s.resetBlock).obuf = { draw := s.draws, cells := [] } := rfl
@[simp] theorem resetBlock_pbuf (s : State) : (s.resetBlock).pbuf = { draw := s.draws, cells := [] } := rfl
@[simp] theorem resetBlock_rbuf (s : State) : (s.resetBlock).rbuf = { draw := s.draws, cells := [] } := rfl
@[simp] theorem resetBlock_tbuf (s : State) : (s.resetBlock).tbuf = { draw := s.draws, cells := [] } := rfl
@[simp] theorem resetBlock_latencies (s : State) : (s.resetBlock).latencies = s.latencies := rfl
@[simp] theorem resetBlock_host (s : State) : (s.resetBlock).host = s.host := rfl
@[simp] theorem resetBlock_reply (s : State) : (s.resetBlock).reply = none := rfl
@[simp] theorem resetBlock_draws (s : State) : (s.resetBlock).draws = s.draws + 1 := rfl

/-! The buffers of an update. -/

@[simp] theorem buf_completeOk (s : State) (b : BufId) : s.completeOk.buf b = s.buf b := by cases b <;> rfl
@[simp] theorem buf_recordError (s : State) (e : CmdError) (pos : Nat) (b : BufId) :
    (s.recordError e pos).buf b = s.buf b := by cases b <;> rfl
@[simp] theorem buf_latch (s : State) (w : Word) (wait : Nat) (b : BufId) : (s.latch w wait).buf b = s.buf b := by
  cases b <;> rfl
@[simp] theorem buf_answer (s : State) (data : Word) (error : Bool) (b : BufId) :
    (s.answer data error).buf b = s.buf b := by cases b <;> rfl
@[simp] theorem buf_setBuf_same (s : State) (b : BufId) (m : Memory) : (s.setBuf b m).buf b = m := by
  cases b <;> rfl
theorem buf_setBuf_ne (s : State) (b b' : BufId) (m : Memory) (h : b' ≠ b) : (s.setBuf b m).buf b' = s.buf b' := by
  cases b <;> cases b' <;> first | rfl | exact absurd rfl h
@[simp] theorem setBuf_buf_same (s : State) (b : BufId) : s.setBuf b (s.buf b) = s := by cases b <;> rfl
@[simp] theorem buf_writeBytes_same (s : State) (b : BufId) (off : Nat) (vs : List Byte) :
    (s.writeBytes b off vs).buf b = (s.buf b).writeBytes off vs := by cases b <;> rfl
theorem buf_writeBytes_ne (s : State) (b b' : BufId) (off : Nat) (vs : List Byte) (h : b' ≠ b) :
    (s.writeBytes b off vs).buf b' = s.buf b' := buf_setBuf_ne s b b' _ h
@[simp] theorem buf_unspecify_same (s : State) (b : BufId) :
    (s.unspecify b).buf b = { draw := s.draws, cells := [] } := by cases b <;> rfl
theorem buf_unspecify_ne (s : State) (b b' : BufId) (h : b' ≠ b) : (s.unspecify b).buf b' = s.buf b' := by
  cases b <;> cases b' <;> first | rfl | exact absurd rfl h

end Sys2Proof.Machine
end

