-- ==== Sys2Proof/Laws/Memory.lean ====
section
/-! SUPPORT. What a buffer write does to a read, and that every buffer operation keeps the canonical form (20_memory.md R61,
R69, R79). -/

namespace Sys2Proof.Machine

open Sys2Proof

theorem lookup_insertCell_same (k : Nat) (v : Byte) (cs : List Host.Cell) :
    (insertCell k v cs).lookup k = some v := by
  induction cs with
  | nil => simp [insertCell]
  | cons c cs ih =>
    unfold insertCell
    split
    · simp [List.lookup]
    · split
      · simp [List.lookup]
      · rename_i h
        have : (k == c.1) = false := by simpa using h
        simp [List.lookup, this, ih]

theorem lookup_insertCell_ne (k j : Nat) (v : Byte) (cs : List Host.Cell) (h : j ≠ k) :
    (insertCell k v cs).lookup j = cs.lookup j := by
  have hjk : (j == k) = false := by simpa using h
  induction cs with
  | nil => simp [insertCell, List.lookup, hjk]
  | cons c cs ih =>
    unfold insertCell
    split
    · simp [List.lookup, hjk]
    · split
      · rename_i hk
        obtain ⟨c1, c2⟩ := c
        simp only at hk
        subst hk
        simp [List.lookup, hjk]
      · obtain ⟨c1, c2⟩ := c
        simp only [List.lookup]
        cases (j == c1) <;> simp [ih]

theorem cellsRise_cons (a : Host.Cell) (cs : List Host.Cell) :
    cellsRise (a :: cs) = true ↔ (∀ c ∈ cs.head?, a.1 < c.1) ∧ cellsRise cs = true := by
  cases cs with
  | nil => simp [cellsRise]
  | cons b rest => simp [cellsRise]

theorem head_insertCell (k : Nat) (v : Byte) (cs : List Host.Cell) (c : Host.Cell)
    (h : c ∈ (insertCell k v cs).head?) : c.1 = k ∨ c ∈ cs.head? := by
  cases cs with
  | nil => left; simp [insertCell] at h; rw [← h]
  | cons d ds =>
    unfold insertCell at h
    split at h
    · left; simp at h; rw [← h]
    · split at h
      · left; simp at h; rw [← h]
      · right; simpa using h

theorem cellsRise_insertCell (k : Nat) (v : Byte) (cs : List Host.Cell) (h : cellsRise cs = true) :
    cellsRise (insertCell k v cs) = true := by
  induction cs with
  | nil => rfl
  | cons c cs ih =>
    have h' := (cellsRise_cons c cs).mp h
    unfold insertCell
    split
    · rename_i hk
      exact (cellsRise_cons _ _).mpr ⟨by simpa using hk, h⟩
    · split
      · rename_i hk
        exact (cellsRise_cons _ _).mpr ⟨by simpa [hk] using h'.1, h'.2⟩
      · rename_i h1 h2
        refine (cellsRise_cons _ _).mpr ⟨fun d hd => ?_, ih h'.2⟩
        rcases head_insertCell k v cs d hd with hd | hd
        · omega
        · exact h'.1 d hd

theorem mem_insertCell (k : Nat) (v : Byte) (cs : List Host.Cell) (c : Host.Cell) (h : c ∈ insertCell k v cs) :
    c.1 = k ∨ c ∈ cs := by
  induction cs with
  | nil => left; simp [insertCell] at h; rw [h]
  | cons d ds ih =>
    unfold insertCell at h
    split at h
    · rcases List.mem_cons.mp h with h | h
      · left; rw [h]
      · right; exact h
    · split at h
      · rcases List.mem_cons.mp h with h | h
        · left; rw [h]
        · right; exact List.mem_cons_of_mem _ h
      · rcases List.mem_cons.mp h with h | h
        · right; rw [h]; exact List.mem_cons_self
        · rcases ih h with h | h
          · left; exact h
          · right; exact List.mem_cons_of_mem _ h

/-- One byte write inside a buffer keeps its canonical form. -/
theorem Memory.wf_writeByte (size : Nat) (m : Memory) (k : Nat) (v : Byte) (hk : k < size) (h : m.wf size = true) :
    (m.writeByte k v).wf size = true := by
  simp only [Memory.wf, Memory.writeByte, Bool.and_eq_true, List.all_eq_true, decide_eq_true_eq] at h ⊢
  refine ⟨cellsRise_insertCell _ _ _ h.1, fun c hc => ?_⟩
  rcases mem_insertCell _ _ _ _ hc with hc | hc
  · omega
  · exact h.2 c hc

/-- A write of several bytes inside a buffer keeps its canonical form. -/
theorem Memory.wf_writeBytes (size : Nat) (vs : List Byte) (m : Memory) (off : Nat) (hk : off + vs.length ≤ size)
    (h : m.wf size = true) : (m.writeBytes off vs).wf size = true := by
  induction vs generalizing m off with
  | nil => exact h
  | cons v vs ih =>
    simp only [List.length_cons] at hk
    exact ih (m.writeByte off v) (off + 1) (by omega) (Memory.wf_writeByte size m off v (by omega) h)

/-- A buffer with nothing listed is in canonical form: after reset, and after an error that leaves it UNSPECIFIED. -/
@[simp] theorem Memory.wf_empty (size draw : Nat) : ({ draw := draw, cells := [] } : Memory).wf size = true := rfl

theorem Memory.lookup_writeByte_same (m : Memory) (k : Nat) (v : Byte) : (m.writeByte k v).lookup k = some v :=
  lookup_insertCell_same k v m.cells

theorem Memory.lookup_writeByte_ne (m : Memory) (k j : Nat) (v : Byte) (h : j ≠ k) :
    (m.writeByte k v).lookup j = m.lookup j := lookup_insertCell_ne k j v m.cells h

@[simp] theorem Memory.draw_writeBytes (vs : List Byte) (m : Memory) (off : Nat) :
    (m.writeBytes off vs).draw = m.draw := by
  induction vs generalizing m off with
  | nil => rfl
  | cons v vs ih => exact ih (m.writeByte off v) (off + 1)

theorem Memory.lookup_writeBytes_below (vs : List Byte) (m : Memory) (off j : Nat) (h : j < off) :
    (m.writeBytes off vs).lookup j = m.lookup j := by
  induction vs generalizing m off with
  | nil => rfl
  | cons v vs ih =>
    exact (ih (m.writeByte off v) (off + 1) (by omega)).trans (Memory.lookup_writeByte_ne m off j v (by omega))

/-- What a write leaves alone: every offset outside the bytes written. -/
theorem Memory.lookup_writeBytes_outside (vs : List Byte) (m : Memory) (off j : Nat)
    (h : j < off ∨ off + vs.length ≤ j) : (m.writeBytes off vs).lookup j = m.lookup j := by
  induction vs generalizing m off with
  | nil => rfl
  | cons v vs ih =>
    simp only [List.length_cons] at h
    exact (ih (m.writeByte off v) (off + 1) (by omega)).trans (Memory.lookup_writeByte_ne m off j v (by omega))

/-- What a write leaves: byte `k` of the bytes written at offset `off + k`. -/
theorem Memory.lookup_writeBytes_inside (vs : List Byte) (m : Memory) (off k : Nat) (h : k < vs.length) :
    (m.writeBytes off vs).lookup (off + k) = some vs[k] := by
  induction vs generalizing m off k with
  | nil => simp at h
  | cons v vs ih =>
    cases k with
    | zero =>
      exact (Memory.lookup_writeBytes_below vs _ (off + 1) off (by omega)).trans
        (Memory.lookup_writeByte_same m off v)
    | succ k =>
      have := ih (m.writeByte off v) (off + 1) k (by simpa using h)
      rw [show off + (k + 1) = off + 1 + k by omega]
      exact this

/-- Reads depend on the buffer read only. -/
theorem byteAt_congr (s t : State) (b : BufId) (k : Nat) (h : t.buf b = s.buf b) : t.byteAt b k = s.byteAt b k := by
  simp only [State.byteAt, h]

theorem byteAt_of_lookup (s : State) (b : BufId) (k : Nat) (v : Byte) (h : (s.buf b).lookup k = some v) :
    s.byteAt b k = v := by simp only [State.byteAt, h]

/-- Read after write, the bytes written. -/
theorem byteAt_writeBytes_inside (s : State) (b : BufId) (off k : Nat) (vs : List Byte) (h : k < vs.length) :
    (s.writeBytes b off vs).byteAt b (off + k) = vs[k] :=
  byteAt_of_lookup _ _ _ _ (by
    rw [buf_writeBytes_same]; exact Memory.lookup_writeBytes_inside vs (s.buf b) off k h)

/-- Read after write, every other byte. -/
theorem byteAt_writeBytes_outside (s : State) (b b' : BufId) (off k : Nat) (vs : List Byte)
    (h : b' ≠ b ∨ k < off ∨ off + vs.length ≤ k) : (s.writeBytes b off vs).byteAt b' k = s.byteAt b' k := by
  by_cases hb : b' = b
  · subst hb
    have hk : k < off ∨ off + vs.length ≤ k := by simpa using h
    simp only [State.byteAt, buf_writeBytes_same, Memory.draw_writeBytes,
      Memory.lookup_writeBytes_outside vs (s.buf b') off k hk]
  · exact byteAt_congr _ _ _ _ (buf_writeBytes_ne s b b' off vs hb)

@[simp] theorem bytesAt_length (s : State) (b : BufId) (off n : Nat) : (s.bytesAt b off n).length = n := by
  simp [State.bytesAt]

theorem bytesAt_getElem (s : State) (b : BufId) (off n k : Nat) (h : k < (s.bytesAt b off n).length) :
    (s.bytesAt b off n)[k] = s.byteAt b (off + k) := by
  simp [State.bytesAt]

/-- A read of the bytes just written gives them back. -/
theorem bytesAt_writeBytes (s : State) (b : BufId) (off : Nat) (vs : List Byte) :
    (s.writeBytes b off vs).bytesAt b off vs.length = vs := by
  apply List.ext_getElem
  · simp
  · intro k h1 h2
    rw [bytesAt_getElem, byteAt_writeBytes_inside s b off k vs h2]

end Sys2Proof.Machine
end

