-- ==== Sys2Proof/Laws/Arrays.lean ====
section
/-! SUPPORT. Reads of the arrays FREQ, NODE and CT, bits of packed words, and the priority queue (10_state.md R39 to R42;
41_tree.md R121). -/

namespace Sys2Proof.Machine

open Sys2Proof

theorem entryAt_setEntry_same (t : CodeTable) (x : Byte) (c : Code) : entryAt (setEntry t x c) x = some c := by
  simp [entryAt, setEntry]

theorem entryAt_setEntry_ne (t : CodeTable) (x y : Byte) (c : Code) (h : y ≠ x) :
    entryAt (setEntry t x c) y = entryAt t y := by
  have : x.toNat ≠ y.toNat := fun e => h (BitVec.eq_of_toNat_eq e.symm)
  simp [entryAt, setEntry, this]

@[simp] theorem entryAt_emptyTable (x : Byte) : entryAt emptyTable x = none := by simp [entryAt, emptyTable]

theorem nodeAt_eq_nodeNo (t : Arena) (i : BitVec 9) : nodeAt t i = nodeNo t i.toNat := by
  have h : i.toNat < 512 := i.isLt
  simp [nodeAt, nodeNo, h]

theorem mem_symbols (x : Byte) : x ∈ symbols := by
  simp only [symbols, List.mem_map, List.mem_range]
  exact ⟨x.toNat, x.isLt, by simp⟩

/-- The symbols are in ascending order, each once. -/
theorem symbols_ascending : symbols.Pairwise fun x y => x.toNat < y.toNat := by
  rw [symbols, List.pairwise_map]
  refine List.Pairwise.imp_of_mem ?_ List.pairwise_lt_range
  intro a b ha hb hab
  have ha' := List.mem_range.mp ha
  have hb' := List.mem_range.mp hb
  simp only [BitVec.toNat_ofNat]
  omega

@[simp] theorem symbols_length : symbols.length = 256 := by simp [symbols]

/-- An array's indexed list is its symbols with their elements. -/
theorem indexed_eq {α : Type} (v : Vector α 256) :
    indexed v = symbols.map fun x => (x, v[x.toNat]'x.isLt) := by
  apply List.ext_getElem
  · simp [indexed]
  · intro k h1 h2
    have hk : k < 256 := by simpa [indexed] using h1
    simp [indexed, symbols, Nat.mod_eq_of_lt hk]

theorem mem_indexed {α : Type} (v : Vector α 256) (x : Byte) (a : α) :
    (x, a) ∈ indexed v ↔ v[x.toNat]'x.isLt = a := by
  rw [indexed_eq, List.mem_map]
  constructor
  · rintro ⟨y, _, h⟩
    cases h
    rfl
  · intro h; exact ⟨x, mem_symbols x, by rw [h]⟩

theorem validEntries_eq (t : CodeTable) :
    validEntries t = symbols.filterMap fun x => (entryAt t x).map fun c => (x, c) := by
  rw [validEntries, indexed_eq, List.filterMap_map]
  rfl

theorem mem_validEntries (t : CodeTable) (x : Byte) (c : Code) :
    (x, c) ∈ validEntries t ↔ entryAt t x = some c := by
  simp only [validEntries_eq, List.mem_filterMap, Option.map_eq_some_iff, Prod.mk.injEq]
  constructor
  · rintro ⟨y, _, d, hd, rfl, rfl⟩; exact hd
  · intro h; exact ⟨x, mem_symbols x, c, h, rfl, rfl⟩

/-- The entries are in ascending order of the symbol, each symbol once. -/
theorem validEntries_ascending (t : CodeTable) : (validEntries t).Pairwise fun a b => a.1.toNat < b.1.toNat := by
  rw [validEntries_eq, List.pairwise_filterMap]
  refine symbols_ascending.imp ?_
  intro a b hab p hp q hq
  obtain ⟨_, _, rfl⟩ := Option.map_eq_some_iff.mp hp
  obtain ⟨_, _, rfl⟩ := Option.map_eq_some_iff.mp hq
  exact hab

/-- The leaves BUILD makes are the symbols of non-zero count, with their counts (R120). -/
theorem occurring_eq (s : State) :
    occurring s.freq =
      (symbols.filter fun x => decide (s.freqAt x ≠ 0)).map fun x => (x, s.freq[x.toNat]'x.isLt) := by
  rw [occurring, indexed_eq, List.filter_map]
  congr 1
  apply List.filter_congr
  intro x _
  simp only [Function.comp, State.freqAt]
  exact decide_eq_decide.mpr (not_congr ⟨fun h => by simp [h], fun h => BitVec.eq_of_toNat_eq (by simpa using h)⟩)

/-- The table of R43 in terms of symbols: two symbols' codes are never prefixes of each other. -/
theorem prefixFree_iff (t : CodeTable) :
    PrefixFree t ↔ ∀ x y c d, x ≠ y → entryAt t x = some c → entryAt t y = some d → isPrefix c.bits d.bits = false := by
  constructor
  · intro h x y c d hne hc hd
    have hx := (mem_validEntries t x c).mpr hc
    have hy := (mem_validEntries t y d).mpr hd
    have key : ∀ l : List (Byte × Code),
        l.Pairwise (fun a b => isPrefix a.2.bits b.2.bits = false ∧ isPrefix b.2.bits a.2.bits = false) →
        (x, c) ∈ l → (y, d) ∈ l → isPrefix c.bits d.bits = false := by
      intro l hl
      induction l with
      | nil => intro hm; cases hm
      | cons e l ih =>
        intro h1 h2
        rcases List.mem_cons.mp h1 with h1 | h1 <;> rcases List.mem_cons.mp h2 with h2 | h2
        · rw [← h1] at h2
          exact absurd (congrArg Prod.fst h2).symm hne
        · have := (List.pairwise_cons.mp hl).1 _ h2
          rw [← h1] at this
          exact this.1
        · have := (List.pairwise_cons.mp hl).1 _ h1
          rw [← h2] at this
          exact this.2
        · exact ih (List.pairwise_cons.mp hl).2 h1 h2
    exact key _ h hx hy
  · intro h
    refine (validEntries_ascending t).imp_of_mem ?_
    intro a b ha hb hab
    have hne : a.1 ≠ b.1 := fun e => by rw [e] at hab; exact Nat.lt_irrefl _ hab
    have ha' := (mem_validEntries t a.1 a.2).mp ha
    have hb' := (mem_validEntries t b.1 b.2).mp hb
    exact ⟨h _ _ _ _ hne ha' hb', h _ _ _ _ (Ne.symm hne) hb' ha'⟩

theorem msbFirst_getLsbD_aux (n m : Nat) (f : Nat → Bool) (i : Nat) :
    ((List.range m).foldl (fun acc j => acc.shiftConcat (f j)) (0#n)).getLsbD i =
      (decide (i < n) && decide (i < m) && f (m - 1 - i)) := by
  induction m generalizing i with
  | zero => simp
  | succ m ih =>
    rw [List.range_succ, List.foldl_append, List.foldl_cons, List.foldl_nil, BitVec.getLsbD_shiftConcat, ih]
    cases i with
    | zero => simp
    | succ i =>
      simp only [Nat.succ_ne_zero, if_false, Nat.add_sub_cancel, Nat.add_lt_add_iff_right]
      rw [show m - (i + 1) = m - 1 - i by omega]
      by_cases h : i + 1 < n
      · simp [h, show i < n by omega]
      · simp [h]

/-- Bit n - 1 - j of an MSB-first word is element j (R68, R70). -/
theorem msbFirst_getLsbD (n : Nat) (f : Nat → Bool) (j : Nat) (h : j < n) :
    (msbFirst n f).getLsbD (n - 1 - j) = f j := by
  rw [msbFirst, msbFirst_getLsbD_aux]
  simp only [show n - 1 - j < n by omega, decide_true, Bool.true_and]
  rw [show n - 1 - (n - 1 - j) = j by omega]

@[simp] theorem packBits_length (u : Bits) : (packBits u).length = (u.length + 7) / 8 := by simp [packBits]

/-- The packed payload reads back bit by bit, its pad bits 0 (R70, R140, R181). -/
theorem pBit_putPayload (s : State) (u : Bits) (i : Nat) (h : i / 8 < (u.length + 7) / 8) :
    (s.putPayload u).pBit i = bitAt u i := by
  have hk : i / 8 < (packBits u).length := by simpa using h
  have hb : (s.writeBytes .pbuf 0 (packBits u)).byteAt .pbuf (i / 8) = (packBits u)[i / 8] := by
    have := byteAt_writeBytes_inside s .pbuf 0 (i / 8) (packBits u) hk
    simpa using this
  have hc : (s.putPayload u).byteAt .pbuf (i / 8) = (packBits u)[i / 8] := hb
  simp only [State.pBit, hc]
  have hm := msbFirst_getLsbD 8 (fun j => bitAt u (8 * (i / 8) + j)) (i % 8) (by omega)
  simp only [packBits, List.getElem_map, List.getElem_range]
  rw [show (7 : Nat) - i % 8 = 8 - 1 - i % 8 by omega, hm]
  congr 1
  omega

/-- Extraction takes one element out and leaves the others (R121). -/
theorem extractMin_perm (q : List QueueItem) (m : QueueItem) (rest : List QueueItem)
    (h : extractMin q = some (m, rest)) : q.Perm (m :: rest) := by
  induction q generalizing m rest with
  | nil => simp [extractMin] at h
  | cons x xs ih =>
    unfold extractMin at h
    split at h
    · rename_i hn
      cases xs with
      | nil => simp at h; obtain ⟨rfl, rfl⟩ := h; exact List.Perm.refl _
      | cons y ys =>
        unfold extractMin at hn
        split at hn
        · simp at hn
        · split at hn <;> simp at hn
    · rename_i m' rest' hs
      split at h
      · simp at h; obtain ⟨rfl, rfl⟩ := h; exact List.Perm.refl _
      · simp at h
        obtain ⟨rfl, rfl⟩ := h
        exact ((ih m' rest' hs).cons x).trans (List.Perm.swap m' x rest')

/-- A non-empty queue gives an element (R121). -/
theorem extractMin_cons (x : QueueItem) (xs : List QueueItem) : ∃ m rest, extractMin (x :: xs) = some (m, rest) := by
  unfold extractMin
  split
  · exact ⟨x, [], rfl⟩
  · split
    · exact ⟨_, _, rfl⟩
    · exact ⟨_, _, rfl⟩

/-- The element taken has the least key (R121), stated as: no element left is before it. -/
theorem extractMin_least (q : List QueueItem) (m : QueueItem) (rest : List QueueItem)
    (h : extractMin q = some (m, rest)) : ∀ y ∈ rest, y.before m = false := by
  induction q generalizing m rest with
  | nil => simp [extractMin] at h
  | cons x xs ih =>
    unfold extractMin at h
    split at h
    · simp at h; obtain ⟨rfl, rfl⟩ := h; simp
    · rename_i m' rest' hs
      have hm := ih m' rest' hs
      split at h
      · rename_i hb
        simp at h; obtain ⟨rfl, rfl⟩ := h
        intro y hy
        rcases List.mem_cons.mp ((extractMin_perm xs m' rest' hs).mem_iff.mp hy) with rfl | hy
        · simp only [QueueItem.before, Bool.or_eq_false_iff, Bool.or_eq_true, Bool.and_eq_true, decide_eq_true_eq,
            decide_eq_false_iff_not, Bool.and_eq_false_iff] at hb ⊢
          omega
        · have h1 := hm y hy
          simp only [QueueItem.before, Bool.or_eq_false_iff, Bool.or_eq_true, Bool.and_eq_true, decide_eq_true_eq,
            decide_eq_false_iff_not, Bool.and_eq_false_iff] at hb h1 ⊢
          omega
      · rename_i hb
        simp at h; obtain ⟨rfl, rfl⟩ := h
        intro y hy
        rcases List.mem_cons.mp hy with rfl | hy
        · simpa using hb
        · exact hm y hy

end Sys2Proof.Machine
end

