-- ==== Sys2Proof/Laws/Step.lean ====
section
/-! SUPPORT. What one step can do, said once: the cases of step, of a completion and of a host turn, and what each command
answers (60_exceptions.md R203 to R208). -/

namespace Sys2Proof.Machine

open Sys2Proof

/-- Everything a step can do. -/
theorem step_cases {s t : State} (h : step s = .next t) :
    (s.seq = .idle ∧ s.host = [] ∧ t = s) ∨
    (∃ op rest, s.seq = .idle ∧ s.host = op :: rest ∧ State.hostTurn { s with host := rest } op = .next t) ∨
    (∃ w wait, s.seq = .busy w wait ∧ (wait = 0 ∨ s.host = []) ∧ complete w s = .next t) ∨
    (∃ w wait op rest, s.seq = .busy w (wait + 1) ∧ s.host = op :: rest ∧
      State.hostTurn { s with host := rest, seq := .busy w wait } op = .next t) := by
  unfold step at h
  split at h
  · rename_i h1 h2; cases h; exact .inl ⟨h1, h2, rfl⟩
  · rename_i op rest h1 h2; exact .inr (.inl ⟨op, rest, h1, h2, h⟩)
  · rename_i w h1; exact .inr (.inr (.inl ⟨w, 0, h1, .inl rfl, h⟩))
  · rename_i w n h1 h2; exact .inr (.inr (.inl ⟨w, n + 1, h1, .inr h2, h⟩))
  · rename_i w n op rest h1 h2; exact .inr (.inr (.inr ⟨w, n, op, rest, h1, h2, h⟩))

/-- A completion runs the decoded command, or records ILLEGAL_COMMAND. -/
theorem complete_cases {w : Word} {s t : State} (h : complete w s = .next t) :
    (∃ i, decode w = .command i ∧ exec i s = .next t) ∨
    (∃ why, decode w = .illegal why ∧ t = s.recordError (.illegalCommand why) 0) := by
  unfold complete at h
  split at h
  · rename_i i hd; exact .inl ⟨i, hd, h⟩
  · rename_i why hd; cases h; exact .inr ⟨why, hd, rfl⟩

theorem settle_ok (s c : State) (i : Instr) : s.settle i (.ok c) = c.completeOk := rfl

theorem settle_error (s : State) (i : Instr) (r : Raise) : s.settle i (.error r) = s.completeError i r := rfl

/-- R206, the commands whose error leaves a buffer UNSPECIFIED, and all others. -/
theorem spoil_cases (s : State) (i : Instr) (e : CmdError) :
    (i = .encode ∧ s.spoil i e = s.unspecify .pbuf) ∨ (i = .decode ∧ s.spoil i e = s.unspecify .obuf) ∨
    s.spoil i e = s := by
  cases i <;> cases e <;> simp [State.spoil]

/-- What each command answers: everything but CODEGEN always a next state. -/
theorem exec_count (s : State) : exec .count s = .next (s.settle .count (runCount s)) := rfl
theorem exec_build (s : State) : exec .build s = .next (s.settle .build (runBuild s)) := rfl
theorem exec_encode (s : State) : exec .encode s = .next (s.settle .encode (runEncode s)) := rfl
theorem exec_decode (s : State) : exec .decode s = .next (s.settle .decode (runDecode s)) := rfl
theorem exec_tabser (s : State) : exec .tabser s = .next (s.settle .tabser (runTabser s)) := rfl
theorem exec_tabparse (s : State) : exec .tabparse s = .next (s.settle .tabparse (runTabparse s)) := rfl
theorem exec_bits2txt (s : State) : exec .bits2txt s = .next (s.settle .bits2txt (runBits2txt s)) := rfl
theorem exec_txt2bits (s : State) : exec .txt2bits s = .next (s.settle .txt2bits (runTxt2bits s)) := rfl

/-- CODEGEN answers a next state when a code table can be derived, and faults otherwise. -/
theorem exec_codegen_cases (s : State) :
    (∃ table m, deriveCodes s.node s.root = some (table, m) ∧
      exec .codegen s = .next { s with ct := table, nsym := BitVec.ofNat 9 m, seq := .idle, done := true }) ∨
    (deriveCodes s.node s.root = none ∧ exec .codegen s = .fault .nodeNotATree) := by
  show (∃ table m, _ ∧ execCodegen s = _) ∨ (_ ∧ execCodegen s = _)
  unfold execCodegen
  cases h : deriveCodes s.node s.root with
  | none => exact .inr ⟨rfl, rfl⟩
  | some p => exact .inl ⟨p.1, p.2, rfl, rfl⟩

/-- A host write either answers a next state or is the fault of R245. -/
theorem hostWrite_cases (s : State) (bits : Nat) (a v : Word) :
    (resolve s.cfg bits a = none ∧ s.hostWrite bits a v = .next s.busError) ∨
    (∃ r off, resolve s.cfg bits a = some (r, off) ∧
      ((r = .csr ∧ off = 4 ∧ s.hostWrite bits a v = .next ((s.requestCommand v).answer 0#32 false)) ∨
       (¬(r = .csr ∧ off = 4) ∧ s.seq.isBusy = true ∧ s.hostWrite bits a v = .fault .hostWriteWhileBusy) ∨
       (¬(r = .csr ∧ off = 4) ∧ s.seq.isBusy = false ∧
         s.hostWrite bits a v = .next ((s.writeAt r off bits v).answer 0#32 false)))) := by
  cases hr : resolve s.cfg bits a with
  | none => exact .inl ⟨rfl, by simp only [State.hostWrite, hr]⟩
  | some p =>
    obtain ⟨r, off⟩ := p
    refine .inr ⟨r, off, rfl, ?_⟩
    by_cases hc : r = .csr ∧ off = 4
    · exact .inl ⟨hc.1, hc.2, by simp [State.hostWrite, hr, csrOffset, hc]⟩
    · cases hb : s.seq.isBusy with
      | true => exact .inr (.inl ⟨hc, rfl, by simp [State.hostWrite, hr, csrOffset, hc, hb]⟩)
      | false => exact .inr (.inr ⟨hc, rfl, by simp [State.hostWrite, hr, csrOffset, hc, hb]⟩)

/-- A location an access resolves to lies inside its region, so a buffer write stays inside the buffer. -/
theorem resolve_buffer {cfg : Config} {bits : Nat} {a : Word} {b : BufId} {off : Nat}
    (h : resolve cfg bits a = some (.buffer b, off)) : off + bits / 8 ≤ bufSize cfg b := by
  unfold resolve at h
  split at h
  · split at h
    · rename_i r o hl
      split at h
      · cases h
        unfold locate at hl
        obtain ⟨row, hrow, heq⟩ := Option.map_eq_some_iff.mp hl
        have hmem := List.mem_of_find?_eq_some hrow
        have hp := List.find?_some hrow
        simp only [Bool.and_eq_true, decide_eq_true_eq] at hp
        simp only [Prod.mk.injEq] at heq
        simp only [addressMap, List.mem_cons, List.not_mem_nil, or_false] at hmem
        rcases hmem with rfl | rfl | rfl | rfl | rfl | rfl | rfl | rfl | rfl <;>
          simp [bufRow] at heq hp ⊢ <;> obtain ⟨rfl, rfl⟩ := heq <;> omega
      · cases h
    · cases h
  · cases h

end Sys2Proof.Machine
end

