-- ==== Sys2Proof/Laws/Canonical.lean ====
section
/-! SUPPORT. Every operation on the buffers keeps their canonical form, and reset has it. -/

namespace Sys2Proof.Machine

open Sys2Proof

theorem memInv_iff (s : State) : MemInv s ↔ ∀ b, (s.buf b).wf (bufSize s.cfg b) = true := by
  constructor
  · rintro ⟨h1, h2, h3, h4, h5⟩ b
    cases b <;> assumption
  · intro h
    exact ⟨h .ibuf, h .obuf, h .pbuf, h .rbuf, h .tbuf⟩

/-- A write inside a buffer keeps every buffer's canonical form (R61). -/
theorem memInv_writeBytes (s : State) (b : BufId) (off : Nat) (vs : List Byte) (h : MemInv s)
    (hk : off + vs.length ≤ bufSize s.cfg b) : MemInv (s.writeBytes b off vs) := by
  rw [memInv_iff] at h ⊢
  intro b'
  by_cases hb : b' = b
  · subst hb
    rw [buf_writeBytes_same, writeBytes_cfg]
    exact Memory.wf_writeBytes _ vs _ off hk (h b')
  · rw [buf_writeBytes_ne s b b' off vs hb, writeBytes_cfg]
    exact h b'

/-- A buffer left UNSPECIFIED is in canonical form (R206). -/
theorem memInv_unspecify (s : State) (b : BufId) (h : MemInv s) : MemInv (s.unspecify b) := by
  rw [memInv_iff] at h ⊢
  intro b'
  by_cases hb : b' = b
  · subst hb; rw [buf_unspecify_same]; rfl
  · rw [buf_unspecify_ne s b b' hb, unspecify_cfg]; exact h b'

/-- Reset leaves every buffer in canonical form (R240). -/
theorem memInv_resetBlock (s : State) : MemInv s.resetBlock := ⟨rfl, rfl, rfl, rfl, rfl⟩

/-- The payload write of ENCODE and TXT2BITS stays inside PBUF (R61). -/
theorem memInv_putPayload (s : State) (u : Bits) (h : MemInv s) (hu : u.length ≤ s.cfg.pbufBits) :
    MemInv (s.putPayload u) := by
  have hr := s.cfg.pbuf_range
  have : MemInv (s.writeBytes .pbuf 0 (packBits u)) :=
    memInv_writeBytes s .pbuf 0 _ h (by simp only [packBits_length, bufSize]; omega)
  exact this

/-- A host write to a buffer stays inside it (R64, R79). -/
theorem memInv_hostBuffer (s : State) (bits : Nat) (a : Word) (b : BufId) (off : Nat) (v : Word) (h : MemInv s)
    (hr : resolve s.cfg bits a = some (.buffer b, off)) : MemInv (s.writeBytes b off (bytesOf (bits / 8) v)) :=
  memInv_writeBytes s b off _ h (by
    have := resolve_buffer hr
    simpa [bytesOf] using this)

end Sys2Proof.Machine
end

