-- ==== Sys2Proof/Laws/PerInstr.lean ====
section
/-! SUPPORT. Statements made per instruction: the word of a command has a mapped opcode and no reserved bit set
(30_encoding.md R90, R92). -/

namespace Sys2Proof.Laws.EncodedWord

open Sys2Proof

/-- The command word of `i`, taken apart into its fields, is a well-formed raw command. -/
def Statement (i : Instr) : Prop :=
  i.wellFormed = true ∧ (RawCommand.ofWord (Sys2Proof.encode i)).wellFormed = true

theorem count : Statement .count := by unfold Statement; decide
theorem build : Statement .build := by unfold Statement; decide
theorem codegen : Statement .codegen := by unfold Statement; decide
theorem encode : Statement .encode := by unfold Statement; decide
theorem decode : Statement .decode := by unfold Statement; decide
theorem tabser : Statement .tabser := by unfold Statement; decide
theorem tabparse : Statement .tabparse := by unfold Statement; decide
theorem bits2txt : Statement .bits2txt := by unfold Statement; decide
theorem txt2bits : Statement .txt2bits := by unfold Statement; decide

end Sys2Proof.Laws.EncodedWord
end

