-- ==== Sys2Proof/Tests/Slice0.lean ====
section
/-! SUPPORT. Tests against the spec's own vectors (95_test_vectors.md; each names its row), the smoke test of WellFormed,
and for every statement with hypotheses a witness that meets them. -/

-- One theorem at a time: a thread for each kernel evaluation below would need more stacks than the check's memory limit.
set_option Elab.async false

namespace Sys2Proof.Tests

open Sys2Proof Sys2Proof.Machine

/-- The next state of an outcome, reset where there is none. -/
def nextOf (o : Host.Outcome State Fault Refusal) : State :=
  match o with
  | .next t => t
  | .fault _ => State.reset
  | .refused _ => State.reset

/-- Whether there is a next state. -/
def isNext (o : Host.Outcome State Fault Refusal) : Bool :=
  match o with
  | .next _ => true
  | .fault _ => false
  | .refused _ => false

theorem eq_next_of_isNext (o : Host.Outcome State Fault Refusal) (h : isNext o = true) : o = .next (nextOf o) := by
  cases o with
  | next t => rfl
  | fault r => cases h
  | refused r => cases h

/-- The default parameters with another PBUF_BITS. -/
def pbuf8 : Config := { Config.default with pbufBits := 8, pbuf_range := by decide }

/-- The default parameters with RBUF_SIZE = 8. -/
def rbuf8 : Config := { Config.default with rbufSize := 8, rbuf_range := by decide }

/-- The default parameters with OBUF_SIZE = 3. -/
def obuf3 : Config := { Config.default with obufSize := 3, obuf_range := by decide }

/-- The reset state of other parameters. -/
def fresh (cfg : Config) : State := State.afterReset cfg 0 [] []

/-- A state with input bytes. -/
def withInput (cfg : Config) (bs : List Nat) : State :=
  { (fresh cfg).writeBytes .ibuf 0 (bs.map (BitVec.ofNat 8)) with inLen := lenWord bs.length }

/-- A state with a code-table text. -/
def withTable (text : String) : State :=
  { State.reset.writeBytes .tbuf 0 (text.toList.map fun ch => BitVec.ofNat 8 ch.toNat) with
    txtLen := lenWord text.length }

/-- A state with a rendered payload. -/
def withRendered (cfg : Config) (text : String) : State :=
  { (fresh cfg).writeBytes .rbuf 0 (text.toList.map fun ch => BitVec.ofNat 8 ch.toNat) with
    rtxtLen := lenWord text.length }

/-- One command run on a state right after the acceptance of its word. -/
def runCmd (i : Instr) (s : State) : State := nextOf (exec i (s.latch (encode i) 0))

/-- A frequency array with the given counts, 0 elsewhere. -/
def freqOf (ps : List (Byte × Nat)) : FreqTable :=
  ps.foldl (fun f p => f.set p.1.toNat (BitVec.ofNat 32 p.2) p.1.isLt) (Vector.replicate 256 0#32)

/-- "abacaba" (L1.1); with the counts C1 gives; built; its codes derived; encoded. -/
def abacaba : State := withInput Config.default [97, 98, 97, 99, 97, 98, 97]
def counted : State := { abacaba with freq := freqOf [(97#8, 4), (98#8, 2), (99#8, 1)] }
def built : State := runCmd .build counted
def coded : State := runCmd .codegen built
def encoded : State := runCmd .encode coded

/-- "aaaa" (L1.2); with its counts; built; its codes derived. -/
def aaaa : State := withInput Config.default [97, 97, 97, 97]
def singleCounted : State := { aaaa with freq := freqOf [(97#8, 4)] }
def singleBuilt : State := runCmd .build singleCounted
def singleCoded : State := runCmd .codegen singleBuilt

/-- A code of two bits and the like. -/
def codeBits (t : CodeTable) (x : Byte) : Bits :=
  match entryAt t x with
  | some c => c.bits
  | none => []

/-! WellFormed: an ill-formed term for each check. -/

theorem test_illformed_opcode : (RawCommand.wellFormed { op := 0x0A#8, rsvd := 0#24 }) = false := by decide
theorem test_illformed_opcode_zero : (RawCommand.wellFormed { op := 0x00#8, rsvd := 0#24 }) = false := by decide
theorem test_illformed_reserved : (RawCommand.wellFormed { op := 0x05#8, rsvd := 0x800000#24 }) = false := by decide
theorem test_illformed_word : Stmt.wellFormed (.word 4294967296) = false := by decide
theorem test_illformed_wr : Stmt.wellFormed (.wr .IN_LEN 4294967296) = false := by decide
theorem test_illformed_offset : Stmt.wellFormed (.wrbuf .ibuf 4294967296 []) = false := by decide
theorem test_illformed_byte : Stmt.wellFormed (.wrbuf .ibuf 0 [97, 256]) = false := by decide
theorem test_wellformed_wrbuf : Stmt.wellFormed (.wrbuf .ibuf 0 [97, 255]) = true := by decide

/-! Decoding: each command's word, bit by bit from R92 (opcode_table.json, "encoding"). -/

theorem test_decode_count : decode 0b00000000000000000000000000000001#32 = .command .count := by decide
theorem test_decode_build : decode 0b00000000000000000000000000000010#32 = .command .build := by decide
theorem test_decode_codegen : decode 0b00000000000000000000000000000011#32 = .command .codegen := by decide
theorem test_decode_encode : decode 0b00000000000000000000000000000100#32 = .command .encode := by decide
theorem test_decode_decode : decode 0b00000000000000000000000000000101#32 = .command .decode := by decide
theorem test_decode_tabser : decode 0b00000000000000000000000000000110#32 = .command .tabser := by decide
theorem test_decode_tabparse : decode 0b00000000000000000000000000000111#32 = .command .tabparse := by decide
theorem test_decode_bits2txt : decode 0b00000000000000000000000000001000#32 = .command .bits2txt := by decide
theorem test_decode_txt2bits : decode 0b00000000000000000000000000001001#32 = .command .txt2bits := by decide
theorem test_decode_w7 : decode 0xFFFFFF00#32 = .illegal .reservedOpcode := by decide
theorem test_opcode_map_distinct : (opcodeMap.map Prod.fst).Pairwise (· ≠ ·) := by decide
theorem test_table_word : decodeTableWord 32 9 = some .txt2bits ∧ decodeTableWord 32 256 = none := by decide

/-! A step runs the instruction placed by withFetchWord, as the first after reset. -/

theorem test_fetch_runs_count :
    (nextOf (step (State.reset.withFetchWord 32 1))).statusWord = 0x00000102#32 := by decide +kernel
theorem test_fetch_runs_codegen :
    (nextOf (step (State.reset.withFetchWord 32 3))).statusWord = 0x00000302#32 := by decide +kernel

/-! Commands (Part 2 of 95_test_vectors.md). -/

/-- C1. -/
theorem test_count_c1 :
    let t := runCmd .count abacaba
    t.freqAt 97#8 = 4 ∧ t.freqAt 98#8 = 2 ∧ t.freqAt 99#8 = 1 ∧ t.freqAt 100#8 = 0 ∧
    t.statusWord = 0x00000102#32 := by decide +kernel

/-- C5. -/
theorem test_count_c5 :
    (runCmd .count { State.reset with inLen := 4097#32 }).errCodeWord = 0x00000106#32 ∧
    (runCmd .count { State.reset with inLen := 4097#32 }).statusWord = 0x00000106#32 := by decide +kernel

/-- B1. -/
theorem test_build_b1 :
    nodeNo built.node 3 = .leaf 99#8 1#32 ∧ nodeNo built.node 4 = .internal 3#32 3#9 2#9 ∧
    nodeNo built.node 5 = .internal 7#32 4#9 1#9 ∧ built.root = 5#9 ∧ built.nnode = 5#10 := by decide +kernel

/-- B6, "aabbc": the tie between leaves a and b goes to the lower index. -/
theorem test_build_b6 :
    let t := runCmd .build { State.reset with freq := freqOf [(97#8, 2), (98#8, 2), (99#8, 1)] }
    nodeNo t.node 4 = .internal 3#32 3#9 1#9 ∧ nodeNo t.node 5 = .internal 5#32 2#9 4#9 := by decide +kernel

/-- G1. -/
theorem test_codegen_g1 :
    codeBits coded.ct 97#8 = [true] ∧ codeBits coded.ct 98#8 = [false, true] ∧
    codeBits coded.ct 99#8 = [false, false] ∧ coded.nsym = 3#9 := by decide +kernel

/-- G3, the single-leaf override. -/
theorem test_codegen_g3 : codeBits singleCoded.ct 97#8 = [false] ∧ singleCoded.nsym = 1#9 := by decide +kernel

/-- E1. -/
theorem test_encode_e1 :
    encoded.payLen = 10#32 ∧ encoded.bytesAt .pbuf 0 2 = [0xB2#8, 0xC0#8] ∧
    encoded.statusWord = 0x00000402#32 := by decide +kernel

/-- E12: at one byte UNMAPPED_SYMBOL wins over CAPACITY_OVERFLOW. -/
theorem test_encode_e12 :
    let s := { withInput pbuf8 [97, 97, 97, 97, 97, 97, 97, 97, 100] with ct := singleCoded.ct }
    (runCmd .encode s).errCodeWord = 0x00000004#32 ∧ (runCmd .encode s).errPos = 8#32 := by decide +kernel

/-- D1. -/
theorem test_decode_d1 :
    (runCmd .decode encoded).outLen = 7#32 ∧
    (runCmd .decode encoded).bytesAt .obuf 0 7 = [97#8, 98#8, 97#8, 99#8, 97#8, 98#8, 97#8] := by decide +kernel

/-- D4: `10` against the codes `1`, `01`, `00` is TRUNCATED at 1. -/
theorem test_decode_d4 :
    (runCmd .decode { encoded with payLen := 2#32 }).errCodeWord = 0x00000203#32 ∧
    (runCmd .decode { encoded with payLen := 2#32 }).errPos = 1#32 := by decide +kernel

/-- T1. -/
theorem test_tabser_t1 :
    (runCmd .tabser coded).tableText = (withTable "00 99\n01 98\n1 97\n").tableText ∧
    (runCmd .tabser coded).txtLen = 17#32 := by decide +kernel

/-- T6's ordinals: "0" and "255". -/
theorem test_tabser_ordinals : decimal 0#8 = [0x30#8] ∧ decimal 255#8 = [0x32#8, 0x35#8, 0x35#8] := by decide +kernel

/-- P2, unsorted and with no final newline: CT as G1. -/
theorem test_tabparse_p2 :
    let t := runCmd .tabparse (withTable "1 97\n00 99\n01 98")
    validEntries t.ct = validEntries coded.ct ∧ t.nsym = 3#9 := by decide +kernel

/-- P20: the earlier code has the new one as prefix. -/
theorem test_tabparse_p20 :
    (runCmd .tabparse (withTable "01 66\n0 65\n")).errCodeWord = 0x00000801#32 ∧
    (runCmd .tabparse (withTable "01 66\n0 65\n")).errPos = 6#32 := by decide +kernel

/-- X1. -/
theorem test_bits2txt_x1 :
    (runCmd .bits2txt encoded).bytesAt .rbuf 0 10 = (withRendered Config.default "1011001011").renderedText ∧
    (runCmd .bits2txt encoded).rtxtLen = 10#32 := by decide +kernel

/-- X3's error, RBUF_SIZE = 8. -/
theorem test_bits2txt_x3 :
    (runCmd .bits2txt { fresh rbuf8 with payLen := 10#32 }).errCodeWord = 0x00000307#32 := by decide +kernel

/-- X6. -/
theorem test_txt2bits_x6 :
    (runCmd .txt2bits (withRendered Config.default "111111111")).bytesAt .pbuf 0 2 = [0xFF#8, 0x80#8] ∧
    (runCmd .txt2bits (withRendered Config.default "111111111")).payLen = 9#32 := by decide +kernel

/-- X12: the capacity check passes, then the data check fails. -/
theorem test_txt2bits_x12 :
    (runCmd .txt2bits (withRendered pbuf8 "0x")).errCodeWord = 0x00000002#32 ∧
    (runCmd .txt2bits (withRendered pbuf8 "0x")).errPos = 1#32 := by decide +kernel

/-! Command words, status and the host bus (L2.9 to L2.11, L2.3). -/

/-- W6. -/
theorem test_illegal_w6 :
    (nextOf (State.reset.hostWrite 32 0x4#32 0x80000005#32)).statusWord = 0x00000506#32 ∧
    (nextOf (State.reset.hostWrite 32 0x4#32 0x80000005#32)).errCodeWord = 0x00000205#32 := by decide +kernel

/-- S2. -/
theorem test_status_s2 :
    (nextOf (State.reset.hostWrite 32 0x4#32 0x4#32)).statusWord = 0x00000401#32 := by decide +kernel

/-- H5, H6. -/
theorem test_bus_h5_h6 :
    (counted.hostRead 32 0x01000001#32).reply = some { data := 0#32, error := true } ∧
    (counted.hostRead 32 0x01000000#32).reply = some { data := 0x63616261#32, error := false } := by decide +kernel

/-- The NODE and CT window read-outs under L2.3. -/
theorem test_windows :
    (coded.hostRead 32 0x00002010#32).reply = some { data := 0x00006101#32, error := false } ∧
    (coded.hostRead 32 0x00005884#32).reply = some { data := 0x40000000#32, error := false } := by decide +kernel

/-! The host assembly (R96): a line each. -/

theorem test_assemble_wrbuf :
    assembleLine "  wrbuf IBUF, 0, \"ab\\n\" ; text".toList = some (some (.wrbuf .ibuf 0 [97, 98, 10])) := by
  decide +kernel
theorem test_assemble_label : assembleLine "wait: rd STATUS".toList = some (some (.rd .STATUS)) := by decide +kernel
theorem test_assemble_hex : assembleLine "wr IN_LEN, 0xFFFFFFFF".toList = some (some (.wr .IN_LEN 4294967295)) := by
  decide +kernel
/-- Program 2's `wr TXT_LEN` and the first two writes of its `wrbuf TBUF`. -/
theorem test_expand :
    expandStmt (.wr .TXT_LEN 17) = [.access (.write 32 0x20#32 0x11#32)] ∧
    expandStmt (.wrbuf .tbuf 0 [0x30, 0x30]) =
      [.access (.write 8 0x10000#32 0x30#32), .access (.write 8 0x10001#32 0x30#32)] := by decide
theorem test_assemble_reject : assembleLine "wr IN_LEN, 0x100000000".toList = none := by decide +kernel

/-! Witnesses: each shows a concrete state and operands that meet all the hypotheses of the statement it is named after, one
for each clause that has hypotheses of its own. -/

/-- Right after the acceptance of COUNT, with three host steps before its completion. -/
def waiting : State :=
  { State.reset.latch (encode .count) 3 with
    host := [.poll true, .access (.read 32 0x8#32), .access (.write 32 0x4#32 0x2#32)] }

/-- An array of NONE entries reads NONE everywhere. -/
theorem nodeNo_replicate (k : Nat) : nodeNo (Vector.replicate 512 Node.none) k = Node.none := by
  by_cases h : k < 512 <;> simp [nodeNo, h]

/-- The empty array of nodes is the empty tree (R41). -/
theorem isTree_empty : IsTree (Vector.replicate 512 Node.none) 0 :=
  ⟨fun k _ _ => nodeNo_replicate k, fun k h1 h2 => by omega, fun j h1 i h2 h3 => by omega, fun k h1 _ => by omega,
    fun i h1 _ => by omega⟩

/-- Entries past the nodes an arena is made of are NONE. -/
theorem nodeNo_arenaOf (nodes : List Node) (k : Nat) (h : nodes.length ≤ k) : nodeNo (arenaOf nodes) k = Node.none := by
  have key : ∀ n m : Nat, (((nodes ++ List.replicate n Node.none).take m)[k]?).getD Node.none = Node.none := by
    intro n m
    rw [List.getElem?_take]
    split
    · rw [List.getElem?_append_right h, List.getElem?_replicate]
      split <;> rfl
    · rfl
  have h2 : (arenaOf nodes)[k]? = ((nodes ++ List.replicate 512 Node.none).take 512)[k]? := by
    unfold arenaOf
    rw [Vector.getElem?_mk, List.getElem?_toArray]
  rw [nodeNo, h2]
  exact key 512 512

/-- The nodes of the tree of "abacaba" (B1). -/
def builtNodes : List Node :=
  [.none, .leaf 97#8 4#32, .leaf 98#8 2#32, .leaf 99#8 1#32, .internal 3#32 3#9 2#9, .internal 7#32 4#9 1#9]

theorem built_node : built.node = arenaOf builtNodes := by
  have h1 : occurring counted.freq = [(97#8, 4#32), (98#8, 2#32), (99#8, 1#32)] := by decide +kernel
  have h2 : built.node = arenaOf (.none :: ((occurring counted.freq).map leafOf ++
      (mergeLoop (occurring counted.freq).length ((occurring counted.freq).length + 1)
        (seedQueue (occurring counted.freq))).nodes)) := rfl
  rw [h2, h1]
  rfl

/-- The tree of "abacaba" meets R41. -/
theorem wit_built_treeInv : TreeInv built := by
  refine ⟨3, by decide, by decide +kernel, by decide +kernel, ?_⟩
  rw [built_node]
  refine ⟨fun k _ hk => ?_, by decide +kernel, by decide +kernel, by decide +kernel, by decide +kernel⟩
  rcases hk with rfl | hk
  · decide +kernel
  · exact nodeNo_arenaOf builtNodes k (by simpa [builtNodes] using hk)

/-- AcceptedCommandCompletes, EveryCommandCompletes, StepKeepsTheInvariant: a command in progress from reset. -/
theorem wit_waiting :
    Inv waiting ∧ waiting.seq = .busy (encode .count) 3 ∧ (∀ op ∈ waiting.host, keepsRunning op = true) ∧
    step waiting = .next (nextOf (step waiting)) :=
  ⟨{ mem := ⟨rfl, rfl, rfl, rfl, rfl⟩
     status := by decide
     running := by decide
     counts := by decide +kernel
     tree := ⟨0, by decide, rfl, rfl, isTree_empty⟩
     table := by decide +kernel
     outLen := by decide }, rfl, by decide, rfl⟩

/-- StepRunsDecodedCommand. -/
theorem wit_step_runs :
    (State.reset.latch (encode .tabser) 2).seq = .busy (encode .tabser) 2 ∧
    (State.reset.latch (encode .tabser) 2).host = [] ∧
    { waiting with seq := .busy (encode .tabser) 0 }.host ≠ [] ∧ decode (encode .tabser) = .command .tabser :=
  ⟨rfl, rfl, by decide, by decide⟩

/-- StepGivesTheHostItsTurn: its three clauses. -/
theorem wit_host_turn :
    (State.reset.seq = .idle ∧ State.reset.host = []) ∧
    ({ State.reset with host := [.poll true] }.seq = .idle ∧ { State.reset with host := [.poll true] }.host = [.poll true]) ∧
    (waiting.seq = .busy (encode .count) (2 + 1) ∧
      waiting.host = .poll true :: [.access (.read 32 0x8#32), .access (.write 32 0x4#32 0x2#32)]) :=
  ⟨⟨rfl, rfl⟩, ⟨rfl, rfl⟩, rfl, rfl⟩

/-- AcceptanceLatchesTheCommand and IllegalWordCompletesAtOnce, a word for each cause at the edge of its range. -/
theorem wit_accept :
    State.reset.seq = .idle ∧ decode 0x9#32 = .command .txt2bits ∧ (0x0#32 : Word).toNat % 256 = 0 ∧
    10 ≤ (0xA#32 : Word).toNat % 256 ∧ 256 ≤ (0x109#32 : Word).toNat := by decide

/-- IllegalWordsByCause: words on both sides of each edge. -/
theorem test_decode_edges :
    decode 0x9#32 = .command .txt2bits ∧ decode 0xA#32 = .illegal .reservedOpcode ∧
    decode 0x100#32 = .illegal .reservedOpcode ∧ decode 0x109#32 = .illegal .reservedBits ∧
    decode 0x10A#32 = .illegal .reservedOpcode := by decide

/-- BusyCmdWriteIsDropped: a running block; OVR cleared by an acceptance, and by a reset. -/
theorem wit_ovr :
    waiting.seq.isBusy = true ∧
    (let s := { State.reset with ovr := true, host := [.access (.write 32 0x4#32 0x1#32)] }
     step s = .next (nextOf (step s)) ∧ s.ovr = true ∧ (nextOf (step s)).ovr = false) ∧
    (let s := { State.reset with ovr := true, host := [.reset none] }
     step s = .next (nextOf (step s)) ∧ s.ovr = true ∧ (nextOf (step s)).ovr = false) :=
  ⟨rfl, ⟨rfl, rfl, rfl⟩, rfl, rfl, rfl⟩

/-- BusyWriteIsAFault, BusErrorExactly, BusErrorsWhileBusy, ReadOnlyWritesAreIgnored: an access that is no bus error, to IN_LEN, to CMD, to the
last word of the CT window; and bus errors of each kind (H4, H5, H9, H10, the end of IBUF). -/
theorem wit_bus :
    ¬ busErrorCondition Config.default 32 0x14#32 ∧ (0x14#32 : Word) ≠ 0x4#32 ∧
    ¬ busErrorCondition Config.default 32 0x4#32 ∧ ¬ busErrorCondition Config.default 32 0x7FFC#32 ∧
    (0x7FFC#32 : Word).toNat < 0x8000 ∧ (0x7FFC#32 : Word).toNat ∉ [0x4, 0x14, 0x18, 0x20, 0x24] ∧
    busErrorCondition Config.default 8 0x8#32 ∧ busErrorCondition Config.default 32 0x01000001#32 ∧
    busErrorCondition Config.default 32 0x8000#32 ∧ busErrorCondition Config.default 16 0x4#32 ∧
    busErrorCondition Config.default 8 0x01001000#32 ∧ ¬ busErrorCondition Config.default 8 0x01000FFF#32 := by
  simp +decide [busErrorCondition, mapped]

/-- OnlyTheBusyWriteStopsTheMachine: a write to IN_LEN while COUNT runs; FlagsChangeOnlyByTransitions has wit_ovr, wit_step
and wit_waiting. -/
theorem wit_busy_write :
    Inv { waiting with host := [.access (.write 32 0x14#32 0x1#32)] } ∧
    step { waiting with host := [.access (.write 32 0x14#32 0x1#32)] } = .fault .hostWriteWhileBusy :=
  have h := wit_waiting.1
  ⟨⟨h.mem, h.status, h.running, h.counts, h.tree, h.table, h.outLen⟩, rfl⟩

/-- BufferWriteThenRead: the last byte, half word and word of TBUF. -/
theorem wit_buffer_edge :
    State.reset.seq = .idle ∧ 66559 % (8 / 8) = 0 ∧ 66559 + 8 / 8 ≤ bufSize State.reset.cfg .tbuf ∧
    66558 % (16 / 8) = 0 ∧ 66558 + 16 / 8 ≤ bufSize State.reset.cfg .tbuf ∧
    66556 % (32 / 8) = 0 ∧ 66556 + 32 / 8 ≤ bufSize State.reset.cfg .tbuf := by decide

/-- IdleReadsHaveNoSideEffect, LengthRegistersStoreAndReadBack, FreqWindowReadsFreq, NodeWindowReadsNode,
CtWindowReadsCode: an IDLE block with something in every array. -/
theorem wit_idle :
    coded.seq = .idle ∧ coded.freqAt 97#8 = 4 ∧ (nodeAt coded.node 5#9).kind = 2#2 ∧
    codeBits coded.ct 98#8 = [false, true] := by decide +kernel

/-- ReadsWhileBusy. -/
theorem wit_reads_while_busy : waiting.seq.isBusy = true ∧ StatusInv waiting := ⟨rfl, wit_waiting.1.status⟩

/-- StatusAndErrcodeWords, LengthRegistersStoreAndReadBack: reads of NSYM, NNODE, ROOT and a reserved offset (H3), and of
ERRCODE and ERRPOS after E9's error. -/
theorem test_register_reads :
    (coded.hostRead 32 0x28#32).reply = some { data := 3#32, error := false } ∧
    (coded.hostRead 32 0x2C#32).reply = some { data := 5#32, error := false } ∧
    (coded.hostRead 32 0x30#32).reply = some { data := 5#32, error := false } ∧
    (coded.hostRead 32 0x48#32).reply = some { data := 0#32, error := false } ∧
    (let t := runCmd .encode { withInput Config.default [97, 98, 100] with ct := coded.ct }
     (t.hostRead 32 0x0C#32).reply = some { data := 0x4#32, error := false } ∧
     (t.hostRead 32 0x10#32).reply = some { data := 2#32, error := false }) := by decide +kernel

/-- BufferWriteThenRead: a 16-bit read of what ENCODE wrote byte by byte (note under E15). -/
theorem test_read_after_encode :
    (encoded.hostRead 16 0x04000000#32).reply = some { data := 0xC0B2#32, error := false } := by decide +kernel

/-- IdentityAndCapacitiesAreConstant, ArraysAreWrittenOnlyByTheirCommands: a step of the engine. -/
theorem wit_step : step (State.reset.withFetchWord 32 1) = .next (nextOf (step (State.reset.withFetchWord 32 1))) := rfl

/-- CommandsWriteOnlyTheirRow: every command runs on the tree and code table of "abacaba". -/
theorem wit_every_command :
    ∀ i ∈ [Instr.count, .build, .codegen, .encode, .decode, .tabser, .tabparse, .bits2txt, .txt2bits],
      exec i coded = .next (nextOf (exec i coded)) := by
  have h : ∀ i ∈ [Instr.count, .build, .codegen, .encode, .decode, .tabser, .tabparse, .bits2txt, .txt2bits],
      isNext (exec i coded) = true := by decide +kernel
  exact fun i hi => eq_next_of_isNext _ (h i hi)

/-- ErrorsArePrecise: an error of ENCODE (E14) and one of DECODE (D3). -/
theorem wit_errors :
    (let s := withInput Config.default [97]
     exec .encode s = .next (nextOf (exec .encode s)) ∧ s.err = false ∧ (nextOf (exec .encode s)).err = true) ∧
    (let s := { State.reset with payLen := 1#32 }
     exec .decode s = .next (nextOf (exec .decode s)) ∧ s.err = false ∧ (nextOf (exec .decode s)).err = true) :=
  ⟨⟨eq_next_of_isNext _ rfl, rfl, by decide +kernel⟩, eq_next_of_isNext _ rfl, rfl, by decide +kernel⟩

/-- LengthBeyondBufferIsReported: each length register one past its buffer. -/
theorem wit_length_range :
    Config.default.ibufSize < (4097#32 : Word).toNat ∧ Config.default.pbufBits < (32769#32 : Word).toNat ∧
    66560 < (66561#32 : Word).toNat ∧ Config.default.rbufSize < (32769#32 : Word).toNat := by decide

/-- CountTabulatesTheInput: the last length that is accepted. -/
theorem wit_count : ({ State.reset with inLen := 4096#32 }).inLen.toNat ≤ State.reset.cfg.ibufSize := by decide

/-- BuildMakesATree, BuildMergesTheTwoLeast (node 4, the first merge, and node 5, the last). -/
theorem wit_build :
    freqTotal counted < 4294967296 ∧ exec .build counted = .next (nextOf (exec .build counted)) ∧
    leafCount counted < 4 ∧ 5 < 2 * leafCount counted ∧ counted.freq = { counted with root := 3#9 }.freq :=
  ⟨by decide +kernel, rfl, by decide +kernel, by decide +kernel, rfl⟩

/-- CodegenAssignsPaths: the empty tree, the one-leaf tree, a tree with an internal root. -/
theorem wit_codegen :
    (TreeInv State.reset ∧ State.reset.root = 0#9) ∧
    nodeAt singleBuilt.node singleBuilt.root = .leaf 97#8 4#32 ∧
    (TreeInv built ∧ (nodeAt built.node built.root).kind = 2#2) :=
  ⟨⟨⟨0, by decide, rfl, rfl, isTree_empty⟩, rfl⟩, by decide +kernel, wit_built_treeInv, by decide +kernel⟩

theorem built_codegen : exec .codegen built = .next (nextOf (exec .codegen built)) :=
  eq_next_of_isNext _ (by decide +kernel)

/-- CodegenCodesArePrefixFreeAndComplete. -/
theorem wit_codegen_complete :
    TreeInv built ∧ exec .codegen built = .next (nextOf (exec .codegen built)) ∧
    2 ≤ (validEntries (nextOf (exec .codegen built)).ct).length :=
  ⟨wit_built_treeInv, built_codegen, by decide +kernel⟩

/-- Eight bits for every symbol: a prefix code. -/
def fixedCode (x : Byte) : Bits := [x.getLsbD 7, x.getLsbD 6, x.getLsbD 5, x.getLsbD 4, x.getLsbD 3, x.getLsbD 2,
  x.getLsbD 1, x.getLsbD 0]

/-- CodesAreOptimal. -/
theorem wit_optimal :
    freqTotal counted < 4294967296 ∧ 2 ≤ leafCount counted ∧ exec .build counted = .next (nextOf (exec .build counted)) ∧
    exec .codegen (nextOf (exec .build counted)) = .next (nextOf (exec .codegen (nextOf (exec .build counted)))) ∧
    (∀ x y, counted.freqAt x ≠ 0 → counted.freqAt y ≠ 0 → x ≠ y → isPrefix (fixedCode x) (fixedCode y) = false) := by
  refine ⟨by decide +kernel, by decide +kernel, rfl, eq_next_of_isNext _ (by decide +kernel), ?_⟩
  intro x y _ _ hne
  refine Bool.eq_false_iff.mpr fun h => hne ?_
  have h1 := (List.isPrefixOf_iff_prefix.mp h).eq_of_length (by simp [fixedCode])
  simp only [fixedCode, List.cons.injEq, and_true] at h1
  obtain ⟨h7, h6, h5, h4, h3, h2, h1, h0⟩ := h1
  refine BitVec.eq_of_getLsbD_eq fun i hi => ?_
  have : i = 0 ∨ i = 1 ∨ i = 2 ∨ i = 3 ∨ i = 4 ∨ i = 5 ∨ i = 6 ∨ i = 7 := by omega
  rcases this with rfl | rfl | rfl | rfl | rfl | rfl | rfl | rfl <;> assumption

/-- CodesAreOptimal, one symbol. -/
theorem wit_optimal_single :
    freqTotal singleCounted < 4294967296 ∧ exec .build singleCounted = .next (nextOf (exec .build singleCounted)) ∧
    exec .codegen (nextOf (exec .build singleCounted)) =
      .next (nextOf (exec .codegen (nextOf (exec .build singleCounted)))) ∧
    leafCount singleCounted = 1 :=
  ⟨by decide +kernel, rfl, eq_next_of_isNext _ (by decide +kernel), by decide +kernel⟩

/-- The payload of "abacaba" (E1). -/
def abacabaBits : Bits := [true, false, true, true, false, false, true, false, true, true]

/-- EncodeConcatenatesTheCodes, EncodedSizeIsTheWeightedSum. -/
theorem wit_encode :
    coded.inLen.toNat ≤ coded.cfg.ibufSize ∧ codesOf coded.ct coded.inputBytes = some abacabaBits ∧
    abacabaBits.length ≤ coded.cfg.pbufBits ∧ exec .encode coded = .next (nextOf (exec .encode coded)) ∧
    coded.err = false ∧ (nextOf (exec .encode coded)).err = false :=
  ⟨by decide +kernel, by decide +kernel, by decide +kernel, rfl, by decide +kernel, by decide +kernel⟩

/-- The other hypothesis of EncodedSizeIsTheWeightedSum. -/
theorem wit_encoded_size : ∀ x : Byte, State.reset.freqAt x = State.reset.inputBytes.count x := by
  intro x
  have h1 : State.reset.inputBytes = [] := by decide
  have h2 : State.reset.freqAt x = 0 := by
    show ((Vector.replicate 256 0#32)[x.toNat]'x.isLt).toNat = 0
    simp
  rw [h1, h2, List.count_nil]

/-- EncodeReportsTheFirstBadByte: no code (E9), and no room for the code (E10). -/
theorem wit_encode_bad :
    (let s := { withInput Config.default [97, 98, 100] with ct := coded.ct }
     s.inLen.toNat ≤ s.cfg.ibufSize ∧ s.inputBytes = [97#8, 98#8] ++ 100#8 :: [] ∧
     codesOf s.ct [97#8, 98#8] = some [true, false, true] ∧ 3 ≤ s.cfg.pbufBits ∧ entryAt s.ct 100#8 = none) ∧
    (let s := { withInput pbuf8 [97, 98, 97, 99, 97, 98, 97] with ct := coded.ct }
     s.inLen.toNat ≤ s.cfg.ibufSize ∧ s.inputBytes = [97#8, 98#8, 97#8, 99#8, 97#8] ++ 98#8 :: [97#8] ∧
     codesOf s.ct [97#8, 98#8, 97#8, 99#8, 97#8] = some [true, false, true, true, false, false, true] ∧
     7 ≤ s.cfg.pbufBits ∧ s.cfg.pbufBits < 7 + (codeBits s.ct 98#8).length) := by decide +kernel

/-- DecodeIsTableMatching: a match, a proper prefix of a code, and (against "0", "10") neither (D9). -/
theorem wit_decode_matching :
    PrefixFree coded.ct ∧ codeBits coded.ct 98#8 = [false, true] ∧
    (∀ e ∈ validEntries coded.ct, isPrefix e.2.bits [false] = false) ∧ isPrefix [false] (codeBits coded.ct 98#8) = true ∧
    (let t := (runCmd .tabparse (withTable "0 65\n10 66\n")).ct
     PrefixFree t ∧ ∀ e ∈ validEntries t, isPrefix e.2.bits [true, true] = false ∧ isPrefix [true, true] e.2.bits = false) := by
  decide +kernel

/-- DecodeRecoversTheSymbols, DecodeIgnoresTheTree. -/
theorem wit_decode :
    PrefixFree encoded.ct ∧ encoded.payLen.toNat ≤ encoded.cfg.pbufBits ∧
    codesOf encoded.ct [97#8, 98#8, 97#8, 99#8, 97#8, 98#8, 97#8] = some abacabaBits ∧
    encoded.payloadBits = abacabaBits ∧ 7 ≤ encoded.cfg.obufSize ∧
    exec .decode encoded = .next (nextOf (exec .decode encoded)) :=
  ⟨by decide +kernel, by decide +kernel, by decide +kernel, by decide +kernel, by decide +kernel, rfl⟩

/-- DecodeReportsTheFirstBadCode: TRUNCATED after one symbol (D4), NO_MATCH with a payload of one symbol and a bad rest (as
D9), OBUF full after three symbols (D11). -/
theorem wit_decode_bad :
    (let s := { encoded with payLen := 2#32 }
     PrefixFree s.ct ∧ codesOf s.ct [97#8] = some [true] ∧ s.payloadBits = [true] ++ [false] ∧ 1 ≤ s.cfg.obufSize ∧
     (∀ e ∈ validEntries s.ct, isPrefix e.2.bits [false] = false) ∧ isPrefix [false] (codeBits s.ct 98#8) = true) ∧
    (let s := { withRendered Config.default "" with
                  ct := (runCmd .tabparse (withTable "0 65\n10 66\n")).ct, payLen := 3#32,
                  pbuf := { draw := 0, cells := [(0, 0x60#8)] } }
     PrefixFree s.ct ∧ codesOf s.ct [65#8] = some [false] ∧ s.payloadBits = [false] ++ [true, true] ∧
     (∀ e ∈ validEntries s.ct, isPrefix e.2.bits [true, true] = false ∧ isPrefix [true, true] e.2.bits = false) ∧
     (runCmd .decode s).errCodeWord = 0x103#32 ∧ (runCmd .decode s).errPos = 1#32) ∧
    (let s := { encoded with cfg := obuf3 }
     PrefixFree s.ct ∧ codesOf s.ct [97#8, 98#8, 97#8] = some [true, false, true, true] ∧
     s.payloadBits = [true, false, true, true] ++ [false, false, true, false, true, true] ∧ 3 = s.cfg.obufSize ∧
     isPrefix (codeBits s.ct 99#8) [false, false, true, false, true, true] = true ∧
     (runCmd .decode s).errCodeWord = 0x207#32 ∧ (runCmd .decode s).errPos = 4#32) := by decide +kernel

/-- CompressDecompressRoundTrip, with its inner hypothesis. -/
theorem wit_round_trip :
    counted.err = false ∧ counted.inLen.toNat ≤ counted.cfg.ibufSize ∧ counted.inLen.toNat ≤ counted.cfg.obufSize ∧
    weightedLength coded coded.ct = 10 ∧ 10 ≤ coded.cfg.pbufBits := by decide +kernel

/-- TextIsCutAtNewlines: the text of P3 and a last line without newline. -/
theorem wit_segments :
    (∀ m ∈ [[], [0x30#8, 0x20#8, 0x36#8]], (0x0A#8 : Byte) ∉ m) ∧ (0x0A#8 : Byte) ∉ [0x31#8] ∧
    segments 0 [0x0A#8, 0x30#8, 0x20#8, 0x36#8, 0x0A#8, 0x31#8] =
      [{ start := 0, text := [] }, { start := 1, text := [0x30#8, 0x20#8, 0x36#8] }, { start := 5, text := [0x31#8] }] ∧
    tableLines [0x0A#8, 0x30#8, 0x20#8, 0x36#8, 0x0A#8, 0x31#8] =
      [{ start := 1, text := [0x30#8, 0x20#8, 0x36#8] }, { start := 5, text := [0x31#8] }] := by
  decide

/-- SUB of the first failing check of a line against a table, 0 if it passes. -/
def lineSubOf (t : CodeTable) (line : List Byte) : Nat :=
  match parseLine t line with
  | .ok _ => 0
  | .error why => (lineFaultSub why).toNat

/-- The same of a line written as text. -/
def lineSub (t : CodeTable) (text : String) : Nat := lineSubOf t (text.toList.map fun ch => BitVec.ofNat 8 ch.toNat)

/-- TableLineChecksInOrder: a line for each check, and one where two fail (P6 to P20). -/
theorem test_table_line_checks :
    lineSub emptyTable "065" = 1 ∧ lineSub emptyTable "0 6a" = 2 ∧ lineSub emptyTable "0 " = 2 ∧
    lineSub emptyTable "0  65" = 2 ∧ lineSub emptyTable "0 256" = 3 ∧ lineSub emptyTable "0 255" = 0 ∧
    lineSub emptyTable "1x 65" = 4 ∧ lineSub emptyTable "1x 6y" = 2 ∧ lineSub emptyTable " 65" = 5 ∧
    lineSub singleCoded.ct "1 97" = 7 ∧ lineSub singleCoded.ct "01 66" = 8 ∧ lineSub singleCoded.ct "0 66" = 8 ∧
    lineSub singleCoded.ct "1 66" = 0 ∧ lineSub emptyTable "0 4294967393" = 3 := by decide +kernel

/-- TableLineChecksInOrder, the length check at 255 and 256 bits (P15, P16). -/
theorem test_table_line_length :
    lineSubOf emptyTable (List.replicate 256 0x30#8 ++ [0x20#8, 0x36#8, 0x35#8]) = 6 ∧
    lineSubOf emptyTable (List.replicate 255 0x30#8 ++ [0x20#8, 0x36#8, 0x35#8]) = 0 := by decide +kernel

/-- TabparseReportsTheFirstBadLine (P21). -/
theorem wit_tabparse_bad :
    let s := withTable "0 65\nzz\n"
    let good : List Segment := [{ start := 0, text := [0x30#8, 0x20#8, 0x36#8, 0x35#8] }]
    let bad : Segment := { start := 5, text := [0x7A#8, 0x7A#8] }
    (LineFault.split, 1#8) ∈ [(LineFault.split, 1#8), (.ordinalSyntax, 2#8)] ∧
    s.txtLen.toNat ≤ 66560 ∧ tableLines s.tableText = good ++ bad :: [] ∧
    parseLines emptyTable good = .ok (setEntry emptyTable 65#8 singleCode) ∧
    parseLine (setEntry emptyTable 65#8 singleCode) bad.text = .error .split :=
  ⟨by decide, by decide +kernel, by decide +kernel, by decide +kernel, by decide +kernel⟩

/-- TabparseLoadsTheEntries: an empty line, leading zeros (P4), no final newline. -/
theorem wit_tabparse :
    let s := withTable "\n0 0065"
    let es : List (Nat × Byte × Code) := [(2, 65#8, singleCode)]
    let l : List Byte := [0x30#8, 0x20#8, 0x30#8, 0x30#8, 0x36#8, 0x35#8]
    s.txtLen.toNat ≤ 66560 ∧
    es.Pairwise (fun a b => a.2.1 ≠ b.2.1 ∧ ¬ a.2.2.bits <+: b.2.2.bits ∧ ¬ b.2.2.bits <+: a.2.2.bits) ∧
    (([[]] ++ [l]).filter fun m => decide (m ≠ [])) = (es.map fun e => specLineZeros e.1 e.2.1 e.2.2.bits) ∧
    s.tableText = (([[]] : List (List Byte)).flatMap fun m => m ++ [0x0A#8]) ++ l :=
  ⟨by decide +kernel, List.pairwise_singleton _ _, by decide +kernel, by decide +kernel⟩

/-- TableSerializationRoundTrip. -/
theorem wit_table_round_trip :
    TableInv coded ∧ exec .tabser coded = .next (nextOf (exec .tabser coded)) ∧
    exec .tabparse (nextOf (exec .tabser coded)) = .next (nextOf (exec .tabparse (nextOf (exec .tabser coded)))) :=
  ⟨by decide +kernel, eq_next_of_isNext _ rfl, eq_next_of_isNext _ rfl⟩

/-- Bits2txtRendersTheBits: the last length that fits RBUF, and the first that does not. -/
theorem wit_bits2txt :
    (8#32 : Word).toNat ≤ rbuf8.pbufBits ∧ (8#32 : Word).toNat ≤ rbuf8.rbufSize ∧ rbuf8.rbufSize < (9#32 : Word).toNat ∧
    (9#32 : Word).toNat ≤ rbuf8.pbufBits ∧ rbuf8.pbufBits < (32769#32 : Word).toNat := by decide

/-- Txt2bitsParsesTheText: too long for PBUF; a text that passes; one that does not (X7). -/
theorem wit_txt2bits :
    pbuf8.rbufSize < (32769#32 : Word).toNat ∧ pbuf8.pbufBits < (9#32 : Word).toNat ∧ (9#32 : Word).toNat ≤ pbuf8.rbufSize ∧
    (let s := withRendered pbuf8 "01"
     s.rtxtLen.toNat ≤ s.cfg.rbufSize ∧ s.rtxtLen.toNat ≤ s.cfg.pbufBits ∧
     s.renderedText = [0x30#8, 0x31#8]) ∧
    (let s := withRendered pbuf8 "01x1"
     s.rtxtLen.toNat ≤ s.cfg.pbufBits ∧ 2 < s.rtxtLen.toNat ∧ s.bytesAt .rbuf 0 3 = [0x30#8, 0x31#8, 0x78#8]) := by
  decide +kernel

/-- BitTextRoundTrip: both directions. -/
theorem wit_bit_text :
    encoded.payLen.toNat ≤ encoded.cfg.pbufBits ∧ encoded.payLen.toNat ≤ encoded.cfg.rbufSize ∧
    (let s := withRendered Config.default "01"
     s.rtxtLen.toNat ≤ s.cfg.rbufSize ∧ s.rtxtLen.toNat ≤ s.cfg.pbufBits ∧ s.renderedText = [0x30#8, 0x31#8]) := by
  decide +kernel

/-- EmptyInputRaisesNothing: reset meets every hypothesis. -/
theorem wit_empty :
    State.reset.inLen = 0#32 ∧ State.reset.root = 0#9 ∧ validEntries State.reset.ct = [] ∧ State.reset.txtLen.toNat ≤ 66560 ∧
    State.reset.tableText = [] ∧ State.reset.payLen = 0#32 ∧ occurring State.reset.freq = [] := by decide +kernel

/-- PollLoopTurns: running; done; done with an error. -/
theorem wit_poll :
    waiting.seq.isBusy = true ∧ (State.reset.seq.isBusy = false ∧ State.reset.err = false) ∧
    (let s := State.reset.recordError .malformedPayload 2
     s.seq.isBusy = false ∧ s.err = true) := ⟨rfl, ⟨rfl, rfl⟩, rfl, rfl⟩

/-- R251: COUNT still runs when the last statement, a read, has been performed: the program has ended. Had it ended with
`issue COUNT`, it had not. -/
theorem test_program_end :
    let s := { waiting with host := [] }
    s.programEnded [.issue .count, .rd .STATUS] = true ∧ s.programEnded [.issue .count] = false ∧
    s.programEnded [.word 1] = false ∧ (nextOf (step s)).programEnded [.issue .count] = true ∧
    waiting.programEnded [.cmd .count] = false := by decide +kernel

/-- R251: the view of TBUF is cut where TABSER ended, not where the host's TXT_LEN says, and an unwritten byte is none. -/
theorem test_end_view :
    let l := CmdLengths.zero.note (singleCoded.latch (encode .tabser) 0) (runCmd .tabser singleCoded)
    l = { out := 0, pay := 0, txt := 5, rtxt := 0 } ∧
    ({ runCmd .tabser singleCoded with txtLen := 9#32 }.endView l).tableText =
      [some 0x30#8, some 0x20#8, some 0x39#8, some 0x37#8, some 0x0A#8] ∧
    (State.reset.endView l).tableText = [none, none, none, none, none] := by decide +kernel

/-- R251: a reset forgets the lengths. EndOfAProgram: a read performed while COUNT runs, and two states that differ past the
text TABSER wrote. -/
theorem wit_end_of_program :
    (CmdLengths.note { out := 1, pay := 2, txt := 3, rtxt := 4 } { State.reset with host := [.reset none] } State.reset =
      CmdLengths.zero) ∧
    (let s := { waiting with host := [.access (.read 32 0x8#32)] }
     step s = .next (nextOf (step s)) ∧ s.host = .access (.read 32 0x8#32) :: [] ∧ s.seq = .busy (encode .count) 3) ∧
    (let s := withTable "0 97\n"
     let t := s.writeBytes .tbuf 7 [0x41#8]
     t = { s with tbuf := t.tbuf } ∧ t.tbuf ≠ s.tbuf ∧ ∀ k < 5, t.tbuf.lookup k = s.tbuf.lookup k) :=
  ⟨rfl, ⟨rfl, rfl, rfl⟩, rfl, by decide +kernel, by decide +kernel⟩

end Sys2Proof.Tests
end

section
/-! What one host operation can do, said once, and the reads of the CSR region (R23 to R38, R60 to R65, R208, R240, R249). -/

namespace Sys2Proof.Machine

open Sys2Proof

/-- An aligned 32-bit access below 0x1000 is to the CSR at its address (R23, R60). -/
theorem resolve_csr (cfg : Config) (a : Word) (hlt : a.toNat < 0x1000) (hal : a.toNat % 4 = 0) :
    resolve cfg 32 a = some (.csr, a.toNat) := by
  have hend : a.toNat + 4 ≤ 4096 := by omega
  simp [resolve, locate, addressMap, widthAdmitted, hal, hend]

/-- What an access resolves to in the CSR region is its own address, and it has 32 bits (R60, R62). -/
theorem resolve_csr_inv {cfg : Config} {bits : Nat} {a : Word} {off : Nat}
    (h : resolve cfg bits a = some (.csr, off)) : bits = 32 ∧ a.toNat = off := by
  unfold resolve at h
  split at h
  · split at h
    · rename_i r o hl
      split at h
      · rename_i hw
        cases h
        refine ⟨by simpa [widthAdmitted] using hw, ?_⟩
        obtain ⟨row, hrow, heq⟩ := Option.map_eq_some_iff.mp hl
        have hmem := List.mem_of_find?_eq_some hrow
        simp only [addressMap, List.mem_cons, List.not_mem_nil, or_false] at hmem
        rcases hmem with rfl | rfl | rfl | rfl | rfl | rfl | rfl | rfl | rfl <;> simp [bufRow] at heq
        exact heq
      · cases h
    · cases h
  · cases h

/-- CMD is reached by a 32-bit access to address 4 only (R25, R95). -/
theorem resolve_cmd {cfg : Config} {bits : Nat} {a : Word} (h : resolve cfg bits a = some (.csr, 4)) :
    bits = 32 ∧ a = 4#32 := by
  obtain ⟨hbits, ha⟩ := resolve_csr_inv h
  exact ⟨hbits, BitVec.eq_of_toNat_eq ha⟩

/-- A read in the CSR region is answered with the register's word while IDLE, and at the locations of R249 while BUSY. -/
theorem hostRead_csr (s : State) (a : Word) (hlt : a.toNat < 0x1000) (hal : a.toNat % 4 = 0)
    (hr : s.seq.isBusy = false ∨ readableWhileBusy .csr a.toNat = true) :
    s.hostRead 32 a = s.answer (s.readAt .csr a.toNat 32) false := by
  have hfree : (s.seq.isBusy && !readableWhileBusy .csr a.toNat) = false := by
    rcases hr with hr | hr <;> simp [hr]
  simp only [State.hostRead, resolve_csr s.cfg a hlt hal, hfree, Bool.false_eq_true, if_false]

/-- The reply to a read of register `r` at its own address. -/
theorem hostRead_register (s : State) (a : Word) (r : CsrName) (hlt : a.toNat < 0x1000) (hal : a.toNat % 4 = 0)
    (hcsr : csrAt a.toNat = some r) (hr : s.seq.isBusy = false ∨ readableWhileBusy .csr a.toNat = true) :
    (s.hostRead 32 a).reply = some { data := s.csrRead r, error := false } := by
  rw [hostRead_csr s a hlt hal hr]
  simp [State.readAt, hcsr]

/-- No register stands at an offset from 0x48 on (R38). -/
theorem csrAt_reserved (off : Nat) (h : 0x48 ≤ off) : csrAt off = none := by
  rw [csrAt, List.find?_eq_none]
  intro r _
  cases r <;> simp [csrOffset] <;> omega

/-- A write to a CSR other than CMD while IDLE (R78). -/
theorem hostWrite_register (s : State) (a v : Word) (r : CsrName) (hlt : a.toNat < 0x1000) (hal : a.toNat % 4 = 0)
    (hcmd : a.toNat ≠ 4) (hcsr : csrAt a.toNat = some r) (hidle : s.seq.isBusy = false) :
    s.hostWrite 32 a v = .next ((s.csrWrite r v).answer 0#32 false) := by
  simp [State.hostWrite, resolve_csr s.cfg a hlt hal, csrOffset, hcmd, hidle, State.writeAt, hcsr]

/-- `t` is `s` but for the reply, the host's program and the counter of free values: what a read and a poll turn may
change (R72, R97, R249). -/
def State.SameBlock (s t : State) : Prop := t = { s with reply := t.reply, host := t.host, draws := t.draws }

theorem sameBlock_hostRead (s : State) (bits : Nat) (a : Word) : s.SameBlock (s.hostRead bits a) := by
  unfold State.hostRead
  split
  · rfl
  · split <;> rfl

theorem sameBlock_pollTurn (s : State) (stop : Bool) : s.SameBlock (s.pollTurn stop) := by
  simp only [State.pollTurn]
  split
  · rfl
  · split <;> rfl

/-- Everything a host operation can do: a read, a poll or a bus error; a CMD write; a write while IDLE; a reset. -/
theorem hostTurn_cases {s t : State} {op : HostOp} (h : s.hostTurn op = .next t) :
    s.SameBlock t ∨
    (∃ v, op = .access (.write 32 4#32 v) ∧ t = (s.requestCommand v).answer 0#32 false) ∨
    (∃ bits a v r off, op = .access (.write bits a v) ∧ s.seq.isBusy = false ∧ resolve s.cfg bits a = some (r, off) ∧
      t = (s.writeAt r off bits v).answer 0#32 false) ∨
    (∃ during, op = .reset during ∧ t = s.resetTurn during) := by
  rcases op with (⟨bits, a⟩ | ⟨bits, a, v⟩) | stop | during
  case access.read =>
    cases h
    exact .inl (sameBlock_hostRead s bits a)
  case access.write =>
    have hw : s.hostWrite bits a v = .next t := h
    rcases hostWrite_cases s bits a v with ⟨_, he⟩ | ⟨r, off, hr, ⟨rfl, rfl, he⟩ | ⟨_, _, he⟩ | ⟨_, hidle, he⟩⟩ <;>
      rw [he] at hw <;> cases hw
    · exact .inl rfl
    · obtain ⟨rfl, rfl⟩ := resolve_cmd hr
      exact .inr (.inl ⟨v, rfl, rfl⟩)
    · exact .inr (.inr (.inl ⟨bits, a, v, r, off, rfl, hidle, hr, rfl⟩))
  case poll =>
    cases h
    exact .inl (sameBlock_pollTurn s stop)
  case reset =>
    cases h
    exact .inr (.inr (.inr ⟨during, rfl, rfl⟩))

/-- A write while IDLE stores into a length register or a buffer, or is ignored (R29 to R33, R66 to R69, R78, R79). -/
theorem writeAt_cases (s : State) (r : Region) (off bits : Nat) (v : Word) :
    s.writeAt r off bits v =
      { s with inLen := (s.writeAt r off bits v).inLen, payLen := (s.writeAt r off bits v).payLen,
               txtLen := (s.writeAt r off bits v).txtLen, rtxtLen := (s.writeAt r off bits v).rtxtLen } ∨
    ∃ b, r = .buffer b ∧ s.writeAt r off bits v = s.writeBytes b off (bytesOf (bits / 8) v) := by
  cases r with
  | csr =>
    left
    cases hc : csrAt off with
    | none => simp only [State.writeAt, hc]
    | some name => cases name <;> simp only [State.writeAt, hc, State.csrWrite]
  | freqWin => exact .inl rfl
  | nodeWin => exact .inl rfl
  | ctWin => exact .inl rfl
  | buffer b => exact .inr ⟨b, rfl, rfl⟩

/-- A reset leaves the state of R240, the reply and the counter of free values apart. -/
theorem resetTurn_frame (s : State) (during : Option Access) :
    s.resetTurn during =
      { s.resetBlock with reply := (s.resetTurn during).reply, draws := (s.resetTurn during).draws } := by
  rcases during with _ | (_ | _) <;> rfl

/-- The two outcomes of an acceptance: a command word is in progress, an illegal word has completed (R93, R203). -/
theorem accept_cases (s : State) (w : Word) :
    (∃ i, decode w = .command i ∧
      s.accept w = { s.latch w (s.latencies.headD 0) with latencies := s.latencies.tail }) ∨
    (∃ why, decode w = .illegal why ∧ s.accept w =
      State.recordError { s.latch w (s.latencies.headD 0) with latencies := s.latencies.tail } (.illegalCommand why) 0) := by
  cases hd : decode w with
  | command i => exact .inl ⟨i, rfl, by simp only [State.accept, hd]⟩
  | illegal why => exact .inr ⟨why, rfl, by simp only [State.accept, hd]⟩

end Sys2Proof.Machine
end

section
/-! The registers as a host reads and writes them (R23 to R38): O11, O17 and the reads of O18. -/

namespace Sys2Proof.Machine

open Sys2Proof

/-- A flag stands at its own bit and nowhere else. -/
theorem flagBit_getLsbD (b : Bool) (k j : Nat) (hk : k < 32) : (flagBit b k).getLsbD j = (decide (j = k) && b) := by
  cases b
  · simp [flagBit]
  · by_cases h : j = k
    · simp [flagBit, h, hk]
    · have hsub : k ≤ j → ¬ j - k = 0 := by omega
      simpa [flagBit, BitVec.getLsbD_one, h] using fun (_ : j < 32) => hsub

/-- A byte moved to [15:8] stands there and nowhere else. -/
theorem secondByte_getLsbD (b : BitVec 8) (j : Nat) :
    (b.setWidth 32 <<< 8).getLsbD j = (decide (8 ≤ j) && b.getLsbD (j - 8)) := by
  by_cases h : j < 16
  · by_cases h8 : 8 ≤ j
    · simp [h8, show j < 32 by omega, show ¬ j < 8 by omega]
    · simp [h8]
  · simp [BitVec.getLsbD_of_ge b (j - 8) (by omega)]

/-- Every bit of STATUS: the four flags, LASTOP at [15:8] (R26). -/
theorem statusWord_getLsbD (s : State) (j : Nat) :
    s.statusWord.getLsbD j =
      (decide (j = 0) && s.seq.isBusy || decide (j = 1) && s.done || decide (j = 2) && s.err || decide (j = 3) && s.ovr ||
        decide (8 ≤ j) && s.lastOp.getLsbD (j - 8)) := by
  simp only [State.statusWord, BitVec.getLsbD_or, secondByte_getLsbD, flagBit_getLsbD _ _ _ (show 0 < 32 by decide),
    flagBit_getLsbD _ _ _ (show 1 < 32 by decide), flagBit_getLsbD _ _ _ (show 2 < 32 by decide),
    flagBit_getLsbD _ _ _ (show 3 < 32 by decide)]

/-- Every bit of ERRCODE: CAUSE at [7:0], SUB at [15:8] (R27). -/
theorem errCodeWord_getLsbD (s : State) (j : Nat) :
    s.errCodeWord.getLsbD j =
      (s.errCode.cause.getLsbD j || decide (8 ≤ j) && s.errCode.sub.getLsbD (j - 8)) := by
  rw [State.errCodeWord, BitVec.getLsbD_or, secondByte_getLsbD, BitVec.getLsbD_setWidth]
  by_cases h : j < 32
  · simp [h]
  · simp [h, BitVec.getLsbD_of_ge s.errCode.cause j (by omega)]

/-- Settles O11, bit by bit from the equations of the two words. -/
theorem statusAndErrcodeWords : Obligations.StatusAndErrcodeWords := by
  intro s
  simp only [statusWord_getLsbD, errCodeWord_getLsbD]
  refine ⟨by simp, by simp, by simp, by simp, ?_, ?_, ?_, ?_, ?_, ?_, ?_⟩
  · intro k h4 h8
    simp [show k ≠ 0 by omega, show k ≠ 1 by omega, show k ≠ 2 by omega, show k ≠ 3 by omega, show ¬ 8 ≤ k by omega]
  · intro k _
    simp [show 8 + k ≠ 1 by omega, show 8 + k ≠ 2 by omega, show 8 + k ≠ 3 by omega]
  · intro k hk
    simp [show k ≠ 0 by omega, show k ≠ 1 by omega, show k ≠ 2 by omega, show k ≠ 3 by omega,
      BitVec.getLsbD_of_ge s.lastOp (k - 8) (by omega)]
  · intro k hk
    simp [show ¬ 8 ≤ k by omega]
  · intro k _
    simp
  · intro k hk
    simp [BitVec.getLsbD_of_ge s.errCode.cause k (by omega), BitVec.getLsbD_of_ge s.errCode.sub (k - 8) (by omega)]
  · intro hidle
    have hb : s.seq.isBusy = false := by rw [hidle]; rfl
    exact ⟨hostRead_register s 8#32 .STATUS (by decide) (by decide) (by decide) (.inl hb),
      hostRead_register s 12#32 .ERRCODE (by decide) (by decide) (by decide) (.inl hb),
      hostRead_register s 16#32 .ERRPOS (by decide) (by decide) (by decide) (.inl hb)⟩

/-- Settles O17, from the one law of a register write and the one of a register read. -/
theorem lengthRegistersStoreAndReadBack : Obligations.LengthRegistersStoreAndReadBack := by
  intro s v hidle
  have hb : s.seq.isBusy = false := by rw [hidle]; rfl
  have hread (a : Word) (r : CsrName) (hlt : a.toNat < 0x1000) (hal : a.toNat % 4 = 0) (hr : csrAt a.toNat = some r) :=
    hostRead_register s a r hlt hal hr (.inl hb)
  simp only [BitVec.ofNat_toNat]
  refine ⟨hostWrite_register s _ v .IN_LEN (by decide) (by decide) (by decide) (by decide) hb,
    hostWrite_register s _ v .PAY_LEN (by decide) (by decide) (by decide) (by decide) hb,
    hostWrite_register s _ v .TXT_LEN (by decide) (by decide) (by decide) (by decide) hb,
    hostWrite_register s _ v .RTXT_LEN (by decide) (by decide) (by decide) (by decide) hb,
    hread _ .IN_LEN (by decide) (by decide) (by decide), hread _ .PAY_LEN (by decide) (by decide) (by decide),
    hread _ .TXT_LEN (by decide) (by decide) (by decide), hread _ .RTXT_LEN (by decide) (by decide) (by decide),
    hread _ .OUT_LEN (by decide) (by decide) (by decide), hread _ .NSYM (by decide) (by decide) (by decide),
    hread _ .NNODE (by decide) (by decide) (by decide), hread _ .ROOT (by decide) (by decide) (by decide), ?_⟩
  intro k hlo hhi hal
  have hk : (BitVec.ofNat 32 k).toNat = k := by simp; omega
  rw [hostRead_csr s _ (by omega) (by omega) (.inl hb), hk]
  simp [State.readAt, csrAt_reserved k hlo]

/-- ID and the CAP registers read their constants in every state, BUSY or not (R24, R37, R249). -/
theorem hostRead_constants (s : State) :
    (s.hostRead 32 0x00#32).reply = some { data := 0x48554631#32, error := false } ∧
    (s.hostRead 32 0x34#32).reply = some { data := BitVec.ofNat 32 s.cfg.ibufSize, error := false } ∧
    (s.hostRead 32 0x38#32).reply = some { data := BitVec.ofNat 32 s.cfg.obufSize, error := false } ∧
    (s.hostRead 32 0x3C#32).reply = some { data := BitVec.ofNat 32 s.cfg.pbufBits, error := false } ∧
    (s.hostRead 32 0x40#32).reply = some { data := BitVec.ofNat 32 s.cfg.rbufSize, error := false } ∧
    (s.hostRead 32 0x44#32).reply = some { data := 0x00010400#32, error := false } := by
  have hread (a : Word) (r : CsrName) (hlt : a.toNat < 0x1000) (hal : a.toNat % 4 = 0) (hr : csrAt a.toNat = some r)
      (hbusy : readableWhileBusy .csr a.toNat = true) := hostRead_register s a r hlt hal hr (.inr hbusy)
  exact ⟨hread _ .ID (by decide) (by decide) (by decide) (by decide),
    hread _ .CAP_IBUF (by decide) (by decide) (by decide) (by decide),
    hread _ .CAP_OBUF (by decide) (by decide) (by decide) (by decide),
    hread _ .CAP_PBUF (by decide) (by decide) (by decide) (by decide),
    hread _ .CAP_RBUF (by decide) (by decide) (by decide) (by decide),
    hread _ .CAP_TBUF (by decide) (by decide) (by decide) (by decide)⟩

end Sys2Proof.Machine
end

section
/-! What a command commits, said once per command, and its frame (R49, R71, R91, R204 to R206). -/

namespace Sys2Proof.Machine

open Sys2Proof

/-- `c` is what command `i` commits on `s` before its completion without error (R204). -/
def Commits (i : Instr) (s c : State) : Prop :=
  match i with
  | .count => runCount s = .ok c
  | .build => runBuild s = .ok c
  | .codegen => ∃ table m, deriveCodes s.node s.root = some (table, m) ∧ c = { s with ct := table, nsym := BitVec.ofNat 9 m }
  | .encode => runEncode s = .ok c
  | .decode => runDecode s = .ok c
  | .tabser => runTabser s = .ok c
  | .tabparse => runTabparse s = .ok c
  | .bits2txt => runBits2txt s = .ok c
  | .txt2bits => runTxt2bits s = .ok c

theorem settle_cases (s : State) (i : Instr) (e : Except Raise State) :
    (∃ r, s.settle i e = s.completeError i r) ∨ ∃ c, e = .ok c ∧ s.settle i e = c.completeOk := by
  cases e with
  | error r => exact .inl ⟨r, rfl⟩
  | ok c => exact .inr ⟨c, rfl, rfl⟩

/-- A command that answers a next state either raises or completes what it commits (R204, R205). -/
theorem exec_cases {i : Instr} {s t : State} (h : exec i s = .next t) :
    (∃ r, t = s.completeError i r) ∨ ∃ c, Commits i s c ∧ t = c.completeOk := by
  cases i with
  | codegen =>
    rcases exec_codegen_cases s with ⟨table, m, hd, he⟩ | ⟨_, he⟩
    · rw [he] at h
      cases h
      exact .inr ⟨_, ⟨table, m, hd, rfl⟩, rfl⟩
    · rw [he] at h
      cases h
  | count => cases h; exact settle_cases s .count _
  | build => cases h; exact settle_cases s .build _
  | encode => cases h; exact settle_cases s .encode _
  | decode => cases h; exact settle_cases s .decode _
  | tabser => cases h; exact settle_cases s .tabser _
  | tabparse => cases h; exact settle_cases s .tabparse _
  | bits2txt => cases h; exact settle_cases s .bits2txt _
  | txt2bits => cases h; exact settle_cases s .txt2bits _

/-! What each command commits. -/

theorem commits_count {s c : State} (h : Commits .count s c) :
    s.inLen.toNat ≤ s.cfg.ibufSize ∧ c = { s with freq := (tabulate s.inputBytes).map (BitVec.ofNat 32) } := by
  simp only [Commits, runCount] at h
  split at h
  · cases h
  · cases h
    exact ⟨by omega, rfl⟩

/-- The merges BUILD makes for the counts `f` (R120). -/
def builtMerges (f : FreqTable) : Merged :=
  mergeLoop (occurring f).length ((occurring f).length + 1) (seedQueue (occurring f))

/-- The nodes BUILD makes for the counts `f`, from index 0 on (R120). -/
def builtNodes (f : FreqTable) : List Node := .none :: ((occurring f).map leafOf ++ (builtMerges f).nodes)

theorem commits_build {s c : State} (h : Commits .build s c) :
    c = { s with node := arenaOf (builtNodes s.freq), root := BitVec.ofNat 9 (builtMerges s.freq).root
                 nnode := BitVec.ofNat 10 ((occurring s.freq).length + (builtMerges s.freq).nodes.length) } := by
  cases h
  rfl

theorem commits_encode {s c : State} (h : Commits .encode s c) :
    ∃ u, encodeFrom s.ct s.cfg.pbufBits 0 0 s.inputBytes = .ok u ∧ c = s.putPayload u := by
  simp only [Commits, runEncode] at h
  split at h
  · cases h
  · split at h
    · rename_i u hu
      cases h
      exact ⟨u, hu, rfl⟩
    · cases h

theorem commits_decode {s c : State} (h : Commits .decode s c) :
    ∃ xs, decodeFrom s.ct s.cfg.obufSize 0 0 [] 0 s.payloadBits = .ok xs ∧
      c = { s.writeBytes .obuf 0 xs with outLen := lenWord xs.length } := by
  simp only [Commits, runDecode] at h
  split at h
  · cases h
  · split at h
    · rename_i xs hxs
      cases h
      exact ⟨xs, hxs, rfl⟩
    · cases h

theorem commits_tabser {s c : State} (h : Commits .tabser s c) :
    c = { s.writeBytes .tbuf 0 (tableTextOf s.ct) with txtLen := lenWord (tableTextOf s.ct).length } := by
  cases h
  rfl

theorem commits_tabparse {s c : State} (h : Commits .tabparse s c) :
    ∃ table, parseLines emptyTable (tableLines s.tableText) = .ok table ∧
      c = { s with ct := table, nsym := BitVec.ofNat 9 (tableLines s.tableText).length } := by
  simp only [Commits, runTabparse] at h
  split at h
  · cases h
  · split at h
    · rename_i table ht
      cases h
      exact ⟨table, ht, rfl⟩
    · cases h

theorem commits_bits2txt {s c : State} (h : Commits .bits2txt s c) :
    s.payLen.toNat ≤ s.cfg.rbufSize ∧
      c = { s.writeBytes .rbuf 0 (s.payloadBits.map charOfBit) with rtxtLen := s.payLen } := by
  simp only [Commits, runBits2txt] at h
  split at h
  · cases h
  · split at h
    · cases h
    · cases h
      exact ⟨by omega, rfl⟩

theorem commits_txt2bits {s c : State} (h : Commits .txt2bits s c) :
    s.rtxtLen.toNat ≤ s.cfg.pbufBits ∧ c = s.putPayload (s.renderedText.map bitOfChar) := by
  simp only [Commits, runTxt2bits] at h
  split at h
  · cases h
  · split at h
    · cases h
    · split at h
      · cases h
      · cases h
        exact ⟨by omega, rfl⟩

/-! The lengths the commands write, each within its buffer (R31, R61, R71). -/

/-- ENCODE's payload fits PBUF (R140). -/
theorem encodeFrom_length {t : CodeTable} {capacity i q : Nat} {xs : List Byte} {u : Bits} (hq : q ≤ capacity)
    (h : encodeFrom t capacity i q xs = .ok u) : q + u.length ≤ capacity := by
  induction xs generalizing i q u with
  | nil => cases h; exact hq
  | cons x xs ih =>
    simp only [encodeFrom] at h
    split at h
    · cases h
    · split at h
      · cases h
      · split at h
        · rename_i c _ hfit v hv
          cases h
          have := ih (by omega) hv
          simp only [List.length_append, Code.len] at this ⊢
          omega
        · cases h

/-- DECODE's output fits OBUF (R151). -/
theorem decodeFrom_length {t : CodeTable} {capacity p start out : Nat} {u bits : Bits} {xs : List Byte}
    (hout : out ≤ capacity) (h : decodeFrom t capacity p start u out bits = .ok xs) : out + xs.length ≤ capacity := by
  induction bits generalizing p start u out xs with
  | nil =>
    simp only [decodeFrom] at h
    split at h
    · cases h; exact hout
    · cases h
  | cons b rest ih =>
    simp only [decodeFrom] at h
    split at h
    · split at h
      · exact ih hout h
      · split at h
        · cases h
        · split at h
          · rename_i hfull ys hys
            cases h
            have := ih (by omega) hys
            simp only [List.length_cons]
            omega
          · cases h
    · cases h

theorem decimal_length_le (x : Byte) : (decimal x).length ≤ 3 := by
  simp only [decimal]
  split
  · simp
  · split <;> simp

/-- A line of the code table and its newline have at most 260 bytes (R160). -/
theorem tableLine_length_le (x : Byte) (c : Code) : (tableLine x c).length ≤ 259 := by
  have hc := c.len_range
  have hd := decimal_length_le x
  simp only [tableLine, List.length_append, List.length_map, List.length_cons]
  omega

theorem insertLine_perm (l : List Byte) (ls : List (List Byte)) : (insertLine l ls).Perm (l :: ls) := by
  induction ls with
  | nil => exact .refl _
  | cons m ms ih =>
    unfold insertLine
    split
    · exact .refl _
    · exact (ih.cons m).trans (.swap l m ms)

theorem sortLines_perm (ls : List (List Byte)) : (sortLines ls).Perm ls := by
  induction ls with
  | nil => exact .refl _
  | cons l ls ih => exact (insertLine_perm l _).trans (ih.cons l)

theorem validEntries_length_le (t : CodeTable) : (validEntries t).length ≤ 256 := by
  rw [validEntries_eq]
  exact (List.length_filterMap_le _ _).trans (by simp)

/-- The serialized table fits TBUF (R8, R162). -/
theorem tableTextOf_length_le (t : CodeTable) : (tableTextOf t).length ≤ Config.tbufSize := by
  have hlines : (sortLines ((validEntries t).map fun e => tableLine e.1 e.2)).length ≤ 256 := by
    rw [(sortLines_perm _).length_eq, List.length_map]
    exact validEntries_length_le t
  have hline : ∀ l ∈ sortLines ((validEntries t).map fun e => tableLine e.1 e.2), (l ++ [newlineChar]).length ≤ 260 := by
    intro l hl
    obtain ⟨e, _, rfl⟩ := List.mem_map.mp ((sortLines_perm _).mem_iff.mp hl)
    have := tableLine_length_le e.1 e.2
    simp only [List.length_append, List.length_singleton]
    omega
  have hsum := List.sum_le_card_nsmul ((sortLines ((validEntries t).map fun e => tableLine e.1 e.2)).map
    fun l => (l ++ [newlineChar]).length) 260 (by simpa using hline)
  simp only [tableTextOf, List.length_flatMap, Config.tbufSize]
  simp only [List.length_map, smul_eq_mul] at hsum
  omega

end Sys2Proof.Machine
end

section
/-! Who writes what (R39 to R46, R49): O18, O27, O54 and O57. -/

namespace Sys2Proof.Machine

open Sys2Proof

/-! The frame of a command. -/

/-- The lengths of a committed payload and output read back as they are: they fit their registers (R44). -/
theorem lenWord_toNat {n : Nat} (h : n < 4294967296) : (lenWord n).toNat = n := by
  simp [lenWord, Nat.mod_eq_of_lt h]

/-- A payload write leaves every PBUF byte past its last one (R71). -/
theorem byteAt_putPayload_past (s : State) (u : Bits) (k : Nat) (h : (u.length + 7) / 8 ≤ k) :
    (s.putPayload u).byteAt .pbuf k = s.byteAt .pbuf k :=
  byteAt_writeBytes_outside s .pbuf .pbuf 0 k (packBits u) (by simp; omega)

/-- What an error completion of a command other than ENCODE and DECODE leaves (R205). -/
theorem completeError_of_ne (s : State) (i : Instr) (r : Raise) (hi : i ≠ .encode ∧ i ≠ .decode) :
    s.completeError i r = s.recordError r.error r.pos := by
  rcases spoil_cases s i r.error with ⟨he, _⟩ | ⟨hd, _⟩ | hs
  · exact absurd he hi.1
  · exact absurd hd hi.2
  · rw [State.completeError, hs]

theorem completeError_err (s : State) (i : Instr) (r : Raise) : (s.completeError i r).err = true := rfl

/-- A payload that has been written is read back at its length. -/
theorem putPayload_payLen {s : State} {u : Bits} (h : u.length ≤ s.cfg.pbufBits) :
    (s.putPayload u).payLen.toNat = u.length := by
  have := s.cfg.pbuf_range
  exact lenWord_toNat (by omega)

/-- BUILD raises nothing (R120). -/
theorem exec_build_commits {s t : State} (h : exec .build s = .next t) : ∃ c, Commits .build s c ∧ t = c.completeOk := by
  cases h
  exact ⟨_, rfl, rfl⟩

/-- TABSER raises nothing (R162). -/
theorem exec_tabser_commits {s t : State} (h : exec .tabser s = .next t) :
    ∃ c, Commits .tabser s c ∧ t = c.completeOk := by
  cases h
  exact ⟨_, rfl, rfl⟩

/-- NODE[k] of an arena made from a list of nodes. -/
theorem nodeNo_arenaOf (nodes : List Node) {k : Nat} (hk : k < 512) :
    nodeNo (arenaOf nodes) k = (nodes[k]?).getD .none := by
  have hget : (arenaOf nodes)[k]? = (nodes ++ List.replicate 512 Node.none)[k]? := by
    simp only [arenaOf, Vector.getElem?_mk, List.getElem?_toArray, List.getElem?_take_of_lt hk]
  rw [nodeNo, hget]
  by_cases hlt : k < nodes.length
  · rw [List.getElem?_append_left hlt]
  · rw [List.getElem?_append_right (by omega), List.getElem?_eq_none (l := nodes) (by omega),
      List.getElem?_replicate_of_lt (by omega)]
    rfl

/-- Settles O27, command by command from what each commits and from what an error completion leaves. -/
theorem commandsWriteOnlyTheirRow : Obligations.CommandsWriteOnlyTheirRow := by
  intro i s t h
  cases i with
  | count =>
    rcases exec_cases h with ⟨r, rfl⟩ | ⟨c, hc, rfl⟩
    · rw [completeError_of_ne s _ r (by decide)]
      rfl
    · obtain ⟨_, rfl⟩ := commits_count hc
      rfl
  | build =>
    obtain ⟨c, hc, rfl⟩ := exec_build_commits h
    obtain rfl := commits_build hc
    exact ⟨rfl, nodeNo_arenaOf _ (by decide)⟩
  | codegen =>
    rcases exec_cases h with ⟨r, rfl⟩ | ⟨c, ⟨table, m, _, rfl⟩, rfl⟩
    · rw [completeError_of_ne s _ r (by decide)]
      rfl
    · rfl
  | encode =>
    rcases exec_cases h with ⟨r, rfl⟩ | ⟨c, hc, rfl⟩
    · refine ⟨?_, fun he => absurd he (by simp [completeError_err])⟩
      rcases spoil_cases s .encode r.error with ⟨_, hs⟩ | ⟨hd, _⟩ | hs
      · rw [State.completeError, hs]; rfl
      · cases hd
      · rw [State.completeError, hs]; rfl
    · obtain ⟨u, hu, rfl⟩ := commits_encode hc
      have hlen := encodeFrom_length (Nat.zero_le _) hu
      refine ⟨rfl, fun _ => ⟨rfl, fun k hk => ?_⟩⟩
      rw [completeOk_payLen, putPayload_payLen (by omega)] at hk
      exact byteAt_putPayload_past s u k hk
  | decode =>
    rcases exec_cases h with ⟨r, rfl⟩ | ⟨c, hc, rfl⟩
    · refine ⟨?_, fun he => absurd he (by simp [completeError_err])⟩
      rcases spoil_cases s .decode r.error with ⟨he, _⟩ | ⟨_, hs⟩ | hs
      · cases he
      · rw [State.completeError, hs]; rfl
      · rw [State.completeError, hs]; rfl
    · obtain ⟨xs, hxs, rfl⟩ := commits_decode hc
      have hlen := decodeFrom_length (Nat.zero_le _) hxs
      have hcap := s.cfg.obuf_range
      refine ⟨rfl, fun _ => ⟨rfl, fun k hk => ?_⟩⟩
      have hk' : xs.length ≤ k := by rwa [← lenWord_toNat (n := xs.length) (by omega)]
      exact byteAt_writeBytes_outside s .obuf .obuf 0 k xs (by omega)
  | tabser =>
    obtain ⟨c, hc, rfl⟩ := exec_tabser_commits h
    obtain rfl := commits_tabser hc
    have hlen := tableTextOf_length_le s.ct
    refine ⟨rfl, fun k hk => ?_⟩
    have hk' : (tableTextOf s.ct).length ≤ k := by
      rwa [← lenWord_toNat (n := (tableTextOf s.ct).length) (by simp only [Config.tbufSize] at hlen; omega)]
    exact byteAt_writeBytes_outside s .tbuf .tbuf 0 k _ (by omega)
  | tabparse =>
    rcases exec_cases h with ⟨r, rfl⟩ | ⟨c, hc, rfl⟩
    · rw [completeError_of_ne s _ r (by decide)]
      rfl
    · obtain ⟨table, _, rfl⟩ := commits_tabparse hc
      rfl
  | bits2txt =>
    rcases exec_cases h with ⟨r, rfl⟩ | ⟨c, hc, rfl⟩
    · rw [completeError_of_ne s _ r (by decide)]
      exact ⟨rfl, fun k _ => rfl⟩
    · obtain ⟨_, rfl⟩ := commits_bits2txt hc
      refine ⟨rfl, fun k hk => ?_⟩
      have hk' : s.payLen.toNat ≤ k := hk
      exact byteAt_writeBytes_outside s .rbuf .rbuf 0 k _ (by simp [State.payloadBits]; omega)
  | txt2bits =>
    rcases exec_cases h with ⟨r, rfl⟩ | ⟨c, hc, rfl⟩
    · rw [completeError_of_ne s _ r (by decide)]
      exact ⟨rfl, fun k _ => rfl⟩
    · obtain ⟨hfit, rfl⟩ := commits_txt2bits hc
      refine ⟨rfl, fun k hk => ?_⟩
      rw [completeOk_payLen, putPayload_payLen (by simpa [State.renderedText] using hfit)] at hk
      exact byteAt_putPayload_past s _ k hk

/-! What a completion changes of the registers, the arrays and IBUF. -/

/-- An error completion writes nothing but what R205 and R206 name. -/
theorem completeError_frame (s : State) (i : Instr) (r : Raise) :
    s.completeError i r = { s.recordError r.error r.pos with
      pbuf := (s.completeError i r).pbuf, obuf := (s.completeError i r).obuf, draws := (s.completeError i r).draws } := by
  rcases spoil_cases s i r.error with ⟨_, hs⟩ | ⟨_, hs⟩ | hs <;> rw [State.completeError, hs] <;> rfl

/-- The opcode map read backwards (R92). -/
theorem eq_opcode_of_lookup {op : BitVec 8} {i : Instr} (h : opcodeMap.lookup op = some i) : op = opcode i := by
  have hmap : ∀ p ∈ opcodeMap, p.1 = opcode p.2 := by decide
  obtain ⟨l₁, l₂, hl, _⟩ := List.lookup_eq_some_iff.mp h
  exact hmap (op, i) (by simp [hl])

/-- A word is the word of its own fields (R90). -/
theorem toWord_ofWord (w : Word) : (RawCommand.ofWord w).toWord = w := by
  apply BitVec.eq_of_getLsbD_eq
  intro k hk
  simp only [RawCommand.ofWord, RawCommand.toWord, BitVec.getLsbD_append, BitVec.getLsbD_extractLsb']
  by_cases h : k < 8
  · simp [h]
  · simp [h, show k - 8 < 24 by omega, show 8 + (k - 8) = k by omega]

/-- The only word that decodes to a command is its own (R92 to R94). -/
theorem eq_encode_of_decode {w : Word} {i : Instr} (h : decode w = .command i) : w = encode i := by
  simp only [decode, decodeRaw] at h
  split at h
  · cases h
  · rename_i j hj
    split at h
    · rename_i hr
      cases h
      rw [encode, ← eq_opcode_of_lookup hj, ← hr]
      exact (toWord_ofWord w).symm
    · cases h

/-- What the completion of the word `w` leaves of the registers, the arrays and IBUF. -/
structure Completed (w : Word) (s t : State) : Prop where
  cfg : t.cfg = s.cfg
  seq : t.seq = .idle
  done : t.done = true
  ovr : t.ovr = s.ovr
  ibuf : t.ibuf = s.ibuf
  freq : t.freq = s.freq ∨ w = encode .count
  node : t.node = s.node ∨ w = encode .build
  ct : t.ct = s.ct ∨ w = encode .codegen ∨ w = encode .tabparse

/-- What a command commits leaves every array but its own (R39, R40, R42). -/
theorem completed_of_commits {i : Instr} {s c : State} (h : Commits i s c) : Completed (encode i) s c.completeOk := by
  cases i with
  | count =>
    obtain ⟨_, rfl⟩ := commits_count h
    exact ⟨rfl, rfl, rfl, rfl, rfl, .inr rfl, .inl rfl, .inl rfl⟩
  | build =>
    obtain rfl := commits_build h
    exact ⟨rfl, rfl, rfl, rfl, rfl, .inl rfl, .inr rfl, .inl rfl⟩
  | codegen =>
    obtain ⟨table, m, _, rfl⟩ := h
    exact ⟨rfl, rfl, rfl, rfl, rfl, .inl rfl, .inl rfl, .inr (.inl rfl)⟩
  | encode =>
    obtain ⟨u, _, rfl⟩ := commits_encode h
    exact ⟨rfl, rfl, rfl, rfl, rfl, .inl rfl, .inl rfl, .inl rfl⟩
  | decode =>
    obtain ⟨xs, _, rfl⟩ := commits_decode h
    exact ⟨rfl, rfl, rfl, rfl, rfl, .inl rfl, .inl rfl, .inl rfl⟩
  | tabser =>
    obtain rfl := commits_tabser h
    exact ⟨rfl, rfl, rfl, rfl, rfl, .inl rfl, .inl rfl, .inl rfl⟩
  | tabparse =>
    obtain ⟨table, _, rfl⟩ := commits_tabparse h
    exact ⟨rfl, rfl, rfl, rfl, rfl, .inl rfl, .inl rfl, .inr (.inr rfl)⟩
  | bits2txt =>
    obtain ⟨_, rfl⟩ := commits_bits2txt h
    exact ⟨rfl, rfl, rfl, rfl, rfl, .inl rfl, .inl rfl, .inl rfl⟩
  | txt2bits =>
    obtain ⟨_, rfl⟩ := commits_txt2bits h
    exact ⟨rfl, rfl, rfl, rfl, rfl, .inl rfl, .inl rfl, .inl rfl⟩

/-- Every completion (R204, R205). -/
theorem completed_of_complete {w : Word} {s t : State} (h : complete w s = .next t) : Completed w s t := by
  rcases complete_cases h with ⟨i, hi, he⟩ | ⟨why, _, rfl⟩
  · rcases exec_cases he with ⟨r, rfl⟩ | ⟨c, hc, rfl⟩
    · rw [completeError_frame]
      exact ⟨rfl, rfl, rfl, rfl, rfl, .inl rfl, .inl rfl, .inl rfl⟩
    · rw [eq_encode_of_decode hi]
      exact completed_of_commits hc
  · exact ⟨rfl, rfl, rfl, rfl, rfl, .inl rfl, .inl rfl, .inl rfl⟩

/-! What a host operation changes of them. -/

/-- A CMD write changes nothing but SEQ, the registers of an acceptance and the latencies (R203, R208). -/
theorem requestCommand_frame (s : State) (w : Word) :
    ∃ seq done err ovr lastOp errCode errPos latencies, s.requestCommand w =
      { s with seq := seq, done := done, err := err, ovr := ovr, lastOp := lastOp, errCode := errCode, errPos := errPos,
               latencies := latencies } := by
  unfold State.requestCommand
  split
  · exact ⟨_, _, _, _, _, _, _, _, rfl⟩
  · rcases accept_cases s w with ⟨_, _, ha⟩ | ⟨_, _, ha⟩ <;> rw [ha] <;> exact ⟨_, _, _, _, _, _, _, _, rfl⟩

/-- The parameters and the arrays FREQ, NODE and CT are the same. -/
structure ArraysKept (s t : State) : Prop where
  cfg : t.cfg = s.cfg
  freq : t.freq = s.freq
  node : t.node = s.node
  ct : t.ct = s.ct

theorem arraysKept_writeAt (s : State) (r : Region) (off bits : Nat) (v : Word) :
    ArraysKept s ((s.writeAt r off bits v).answer 0#32 false) := by
  rcases writeAt_cases s r off bits v with hw | ⟨b, _, hw⟩ <;> rw [hw]
  · exact ⟨rfl, rfl, rfl, rfl⟩
  · exact ⟨by simp, by simp, by simp, by simp⟩

/-- A host operation is a reset, or leaves the arrays; it leaves IBUF too, unless it is a write while IDLE. -/
theorem hostTurn_arraysKept {s t : State} {op : HostOp} (h : s.hostTurn op = .next t) :
    (∃ during, op = .reset during ∧ t = s.resetTurn during) ∨
    ArraysKept s t ∧ (t.ibuf = s.ibuf ∨ s.seq.isBusy = false ∧ ∃ bits a v, op = .access (.write bits a v)) := by
  rcases hostTurn_cases h with ht | ⟨v, _, rfl⟩ | ⟨bits, a, v, r, off, hop, hidle, _, rfl⟩ | hreset
  · rw [ht]
    exact .inr ⟨⟨rfl, rfl, rfl, rfl⟩, .inl rfl⟩
  · obtain ⟨_, _, _, _, _, _, _, _, hr⟩ := requestCommand_frame s v
    rw [hr]
    exact .inr ⟨⟨rfl, rfl, rfl, rfl⟩, .inl rfl⟩
  · exact .inr ⟨arraysKept_writeAt s r off bits v, .inr ⟨hidle, bits, a, v, hop⟩⟩
  · exact .inl hreset

theorem hostTurn_cfg {s t : State} {op : HostOp} (h : s.hostTurn op = .next t) : t.cfg = s.cfg := by
  rcases hostTurn_arraysKept h with ⟨during, _, rfl⟩ | ⟨kept, _⟩
  · rw [resetTurn_frame]
    rfl
  · exact kept.cfg

/-- Settles O18: the reads by the law of a register read, the steps by the cases of a step. -/
theorem identityAndCapacitiesAreConstant : Obligations.IdentityAndCapacitiesAreConstant := by
  refine ⟨hostRead_constants, fun s t h => ?_⟩
  rcases step_cases h with ⟨_, _, rfl⟩ | ⟨op, rest, _, _, ht⟩ | ⟨w, wait, _, _, hc⟩ | ⟨w, wait, op, rest, _, _, ht⟩
  · rfl
  · have hcfg := hostTurn_cfg ht
    exact hcfg
  · exact (completed_of_complete hc).cfg
  · have hcfg := hostTurn_cfg ht
    exact hcfg

/-- Settles O54, by the cases of a step. -/
theorem arraysAreWrittenOnlyByTheirCommands : Obligations.ArraysAreWrittenOnlyByTheirCommands := by
  intro s t h
  rcases step_cases h with ⟨_, _, rfl⟩ | ⟨op, rest, hs, hh, ht⟩ | ⟨w, n, hs, hn, hc⟩ | ⟨w, n, op, rest, hs, hh, ht⟩
  · exact .inr ⟨.inl rfl, .inl rfl, .inl rfl, .inl rfl⟩
  · rcases hostTurn_arraysKept ht with ⟨during, rfl, _⟩ | ⟨kept, hibuf⟩
    · exact .inl ⟨⟨during, rest, hh⟩, by simp [hs]⟩
    · refine .inr ⟨.inl kept.freq, .inl kept.node, .inl kept.ct, hibuf.imp_right ?_⟩
      rintro ⟨_, bits, a, v, rfl⟩
      exact ⟨bits, a, v, rest, hs, hh⟩
  · have done := completed_of_complete hc
    exact .inr ⟨done.freq.imp_right fun hw => ⟨w, n, hs, hn, done.seq, hw⟩,
      done.node.imp_right fun hw => ⟨w, n, hs, hn, done.seq, hw⟩,
      done.ct.imp_right fun hw => ⟨w, n, hs, hn, done.seq, hw⟩, .inl done.ibuf⟩
  · rcases hostTurn_arraysKept ht with ⟨during, rfl, _⟩ | ⟨kept, hibuf | ⟨hidle, _⟩⟩
    · exact .inl ⟨⟨during, rest, hh⟩, by simp [hs]⟩
    · exact .inr ⟨.inl kept.freq, .inl kept.node, .inl kept.ct, .inl hibuf⟩
    · cases hidle

/-! The flags (R46). -/

theorem requestCommand_busy {s : State} (w : Word) (h : s.seq.isBusy = true) :
    s.requestCommand w = { s with ovr := true } := by
  simp [State.requestCommand, h]

theorem requestCommand_idle {s : State} (w : Word) (h : s.seq.isBusy = false) : s.requestCommand w = s.accept w := by
  simp [State.requestCommand, h]

/-- The flags after an acceptance (R203; for an illegal word R205). -/
theorem accept_flags (s : State) (w : Word) :
    (s.accept w).ovr = false ∧
      (((s.accept w).seq.isBusy = true ∧ (s.accept w).done = false ∧ (s.accept w).err = false) ∨
        ((s.accept w).seq = .idle ∧ (s.accept w).done = true ∧ (s.accept w).err = true)) := by
  rcases accept_cases s w with ⟨_, _, ha⟩ | ⟨_, _, ha⟩ <;> rw [ha]
  · exact ⟨rfl, .inl ⟨rfl, rfl, rfl⟩⟩
  · exact ⟨rfl, .inr ⟨rfl, rfl, rfl⟩⟩

/-- The four flags of STATUS are the same. -/
def State.SameFlags (s t : State) : Prop :=
  t.seq.isBusy = s.seq.isBusy ∧ t.done = s.done ∧ t.err = s.err ∧ t.ovr = s.ovr

theorem sameFlags_writeAt (s : State) (r : Region) (off bits : Nat) (v : Word) :
    s.SameFlags ((s.writeAt r off bits v).answer 0#32 false) := by
  rcases writeAt_cases s r off bits v with hw | ⟨b, _, hw⟩ <;> rw [hw]
  · exact ⟨rfl, rfl, rfl, rfl⟩
  · exact ⟨by simp, by simp, by simp, by simp⟩

/-- A host operation that changes a flag is a CMD write or a reset. -/
theorem hostTurn_flags {s t : State} {op : HostOp} (h : s.hostTurn op = .next t) :
    s.SameFlags t ∨
    (∃ v, op = .access (.write 32 4#32 v) ∧ t = (s.requestCommand v).answer 0#32 false) ∨
    (∃ during, op = .reset during ∧ t.seq = .idle ∧ t.done = false ∧ t.err = false ∧ t.ovr = false) := by
  rcases hostTurn_cases h with ht | hcmd | ⟨bits, a, v, r, off, _, _, _, rfl⟩ | ⟨during, hd, rfl⟩
  · rw [ht]
    exact .inl ⟨rfl, rfl, rfl, rfl⟩
  · exact .inr (.inl hcmd)
  · exact .inl (sameFlags_writeAt s r off bits v)
  · refine .inr (.inr ⟨during, hd, ?_⟩)
    rw [resetTurn_frame]
    exact ⟨rfl, rfl, rfl, rfl⟩

/-- Settles O57, by the cases of a step. -/
theorem flagsChangeOnlyByTransitions : Obligations.FlagsChangeOnlyByTransitions := by
  intro s t h
  rcases step_cases h with ⟨_, _, rfl⟩ | ⟨op, rest, hs, hh, ht⟩ | ⟨w, n, hs, hn, hc⟩ | ⟨w, n, op, rest, hs, hh, ht⟩
  · exact .inl ⟨rfl, rfl, rfl, rfl⟩
  · rcases hostTurn_flags ht with hsame | ⟨v, rfl, rfl⟩ | ⟨during, rfl, hflags⟩
    · exact .inl hsame
    · refine .inr (.inl ⟨v, rest, hs, hh, ?_⟩)
      rw [requestCommand_idle v (by simp [hs, Seq.isBusy])]
      exact accept_flags _ v
    · exact .inr (.inr (.inr (.inr ⟨during, rest, hh, hflags⟩)))
  · have done := completed_of_complete hc
    exact .inr (.inr (.inl ⟨w, n, hs, done.seq, done.done, done.ovr⟩))
  · have hbusy : s.seq.isBusy = true := by rw [hs]; rfl
    rcases hostTurn_flags ht with ⟨hb, hrest⟩ | ⟨v, rfl, rfl⟩ | ⟨during, rfl, hflags⟩
    · exact .inl ⟨hb.trans hbusy.symm, hrest⟩
    · refine .inr (.inr (.inr (.inl ⟨v, rest, hbusy, hh, ?_⟩)))
      rw [requestCommand_busy v rfl]
      exact ⟨rfl, rfl, rfl, rfl⟩
    · exact .inr (.inr (.inr (.inr ⟨during, rest, hh, hflags⟩)))

end Sys2Proof.Machine
end

section
/-! The tree BUILD makes (R41, R120, R122): the merge loop by one induction over its turns. -/

namespace Sys2Proof.Machine

open Sys2Proof

/-- The indices of a node's children (R40). -/
def Node.children : Node → List Nat
  | .internal _ l r => [l.toNat, r.toNat]
  | .none => []
  | .leaf _ _ => []

/-- FREQ of the node at index `i` of a list of nodes, 0 past its end. -/
def freqIn (nodes : List Node) (i : Nat) : Nat := ((nodes[i]?).getD .none).freq.toNat

theorem freqIn_append_left (nodes more : List Node) {i : Nat} (h : i < nodes.length) :
    freqIn (nodes ++ more) i = freqIn nodes i := by
  rw [freqIn, List.getElem?_append_left h, freqIn]

/-- Entry `k` is an internal node whose children stand below it, its FREQ their sum (R41). -/
def MergedAt (nodes : List Node) (k : Nat) : Prop :=
  ∃ f l r, nodes[k]? = some (.internal f l r) ∧ l.toNat < k ∧ r.toNat < k ∧
    f.toNat = freqIn nodes l.toNat + freqIn nodes r.toNat

/-- The element two merged ones are put back as (R120). -/
def QueueItem.join (x y : QueueItem) (next : Nat) : QueueItem := { freq := x.freq + y.freq, idx := next }

/-- The internal node made of two queue elements, first left, second right (R120). -/
def mergedNode (x y : QueueItem) : Node :=
  .internal (BitVec.ofNat 32 (x.freq + y.freq)) (BitVec.ofNat 9 x.idx) (BitVec.ofNat 9 y.idx)

theorem extractMin_none {q : List QueueItem} (h : extractMin q = none) : q = [] := by
  cases q with
  | nil => rfl
  | cons x xs =>
    obtain ⟨m, rest, hm⟩ := extractMin_cons x xs
    rw [hm] at h
    cases h

/-- The merge loop by its turns: it stops on one element, and otherwise merges the first two extracted. -/
theorem mergeLoop_induction {motive : Nat → List QueueItem → Merged → Prop}
    (stop : ∀ next x, motive next [x] { nodes := [], root := x.idx })
    (merge : ∀ next queue queue1 x y queue2 rest, extractMin queue = some (x, queue1) → extractMin queue1 = some (y, queue2) →
      motive (next + 1) (x.join y next :: queue2) rest →
      motive next queue { nodes := mergedNode x y :: rest.nodes, root := rest.root })
    (turns next : Nat) (queue : List QueueItem) (hne : queue ≠ []) (hturns : queue.length ≤ turns) :
    motive next queue (mergeLoop turns next queue) := by
  induction turns generalizing next queue with
  | zero => exact absurd (List.length_eq_zero_iff.mp (by omega)) hne
  | succ turns ih =>
    unfold mergeLoop
    split
    · rename_i hx
      exact absurd (extractMin_none hx) hne
    · rename_i x queue1 hx
      have hperm := extractMin_perm _ _ _ hx
      split
      · rename_i hy
        obtain rfl := extractMin_none hy
        rw [List.perm_singleton.mp hperm]
        exact stop next x
      · rename_i y queue2 hy
        have hlen := hperm.length_eq
        have hlen1 := (extractMin_perm _ _ _ hy).length_eq
        simp only [List.length_cons] at hlen hlen1
        exact merge next queue queue1 x y queue2 _ hx hy
          (ih (next + 1) (x.join y next :: queue2) (by simp) (by simp only [List.length_cons]; omega))

/-- Two extractions take two elements out and leave the others. -/
theorem extractTwo_perm {queue queue1 queue2 : List QueueItem} {x y : QueueItem} (hx : extractMin queue = some (x, queue1))
    (hy : extractMin queue1 = some (y, queue2)) : queue.Perm (x :: y :: queue2) :=
  (extractMin_perm _ _ _ hx).trans ((extractMin_perm _ _ _ hy).cons x)

/-- A queue of n elements is merged n - 1 times. -/
theorem mergeLoop_length {turns next : Nat} {queue : List QueueItem} (hne : queue ≠ []) (hturns : queue.length ≤ turns) :
    (mergeLoop turns next queue).nodes.length + 1 = queue.length := by
  refine mergeLoop_induction (motive := fun _ queue m => m.nodes.length + 1 = queue.length) ?_ ?_ turns next queue hne hturns
  · intro _ _
    rfl
  · intro next queue queue1 x y queue2 rest hx hy ih
    have hlen := (extractTwo_perm hx hy).length_eq
    simp only [List.length_cons] at ih hlen ⊢
    omega

/-- Each element of the queue and each node made is the child of one node made, the root apart (R41). -/
theorem mergeLoop_children {turns next : Nat} {queue : List QueueItem} (hne : queue ≠ []) (hturns : queue.length ≤ turns)
    (hidx : ∀ q ∈ queue, q.idx < next) (hroom : next + queue.length ≤ 513) :
    ((mergeLoop turns next queue).nodes.flatMap Node.children ++ [(mergeLoop turns next queue).root]).Perm
      (queue.map QueueItem.idx ++ List.range' next (mergeLoop turns next queue).nodes.length) := by
  refine mergeLoop_induction (motive := fun next queue m => (∀ q ∈ queue, q.idx < next) → next + queue.length ≤ 513 →
    (m.nodes.flatMap Node.children ++ [m.root]).Perm (queue.map QueueItem.idx ++ List.range' next m.nodes.length))
    ?_ ?_ turns next queue hne hturns hidx hroom
  · intro next x _ _
    exact .refl _
  · intro next queue queue1 x y queue2 rest hx hy ih hidx hroom
    have hperm := extractTwo_perm hx hy
    have hlen := hperm.length_eq
    simp only [List.length_cons] at hlen
    have hx' := hidx x (hperm.mem_iff.mpr (by simp))
    have hy' := hidx y (hperm.mem_iff.mpr (by simp))
    have hchildren : (mergedNode x y).children = [x.idx, y.idx] := by
      simp only [mergedNode, Node.children, BitVec.toNat_ofNat]
      rw [Nat.mod_eq_of_lt (by omega), Nat.mod_eq_of_lt (by omega)]
    have hrest := ih (by
      intro q hq
      rcases List.mem_cons.mp hq with rfl | hq
      · exact Nat.lt_succ_self next
      · exact Nat.lt_succ_of_lt (hidx q (hperm.mem_iff.mpr (by simp [hq])))) (by simp only [List.length_cons]; omega)
    rw [List.flatMap_cons, hchildren, List.length_cons, List.range'_succ]
    calc
      List.Perm ([x.idx, y.idx] ++ rest.nodes.flatMap Node.children ++ [rest.root])
          ([x.idx, y.idx] ++ next :: (queue2.map QueueItem.idx ++ List.range' (next + 1) rest.nodes.length)) := by
        rw [List.append_assoc]
        exact hrest.append_left _
      List.Perm _ ([x.idx, y.idx] ++ (queue2.map QueueItem.idx ++ next :: List.range' (next + 1) rest.nodes.length)) :=
        List.perm_middle.symm.append_left _
      List.Perm _ (queue.map QueueItem.idx ++ next :: List.range' (next + 1) rest.nodes.length) := by
        rw [← List.append_assoc]
        exact (hperm.map QueueItem.idx).symm.append_right _

/-- Each node made stands above its children, its FREQ their sum. `nodes` are the ones made before, up to index `next`. -/
theorem mergeLoop_mergedAt {turns : Nat} {queue : List QueueItem} {nodes : List Node} (hne : queue ≠ [])
    (hturns : queue.length ≤ turns) (hqueue : ∀ q ∈ queue, q.idx < nodes.length ∧ freqIn nodes q.idx = q.freq)
    (hsum : (queue.map QueueItem.freq).sum < 4294967296) (hroom : nodes.length + queue.length ≤ 513) {k : Nat}
    (hlo : nodes.length ≤ k) (hhi : k < nodes.length + (mergeLoop turns nodes.length queue).nodes.length) :
    MergedAt (nodes ++ (mergeLoop turns nodes.length queue).nodes) k := by
  refine mergeLoop_induction (motive := fun next queue m => ∀ nodes : List Node, nodes.length = next →
    (∀ q ∈ queue, q.idx < next ∧ freqIn nodes q.idx = q.freq) → (queue.map QueueItem.freq).sum < 4294967296 →
    next + queue.length ≤ 513 → ∀ k, next ≤ k → k < next + m.nodes.length → MergedAt (nodes ++ m.nodes) k)
    ?_ ?_ turns nodes.length queue hne hturns nodes rfl hqueue hsum hroom k hlo hhi
  · intro next x nodes _ _ _ _ k hlo hhi
    simp only [List.length_nil] at hhi
    omega
  · intro next queue queue1 x y queue2 rest hx hy ih nodes hnext hqueue hsum hroom k hlo hhi
    have hperm := extractTwo_perm hx hy
    have hlen := hperm.length_eq
    have hfreqs := (hperm.map QueueItem.freq).sum_eq
    simp only [List.map_cons, List.sum_cons] at hfreqs
    simp only [List.length_cons] at hlen hhi
    obtain ⟨hxi, hxf⟩ := hqueue x (hperm.mem_iff.mpr (by simp))
    obtain ⟨hyi, hyf⟩ := hqueue y (hperm.mem_iff.mpr (by simp))
    have hf : (BitVec.ofNat 32 (x.freq + y.freq)).toNat = x.freq + y.freq := by
      rw [BitVec.toNat_ofNat, Nat.mod_eq_of_lt (by omega)]
    rcases Nat.eq_or_lt_of_le hlo with rfl | hlt
    · refine ⟨BitVec.ofNat 32 (x.freq + y.freq), BitVec.ofNat 9 x.idx, BitVec.ofNat 9 y.idx, ?_, ?_⟩
      · rw [List.getElem?_append_right (by omega), hnext, Nat.sub_self]
        rfl
      · have hl : (BitVec.ofNat 9 x.idx).toNat = x.idx := by rw [BitVec.toNat_ofNat, Nat.mod_eq_of_lt (by omega)]
        have hr : (BitVec.ofNat 9 y.idx).toNat = y.idx := by rw [BitVec.toNat_ofNat, Nat.mod_eq_of_lt (by omega)]
        rw [hl, hr, hf, freqIn_append_left _ _ (by omega), freqIn_append_left _ _ (by omega), hxf, hyf]
        exact ⟨hxi, hyi, rfl⟩
    · have happend : nodes ++ mergedNode x y :: rest.nodes = (nodes ++ [mergedNode x y]) ++ rest.nodes := by simp
      rw [happend]
      refine ih (nodes ++ [mergedNode x y]) (by simp [hnext]) ?_ ?_ ?_ k hlt (by omega)
      · intro q hq
        rcases List.mem_cons.mp hq with rfl | hq
        · refine ⟨Nat.lt_succ_self next, ?_⟩
          have hlast : freqIn (nodes ++ [mergedNode x y]) next = (mergedNode x y).freq.toNat := by simp [freqIn, ← hnext]
          exact hlast.trans hf
        · obtain ⟨hqi, hqf⟩ := hqueue q (hperm.mem_iff.mpr (by simp [hq]))
          exact ⟨by omega, by rw [freqIn_append_left _ _ (by omega), hqf]⟩
      · simp only [List.map_cons, List.sum_cons, QueueItem.join]
        omega
      · simp only [List.length_cons]
        omega

end Sys2Proof.Machine
end

section
/-! BUILD's arena is a tree as R41 gives it, whatever the counts are, when their sum is a 32-bit number (R9, R44). -/

namespace Sys2Proof.Machine

open Sys2Proof

/-! The leaves and the queue they seed (R120). -/

theorem indexed_map_snd {α : Type} (v : Vector α 256) : (indexed v).map Prod.snd = v.toList :=
  List.map_snd_zip (by simp)

theorem occurring_ascending (f : FreqTable) : (occurring f).Pairwise fun a b => a.1.toNat < b.1.toNat := by
  rw [occurring, indexed_eq]
  refine List.Pairwise.filter _ (List.pairwise_map.mpr ?_)
  exact symbols_ascending

theorem occurring_length_le (f : FreqTable) : (occurring f).length ≤ 256 := by
  refine (List.length_filter_le _ _).trans ?_
  simp [indexed]

theorem occurring_sum_le (f : FreqTable) :
    ((occurring f).map fun p => p.2.toNat).sum ≤ (f.toList.map BitVec.toNat).sum := by
  have hsub : ((occurring f).map fun p => p.2.toNat).Sublist ((indexed f).map fun p => p.2.toNat) :=
    (List.filter_sublist).map _
  rw [← indexed_map_snd f, List.map_map]
  exact hsub.sum_le_sum (by simp)

theorem seedQueue_length (leaves : List (Byte × Word)) : (seedQueue leaves).length = leaves.length := by
  simp [seedQueue]

theorem seedQueue_map_idx (leaves : List (Byte × Word)) :
    (seedQueue leaves).map QueueItem.idx = List.range' 1 leaves.length := by
  apply List.ext_getElem
  · simp [seedQueue]
  · intro k h1 h2
    simp [seedQueue, Nat.add_comm]

theorem seedQueue_map_freq (leaves : List (Byte × Word)) :
    (seedQueue leaves).map QueueItem.freq = leaves.map fun p => p.2.toNat := by
  apply List.ext_getElem
  · simp [seedQueue]
  · intro k h1 h2
    simp [seedQueue]

/-- Each element of the first queue is a leaf's index and count (R120, R121). -/
theorem mem_seedQueue {leaves : List (Byte × Word)} {q : QueueItem} (h : q ∈ seedQueue leaves) :
    q.idx < (Node.none :: leaves.map leafOf).length ∧ freqIn (Node.none :: leaves.map leafOf) q.idx = q.freq := by
  obtain ⟨⟨p, k⟩, hk, rfl⟩ := List.mem_map.mp h
  have hget := List.mem_zipIdx_iff_getElem?.mp hk
  obtain ⟨hlt, -⟩ := List.getElem?_eq_some_iff.mp hget
  refine ⟨by simpa using hlt, ?_⟩
  simp [freqIn, hget, leafOf, Node.freq]

/-! The nodes made. -/

/-- NODE[0], the leaves and the merges, in index order. -/
theorem builtNodes_eq (f : FreqTable) :
    builtNodes f = (Node.none :: (occurring f).map leafOf) ++ (builtMerges f).nodes := rfl

/-- With no count, nothing is made (R120). -/
theorem builtMerges_nil {f : FreqTable} (h : occurring f = []) : builtMerges f = { nodes := [], root := 0 } := by
  simp [builtMerges, h, mergeLoop]

section
variable {f : FreqTable}

theorem seedQueue_ne_nil (hne : occurring f ≠ []) : seedQueue (occurring f) ≠ [] := by
  simpa [← List.length_eq_zero_iff, seedQueue_length] using hne

/-- n leaves are merged n - 1 times (R122). -/
theorem builtMerges_length (f : FreqTable) : (builtMerges f).nodes.length = (occurring f).length - 1 := by
  by_cases hne : occurring f = []
  · simp [builtMerges_nil hne, hne]
  · have hlen := mergeLoop_length (next := (occurring f).length + 1) (seedQueue_ne_nil hne) (seedQueue_length _).le
    rw [seedQueue_length] at hlen
    exact Nat.eq_sub_of_add_eq hlen

/-- Every index up to 2n - 1 is a child once, or the root (R41). -/
theorem builtMerges_children (hne : occurring f ≠ []) :
    ((builtMerges f).nodes.flatMap Node.children ++ [(builtMerges f).root]).Perm
      (List.range' 1 (2 * (occurring f).length - 1)) := by
  have hle := occurring_length_le f
  have hpos := List.length_pos_iff.mpr hne
  have hperm := mergeLoop_children (next := (occurring f).length + 1) (seedQueue_ne_nil hne) (seedQueue_length _).le
    (fun q hq => by simpa using (mem_seedQueue hq).1) (by rw [seedQueue_length]; omega)
  have hrange : List.range' 1 (2 * (occurring f).length - 1) =
      List.range' 1 (occurring f).length ++ List.range' ((occurring f).length + 1) ((occurring f).length - 1) := by
    rw [Nat.add_comm _ 1, List.range'_append_1]
    congr 1
    omega
  rw [hrange, ← seedQueue_map_idx, ← builtMerges_length f]
  exact hperm

/-- Every node past the leaves is a merge of two below it (R41, R120). -/
theorem builtNodes_mergedAt (hsum : (f.toList.map BitVec.toNat).sum < 4294967296) {k : Nat}
    (hlo : (occurring f).length < k) (hhi : k < 2 * (occurring f).length) : MergedAt (builtNodes f) k := by
  have hle := occurring_length_le f
  have hne : occurring f ≠ [] := List.length_pos_iff.mp (by omega)
  have hbase : (Node.none :: (occurring f).map leafOf).length = (occurring f).length + 1 := by simp
  have hmerges : mergeLoop (occurring f).length (Node.none :: (occurring f).map leafOf).length (seedQueue (occurring f)) =
      builtMerges f := by rw [hbase, builtMerges]
  have hlen := builtMerges_length f
  rw [builtNodes_eq, ← hmerges]
  refine mergeLoop_mergedAt (seedQueue_ne_nil hne) (seedQueue_length _).le (fun q hq => mem_seedQueue hq) ?_ ?_ ?_ ?_
  · rw [seedQueue_map_freq]
    exact (occurring_sum_le f).trans_lt hsum
  · rw [hbase, seedQueue_length]
    omega
  · omega
  · rw [hmerges, hbase, hlen]
    omega

/-- The node at an index past the leaves is the merge made there. -/
theorem nodeNo_built_merge {k : Nat} (hlo : (occurring f).length < k) (hhi : k < 2 * (occurring f).length) :
    (builtMerges f).nodes[k - ((occurring f).length + 1)]? = some (nodeNo (arenaOf (builtNodes f)) k) := by
  have hle := occurring_length_le f
  have hbase : (Node.none :: (occurring f).map leafOf).length = (occurring f).length + 1 := by simp
  have hlen := builtMerges_length f
  rw [nodeNo_arenaOf _ (by omega), builtNodes_eq, List.getElem?_append_right (by omega), hbase,
    List.getElem?_eq_getElem (by omega)]
  rfl

/-- The node at index k + 1 is leaf k (R120). -/
theorem nodeNo_built_leaf {k : Nat} (h : k < (occurring f).length) :
    nodeNo (arenaOf (builtNodes f)) (k + 1) = leafOf (occurring f)[k] := by
  have hle := occurring_length_le f
  rw [nodeNo_arenaOf _ (by omega), builtNodes_eq, List.getElem?_append_left (by simpa using h)]
  simp [h]

/-- Index 0 and the indices from 2n on hold no node (R41). -/
theorem nodeNo_built_none {k : Nat} (hk : k < 512) (h : k = 0 ∨ 2 * (occurring f).length ≤ k) :
    nodeNo (arenaOf (builtNodes f)) k = .none := by
  rw [nodeNo_arenaOf _ hk]
  rcases Nat.eq_zero_or_pos k with rfl | hpos
  · rfl
  · have hlen := builtMerges_length f
    rw [List.getElem?_eq_none]
    · rfl
    · simp only [builtNodes, List.length_cons, List.length_append, List.length_map]
      omega

/-- What a merge at an index past the leaves is. -/
theorem nodeNo_built_internal (hsum : (f.toList.map BitVec.toNat).sum < 4294967296) {k : Nat}
    (hlo : (occurring f).length < k) (hhi : k < 2 * (occurring f).length) :
    ∃ v l r, nodeNo (arenaOf (builtNodes f)) k = .internal v l r ∧ l.toNat < k ∧ r.toNat < k ∧
      v.toNat = (nodeNo (arenaOf (builtNodes f)) l.toNat).freq.toNat + (nodeNo (arenaOf (builtNodes f)) r.toNat).freq.toNat := by
  have hle := occurring_length_le f
  obtain ⟨v, l, r, hget, hl, hr, hv⟩ := builtNodes_mergedAt hsum hlo hhi
  refine ⟨v, l, r, ?_, hl, hr, ?_⟩
  · rw [nodeNo_arenaOf _ (by omega), hget]
    rfl
  · rw [nodeNo_arenaOf _ (by omega), nodeNo_arenaOf _ (by omega)]
    exact hv

/-- The root is the last node made (R122). -/
theorem builtMerges_root (hsum : (f.toList.map BitVec.toNat).sum < 4294967296) :
    (builtMerges f).root = 2 * (occurring f).length - 1 := by
  by_cases hne : occurring f = []
  · simp [builtMerges_nil hne, hne]
  · have hpos := List.length_pos_iff.mpr hne
    have hlen := builtMerges_length f
    have hmem : 2 * (occurring f).length - 1 ∈ (builtMerges f).nodes.flatMap Node.children ++ [(builtMerges f).root] :=
      (builtMerges_children hne).mem_iff.mpr (List.mem_range'_1.mpr (by omega))
    rcases List.mem_append.mp hmem with hchild | hroot
    · obtain ⟨node, hnode, hin⟩ := List.mem_flatMap.mp hchild
      obtain ⟨j, hj, rfl⟩ := List.mem_iff_getElem.mp hnode
      have hget := nodeNo_built_merge (f := f) (k := (occurring f).length + 1 + j) (by omega) (by omega)
      obtain ⟨v, l, r, hk, hl, hr, _⟩ :=
        nodeNo_built_internal hsum (k := (occurring f).length + 1 + j) (by omega) (by omega)
      rw [Nat.add_sub_cancel_left, List.getElem?_eq_getElem hj, hk] at hget
      rw [Option.some.inj hget] at hin
      simp only [Node.children, List.mem_cons, List.not_mem_nil, or_false] at hin
      omega
    · exact (List.mem_singleton.mp hroot).symm

/-- No index is a child twice. -/
theorem builtMerges_children_nodup (f : FreqTable) : ((builtMerges f).nodes.flatMap Node.children).Nodup := by
  by_cases hne : occurring f = []
  · simp [builtMerges_nil hne]
  · have hnodup := (builtMerges_children hne).nodup_iff.mpr List.nodup_range'
    exact (List.nodup_append.mp hnodup).1

/-- The children of an internal node are what LEFT and RIGHT hold (R40). -/
theorem mem_children_internal {v : Word} {l r : BitVec 9} {i : Nat} :
    i ∈ (Node.internal v l r).children ↔ l.toNat = i ∨ r.toNat = i := by
  simp [Node.children, eq_comm]

/-- Two merges never share a child (R41). -/
theorem built_parent_unique {j k i : Nat} (hj : (occurring f).length < j) (hj' : j < 2 * (occurring f).length)
    (hk : (occurring f).length < k) (hk' : k < 2 * (occurring f).length)
    (hij : i ∈ (nodeNo (arenaOf (builtNodes f)) j).children) (hik : i ∈ (nodeNo (arenaOf (builtNodes f)) k).children) :
    j = k := by
  have hdisjoint := List.pairwise_iff_getElem.mp (List.nodup_flatMap.mp (builtMerges_children_nodup f)).2
  obtain ⟨hjlt, hjget⟩ := List.getElem?_eq_some_iff.mp (nodeNo_built_merge hj hj')
  obtain ⟨hklt, hkget⟩ := List.getElem?_eq_some_iff.mp (nodeNo_built_merge hk hk')
  rw [← hjget] at hij
  rw [← hkget] at hik
  rcases Nat.lt_trichotomy j k with hlt | heq | hgt
  · exact absurd hik (hdisjoint _ _ hjlt hklt (by omega) hij)
  · exact heq
  · exact absurd hij (hdisjoint _ _ hklt hjlt (by omega) hik)

/-- Every index below the root's is the child of a merge (R41). -/
theorem built_parent_exists (hsum : (f.toList.map BitVec.toNat).sum < 4294967296) {i : Nat} (hlo : 1 ≤ i)
    (hhi : i < 2 * (occurring f).length - 1) :
    ∃ k, (occurring f).length < k ∧ k < 2 * (occurring f).length ∧ i ∈ (nodeNo (arenaOf (builtNodes f)) k).children := by
  have hne : occurring f ≠ [] := List.length_pos_iff.mp (by omega)
  have hlen := builtMerges_length f
  have hmem : i ∈ (builtMerges f).nodes.flatMap Node.children ++ [(builtMerges f).root] :=
    (builtMerges_children hne).mem_iff.mpr (List.mem_range'_1.mpr (by omega))
  rw [builtMerges_root hsum, List.mem_append, List.mem_singleton, or_iff_left (by omega)] at hmem
  obtain ⟨node, hnode, hin⟩ := List.mem_flatMap.mp hmem
  obtain ⟨j, hj, rfl⟩ := List.mem_iff_getElem.mp hnode
  have hget := nodeNo_built_merge (f := f) (k := (occurring f).length + 1 + j) (by omega) (by omega)
  rw [Nat.add_sub_cancel_left, List.getElem?_eq_getElem hj] at hget
  exact ⟨(occurring f).length + 1 + j, by omega, by omega, by rwa [← Option.some.inj hget]⟩

/-- The arena BUILD makes is a tree with a leaf for each symbol that occurs (R41, R122). -/
theorem isTree_built (hsum : (f.toList.map BitVec.toNat).sum < 4294967296) :
    IsTree (arenaOf (builtNodes f)) (occurring f).length := by
  refine ⟨fun k hk h => nodeNo_built_none hk h, ?leaves, ?ascending, ?merges, ?children⟩
  case leaves =>
    intro k hhi hlo
    obtain ⟨k, rfl⟩ := Nat.exists_eq_add_of_le' hlo
    rw [nodeNo_built_leaf (by omega)]
    rfl
  case ascending =>
    intro j hj i hij hi
    obtain ⟨i, rfl⟩ := Nat.exists_eq_add_of_le' hi
    obtain ⟨j, rfl⟩ := Nat.exists_eq_add_of_le' (hi.trans hij.le)
    rw [nodeNo_built_leaf (by omega), nodeNo_built_leaf (by omega)]
    exact List.pairwise_iff_getElem.mp (occurring_ascending f) i j _ _ (by omega)
  case merges =>
    intro k hhi hlo
    have hnodup := (List.nodup_flatMap.mp (builtMerges_children_nodup f)).1 _
      (List.mem_of_getElem? (nodeNo_built_merge hlo hhi))
    obtain ⟨v, l, r, hk, hl, hr, hv⟩ := nodeNo_built_internal hsum hlo hhi
    rw [hk] at hnodup ⊢
    refine ⟨rfl, hl, hr, fun heq => ?_, hv⟩
    have heq' : l = r := heq
    simp [Node.children, heq'] at hnodup
  case children =>
    intro i hhi hlo
    obtain ⟨k, hk, hk', hin⟩ := built_parent_exists hsum hlo hhi
    have honly : ∀ j ∈ List.range (2 * (occurring f).length),
        decide ((occurring f).length < j ∧ ((nodeNo (arenaOf (builtNodes f)) j).left.toNat = i ∨
          (nodeNo (arenaOf (builtNodes f)) j).right.toNat = i)) = true ↔ (j == k) = true := by
      intro j hj
      rw [List.mem_range] at hj
      rw [decide_eq_true_eq, beq_iff_eq]
      constructor
      · rintro ⟨hlo', hchild⟩
        obtain ⟨v, l, r, hnode, _⟩ := nodeNo_built_internal hsum hlo' hj
        rw [hnode] at hchild
        exact built_parent_unique hlo' hj hk hk' (by rw [hnode]; exact mem_children_internal.mpr hchild) hin
      · rintro rfl
        obtain ⟨v, l, r, hnode, _⟩ := nodeNo_built_internal hsum hk hk'
        rw [hnode] at hin ⊢
        exact ⟨hk, mem_children_internal.mp hin⟩
    rw [List.countP_congr honly]
    exact List.count_eq_one_of_mem List.nodup_range (List.mem_range.mpr hk')

end

/-- BUILD leaves a tree, with NNODE and ROOT its last index (R35, R36, R41). -/
theorem treeInv_of_commits_build {s c : State} (hsum : freqTotal s < 4294967296) (h : Commits .build s c) : TreeInv c := by
  obtain rfl := commits_build h
  have hle := occurring_length_le s.freq
  have hlen := builtMerges_length s.freq
  refine ⟨(occurring s.freq).length, by omega, ?_, ?_, isTree_built hsum⟩
  · simp only [hlen, BitVec.toNat_ofNat]
    omega
  · simp only [builtMerges_root hsum, BitVec.toNat_ofNat]
    omega

end Sys2Proof.Machine
end

section
/-! The code tables TABPARSE and CODEGEN make: no code begins another, NSYM is the number of entries (R34, R43, R124, R126,
R166). -/

namespace Sys2Proof.Machine

open Sys2Proof

/-! A table with one entry more. -/

theorem validEntries_nodup (t : CodeTable) : (validEntries t).Nodup :=
  (validEntries_ascending t).imp fun hab heq => absurd hab (by rw [heq]; exact Nat.lt_irrefl _)

@[simp] theorem validEntries_emptyTable : validEntries emptyTable = [] := by
  simp [validEntries_eq]

/-- An entry set where none stood is one entry more. -/
theorem validEntries_setEntry {t : CodeTable} {x : Byte} (c : Code) (h : entryAt t x = none) :
    (validEntries (setEntry t x c)).Perm ((x, c) :: validEntries t) := by
  have hnew : (x, c) ∉ validEntries t := by simp [mem_validEntries, h]
  refine (List.perm_ext_iff_of_nodup (validEntries_nodup _)
    (List.nodup_cons.mpr ⟨hnew, validEntries_nodup t⟩)).mpr fun ⟨y, d⟩ => ?_
  rw [List.mem_cons, mem_validEntries, mem_validEntries]
  by_cases hy : y = x
  · subst hy
    simp [entryAt_setEntry_same, h, eq_comm]
  · simp [entryAt_setEntry_ne t x y c hy, hy]

/-- Neither bit sequence begins the other (R43, R166). -/
def Incomparable (u v : Bits) : Prop := isPrefix u v = false ∧ isPrefix v u = false

theorem Incomparable.symm {u v : Bits} (h : Incomparable u v) : Incomparable v u := And.symm h

theorem prefixFree_iff_pairwise (t : CodeTable) :
    PrefixFree t ↔ ((validEntries t).map fun e => e.2.bits).Pairwise Incomparable := by
  rw [List.pairwise_map]
  rfl

/-! TABPARSE. -/

/-- A code that conflicts with no entry is incomparable with each (R166). -/
theorem incomparable_of_no_conflict {t : CodeTable} {u : Bits} (h : prefixConflicts t u = false) {e : Byte × Code}
    (he : e ∈ validEntries t) : Incomparable u e.2.bits := by
  have hmem : some e.2 ∈ t.toList := by
    have hget := (mem_validEntries t e.1 e.2).mp he
    rw [← hget, entryAt]
    simp
  simpa [Incomparable] using List.any_eq_false.mp h _ hmem

/-- A line that is read adds one entry, of a new symbol and with a code no other conflicts with (R167). -/
theorem parseLine_ok {t t' : CodeTable} {line : List Byte} (h : parseLine t line = .ok t') :
    ∃ x c, entryAt t x = none ∧ prefixConflicts t c.bits = false ∧ t' = setEntry t x c := by
  unfold parseLine at h
  dsimp only at h
  split at h
  · cases h
  · iterate 6 (split at h; · cases h)
    rename_i hnew
    split at h
    · cases h
    · rename_i hconflict
      cases h
      exact ⟨_, _, by simpa using hnew, by simpa using hconflict, rfl⟩

/-- The table read from the lines keeps R43 and has one entry for each line more (R34). -/
theorem parseLines_ok {t t' : CodeTable} {lines : List Segment} (hfree : PrefixFree t)
    (h : parseLines t lines = .ok t') :
    PrefixFree t' ∧ (validEntries t').length = (validEntries t).length + lines.length := by
  induction lines generalizing t with
  | nil =>
    cases h
    exact ⟨hfree, rfl⟩
  | cons g gs ih =>
    simp only [parseLines] at h
    split at h
    · cases h
    · rename_i t1 ht1
      obtain ⟨x, c, hnew, hconflict, rfl⟩ := parseLine_ok ht1
      have hperm := validEntries_setEntry c hnew
      have hfree1 : PrefixFree (setEntry t x c) := by
        refine (hperm.pairwise_iff And.symm).mpr (List.pairwise_cons.mpr ⟨fun e he => ?_, hfree⟩)
        exact incomparable_of_no_conflict hconflict he
      obtain ⟨hfree', hlen⟩ := ih hfree1 h
      refine ⟨hfree', ?_⟩
      rw [hlen, hperm.length_eq]
      simp only [List.length_cons]
      omega

/-! CODEGEN: the paths of a walk. -/

/-- A walk that gives paths starts on a node (R41). -/
theorem visit_ne_none {t : Arena} {depth : Nat} {i : BitVec 9} {p : Bits} {paths : List (Byte × Bits)}
    (h : visit t depth i p = some paths) : nodeAt t i ≠ .none := by
  intro hnone
  cases depth with
  | zero => cases h
  | succ depth => simp [visit, hnone] at h

/-- A walk by its nodes: a leaf gives its own path, an internal node the paths below its children (R124). -/
theorem visit_induction {t : Arena} {motive : BitVec 9 → Bits → List (Byte × Bits) → Prop}
    (leaf : ∀ i p x f, nodeAt t i = .leaf x f → motive i p [(x, p)])
    (internal : ∀ depth i p v l r a b, nodeAt t i = .internal v l r → visit t depth l (p ++ [false]) = some a →
      visit t depth r (p ++ [true]) = some b → motive l (p ++ [false]) a → motive r (p ++ [true]) b → motive i p (a ++ b))
    {depth : Nat} {i : BitVec 9} {p : Bits} {paths : List (Byte × Bits)} (h : visit t depth i p = some paths) :
    motive i p paths := by
  induction depth generalizing i p paths with
  | zero => cases h
  | succ depth ih =>
    cases hnode : nodeAt t i with
    | none => exact absurd hnode (visit_ne_none h)
    | leaf x f =>
      simp only [visit, hnode, Option.some.injEq] at h
      exact h ▸ leaf i p x f hnode
    | internal v l r =>
      simp only [visit, hnode] at h
      split at h
      · rename_i a b ha hb
        cases h
        exact internal depth i p v l r a b hnode ha hb (ih ha) (ih hb)
      · cases h

/-- Every path extends the walk's own (R124). -/
theorem visit_prefix {t : Arena} {depth : Nat} {i : BitVec 9} {p : Bits} {paths : List (Byte × Bits)}
    (h : visit t depth i p = some paths) : ∀ e ∈ paths, p <+: e.2 := by
  refine visit_induction (motive := fun _ p paths => ∀ e ∈ paths, p <+: e.2) ?_ ?_ h
  · intro i p x f _ e he
    rw [List.mem_singleton.mp he]
  · intro _ i p v l r a b _ _ _ ha hb e he
    rcases List.mem_append.mp he with he | he
    · exact (List.prefix_append p [false]).trans (ha e he)
    · exact (List.prefix_append p [true]).trans (hb e he)

/-- Paths that part at one bit are incomparable. -/
theorem incomparable_of_split {p u v : Bits} {b : Bool} (hu : p ++ [b] <+: u) (hv : p ++ [!b] <+: v) :
    isPrefix u v = false := by
  rw [isPrefix, Bool.eq_false_iff, ne_eq, List.isPrefixOf_iff_prefix]
  intro huv
  have heq := (List.prefix_of_prefix_length_le (hu.trans huv) hv (by simp)).eq_of_length (by simp)
  simp at heq

/-- The paths of a walk are incomparable, as R126 has it. -/
theorem visit_incomparable {t : Arena} {depth : Nat} {i : BitVec 9} {p : Bits} {paths : List (Byte × Bits)}
    (h : visit t depth i p = some paths) : (paths.map Prod.snd).Pairwise Incomparable := by
  refine visit_induction (motive := fun _ _ paths => (paths.map Prod.snd).Pairwise Incomparable) ?_ ?_ h
  · intro i p x f _
    exact List.pairwise_singleton _ _
  · intro _ i p v l r a b _ hwa hwb ha hb
    rw [List.map_append, List.pairwise_append]
    refine ⟨ha, hb, fun u hu w hw => ?_⟩
    obtain ⟨e, he, rfl⟩ := List.mem_map.mp hu
    obtain ⟨e', he', rfl⟩ := List.mem_map.mp hw
    have hleft := visit_prefix hwa e he
    have hright := visit_prefix hwb e' he'
    exact ⟨incomparable_of_split hleft hright, incomparable_of_split hright hleft⟩

/-! CODEGEN: each leaf of a tree (R41) is visited once. -/

/-- Node `i` is there and is a child of node `k`. -/
def ChildOf (t : Arena) (i k : Nat) : Prop := nodeNo t i ≠ .none ∧ i ∈ (nodeNo t k).children

section
variable {t : Arena} {n : Nat} (htree : IsTree t n)
include htree

/-- Where a node of a tree stands (R41): NONE at 0 and from 2n on, leaves from 1 to n, merges past them. -/
theorem IsTree.node_range (k : Nat) :
    nodeNo t k = .none ∨ (1 ≤ k ∧ k ≤ n ∧ (nodeNo t k).kind = 1#2) ∨
      (n < k ∧ k < 2 * n ∧ (nodeNo t k).kind = 2#2) := by
  obtain ⟨hnone, hleaf, _, hmerge, _⟩ := htree
  by_cases hlt : k < 512
  · by_cases hk : k = 0 ∨ 2 * n ≤ k
    · exact .inl (hnone k hlt hk)
    · by_cases hle : k ≤ n
      · exact .inr (.inl ⟨by omega, hle, hleaf k (by omega) (by omega)⟩)
      · exact .inr (.inr ⟨by omega, by omega, (hmerge k (by omega) (by omega)).1⟩)
  · left
    rw [nodeNo, Vector.getElem?_eq_none (by omega)]
    rfl

/-- A leaf of a tree stands at an index from 1 to n (R41). -/
theorem IsTree.leaf_range {k : Nat} {x : Byte} {f : Word} (h : nodeNo t k = .leaf x f) : 1 ≤ k ∧ k ≤ n := by
  rcases htree.node_range k with hk | ⟨h1, h2, _⟩ | ⟨_, _, hk⟩
  · simp [hk] at h
  · exact ⟨h1, h2⟩
  · simp [h, Node.kind] at hk

/-- Two leaves of one symbol are one leaf (R41). -/
theorem IsTree.leaf_unique {j k : Nat} {x : Byte} {f g : Word} (hj : nodeNo t j = .leaf x f)
    (hk : nodeNo t k = .leaf x g) : j = k := by
  obtain ⟨hj1, hjn⟩ := htree.leaf_range hj
  obtain ⟨hk1, hkn⟩ := htree.leaf_range hk
  obtain ⟨_, _, hasc, _, _⟩ := htree
  rcases Nat.lt_trichotomy j k with hlt | heq | hgt
  · have := hasc k (by omega) j hlt hj1
    simp [hj, hk, Node.sym] at this
  · exact heq
  · have := hasc j (by omega) k hgt hk1
    simp [hj, hk, Node.sym] at this

/-- A parent is an internal node past the leaves, above its child. -/
theorem IsTree.childOf_range {i k : Nat} (h : ChildOf t i k) :
    n < k ∧ k < 2 * n ∧ i < k ∧ ((nodeNo t k).left.toNat = i ∨ (nodeNo t k).right.toNat = i) := by
  obtain ⟨_, hin⟩ := h
  cases hnode : nodeNo t k with
  | none => simp [hnode, Node.children] at hin
  | leaf x f => simp [hnode, Node.children] at hin
  | internal v l r =>
    rcases htree.node_range k with hk | ⟨_, _, hk⟩ | ⟨hlo, hhi, _⟩
    · simp [hk] at hnode
    · simp [hnode, Node.kind] at hk
    · obtain ⟨_, _, _, hmerge, _⟩ := htree
      obtain ⟨_, hl, hr, _⟩ := hmerge k hhi hlo
      rw [hnode] at hl hr hin
      have hchild := mem_children_internal.mp hin
      simp only [Node.left, Node.right] at hl hr ⊢
      exact ⟨hlo, hhi, by omega, hchild⟩

/-- A node has one parent (R41). -/
theorem IsTree.childOf_unique {i j k : Nat} (hj : ChildOf t i j) (hk : ChildOf t i k) : j = k := by
  obtain ⟨hjlo, hjhi, hij, hj'⟩ := htree.childOf_range hj
  obtain ⟨hklo, hkhi, hik, hk'⟩ := htree.childOf_range hk
  have hpos : 1 ≤ i := by
    rcases htree.node_range i with hi | ⟨h1, _⟩ | ⟨hlo, _⟩
    · exact absurd hi hj.1
    · exact h1
    · omega
  obtain ⟨_, _, _, _, honce⟩ := htree
  have hcount := honce i (by omega) hpos
  rw [List.countP_eq_length_filter, List.length_eq_one_iff] at hcount
  obtain ⟨a, ha⟩ := hcount
  have hmem (m : Nat) (hlo : n < m) (hhi : m < 2 * n)
      (hm : (nodeNo t m).left.toNat = i ∨ (nodeNo t m).right.toNat = i) : m = a := by
    rw [← List.mem_singleton, ← ha, List.mem_filter, List.mem_range, decide_eq_true_eq]
    exact ⟨hhi, hlo, hm⟩
  rw [hmem j hjlo hjhi hj', hmem k hklo hkhi hk']

open Relation

/-- A node below another has no greater index. -/
theorem IsTree.below_le {m i : Nat} (h : ReflTransGen (ChildOf t) m i) : m ≤ i := by
  induction h with
  | refl => exact Nat.le_refl m
  | tail _ hchild ih =>
    obtain ⟨_, _, hlt, _⟩ := htree.childOf_range hchild
    exact ih.trans hlt.le

/-- One child of a node is not below another. -/
theorem IsTree.not_below_sibling {i l r : Nat} (hne : l ≠ r) (hl : ChildOf t l i) (hr : ChildOf t r i) :
    ¬ ReflTransGen (ChildOf t) l r := by
  intro hlr
  rcases hlr.cases_head with heq | ⟨k, hk, hkr⟩
  · exact hne heq
  · obtain rfl := htree.childOf_unique hk hl
    have hle := htree.below_le hkr
    obtain ⟨_, _, hlt, _⟩ := htree.childOf_range hr
    omega

/-- No node is below both children of another: the ancestors of a node are a chain. -/
theorem IsTree.below_disjoint {i l r m : Nat} (hne : l ≠ r) (hl : ChildOf t l i) (hr : ChildOf t r i)
    (hml : ReflTransGen (ChildOf t) m l) (hmr : ReflTransGen (ChildOf t) m r) : False := by
  have hunique : Relator.RightUnique (ChildOf t) := fun _ _ _ hj hk => htree.childOf_unique hj hk
  rcases ReflTransGen.total_of_right_unique hunique hml hmr with hlr | hrl
  · exact htree.not_below_sibling hne hl hr hlr
  · exact htree.not_below_sibling hne.symm hr hl hrl

omit htree in
/-- The children a walk goes on to are children in the arena. -/
theorem childOf_of_visit {i : BitVec 9} {v : Word} {l r : BitVec 9} (hnode : nodeAt t i = .internal v l r)
    {depth : Nat} {p q : Bits} {a b : List (Byte × Bits)} (ha : visit t depth l p = some a)
    (hb : visit t depth r q = some b) : ChildOf t l.toNat i.toNat ∧ ChildOf t r.toNat i.toNat := by
  have hl := visit_ne_none ha
  have hr := visit_ne_none hb
  rw [nodeAt_eq_nodeNo] at hnode hl hr
  exact ⟨⟨hl, by simp [hnode, Node.children]⟩, ⟨hr, by simp [hnode, Node.children]⟩⟩

omit htree in
/-- A path the walk gives is that of a leaf below its node. -/
theorem visit_leaf {depth : Nat} {i : BitVec 9} {p : Bits} {paths : List (Byte × Bits)}
    (h : visit t depth i p = some paths) :
    ∀ x ∈ paths.map Prod.fst, ∃ m f, nodeNo t m = .leaf x f ∧ ReflTransGen (ChildOf t) m i.toNat := by
  refine visit_induction (motive := fun i _ paths => ∀ x ∈ paths.map Prod.fst,
    ∃ m f, nodeNo t m = .leaf x f ∧ ReflTransGen (ChildOf t) m i.toNat) ?_ ?_ h
  · intro i p x f hnode y hy
    obtain rfl : y = x := by simpa using hy
    exact ⟨i.toNat, f, by rw [← nodeAt_eq_nodeNo, hnode], .refl⟩
  · intro depth i p v l r a b hnode hwa hwb ha hb x hx
    obtain ⟨hl, hr⟩ := childOf_of_visit hnode hwa hwb
    rw [List.map_append, List.mem_append] at hx
    rcases hx with hx | hx
    · obtain ⟨m, f, hm, hbelow⟩ := ha x hx
      exact ⟨m, f, hm, hbelow.tail hl⟩
    · obtain ⟨m, f, hm, hbelow⟩ := hb x hx
      exact ⟨m, f, hm, hbelow.tail hr⟩

/-- The walk of a tree gives each symbol once. -/
theorem IsTree.visit_symbols_nodup {depth : Nat} {i : BitVec 9} {p : Bits} {paths : List (Byte × Bits)}
    (h : visit t depth i p = some paths) : (paths.map Prod.fst).Nodup := by
  refine visit_induction (motive := fun _ _ paths => (paths.map Prod.fst).Nodup) ?_ ?_ h
  · intro i p x f _
    exact List.nodup_singleton x
  · intro depth i p v l r a b hnode hwa hwb ha hb
    obtain ⟨hl, hr⟩ := childOf_of_visit hnode hwa hwb
    have hne : l.toNat ≠ r.toNat := by
      obtain ⟨hlo, hhi, _, _⟩ := htree.childOf_range hl
      obtain ⟨_, _, _, hmerge, _⟩ := htree
      obtain ⟨_, _, _, hlr, _⟩ := hmerge i.toNat hhi hlo
      rw [← nodeAt_eq_nodeNo, hnode] at hlr
      exact fun heq => hlr (BitVec.eq_of_toNat_eq heq)
    rw [List.map_append, List.nodup_append]
    refine ⟨ha, hb, fun x hx y hy hxy => ?_⟩
    subst hxy
    obtain ⟨m, f, hm, hml⟩ := visit_leaf hwa x hx
    obtain ⟨m', g, hm', hmr⟩ := visit_leaf hwb x hy
    obtain rfl := htree.leaf_unique hm hm'
    exact htree.below_disjoint hne hl hr hml hmr

end

/-! CODEGEN: the table of the paths. -/

theorem codeOf_bits {u : Bits} {c : Code} (h : codeOf u = some c) : c.bits = u := by
  unfold codeOf at h
  split at h
  · cases h
    rfl
  · cases h

/-- The symbol and the bits of an entry. -/
def entryPath (e : Byte × Code) : Byte × Bits := (e.1, e.2.bits)

/-- Paths of distinct new symbols become that many entries more (R124). -/
theorem assignCodes_entries {t table : CodeTable} {paths : List (Byte × Bits)} (h : assignCodes t paths = some table)
    (hnodup : (paths.map Prod.fst).Nodup) (hnew : ∀ x ∈ paths.map Prod.fst, entryAt t x = none) :
    ((validEntries table).map entryPath).Perm (paths ++ (validEntries t).map entryPath) := by
  induction paths generalizing t with
  | nil =>
    cases h
    exact .refl _
  | cons e rest ih =>
    obtain ⟨x, p⟩ := e
    simp only [assignCodes] at h
    split at h
    · cases h
    · rename_i c hc
      rw [List.map_cons, List.nodup_cons] at hnodup
      obtain ⟨hx, hrest⟩ := hnodup
      have hnew' : ∀ y ∈ rest.map Prod.fst, entryAt (setEntry t x c) y = none := by
        intro y hy
        rw [entryAt_setEntry_ne t x y c fun heq => hx (heq ▸ hy)]
        exact hnew y (List.mem_cons_of_mem _ hy)
      have hset := (validEntries_setEntry c (hnew x (by simp))).map entryPath
      rw [List.map_cons, show entryPath (x, c) = (x, p) by rw [entryPath, codeOf_bits hc]] at hset
      exact (ih h hrest hnew').trans ((hset.append_left rest).trans List.perm_middle)

/-- The table CODEGEN derives from a tree meets R43, and its number of entries is the one it gives (R34, R126). -/
theorem deriveCodes_table {t : Arena} {n : Nat} (htree : IsTree t n) {r : BitVec 9} {table : CodeTable} {m : Nat}
    (h : deriveCodes t r = some (table, m)) : PrefixFree table ∧ (validEntries table).length = m := by
  unfold deriveCodes at h
  split at h
  · cases h
    simp [PrefixFree]
  · split at h
    · rename_i x f _
      cases h
      have hone := validEntries_setEntry singleCode (entryAt_emptyTable x)
      rw [validEntries_emptyTable, List.perm_singleton] at hone
      simp [PrefixFree, hone]
    · split at h
      · cases h
      · rename_i paths hvisit
        split at h
        · cases h
        · rename_i table' hassign
          cases h
          have hperm := assignCodes_entries hassign (htree.visit_symbols_nodup hvisit) (by simp)
          rw [validEntries_emptyTable, List.map_nil, List.append_nil] at hperm
          refine ⟨?_, by simpa using hperm.length_eq⟩
          have hbits := hperm.map Prod.snd
          rw [List.map_map] at hbits
          exact (prefixFree_iff_pairwise table).mpr
            ((hbits.pairwise_iff Incomparable.symm).mpr (visit_incomparable hvisit))

end Sys2Proof.Machine
end

section
/-! The invariant (R26, R31, R34 to R36, R41, R43, R44, R61): O24 and O25. Each clause is kept by whatever may write what it
speaks of; the step is then a case analysis. -/

namespace Sys2Proof.Machine

open Sys2Proof

/-! Reset (R48, R240). -/

theorem isTree_empty : IsTree (Vector.replicate 512 Node.none) 0 := by
  have hnone (k : Nat) : nodeNo (Vector.replicate 512 Node.none) k = .none := by
    rw [nodeNo, Vector.getElem?_replicate]
    split <;> rfl
  exact ⟨fun k _ _ => hnone k, fun k hk h => by omega, fun j hj i hij hi => by omega, fun k hk h => by omega,
    fun i hi h => by omega⟩

/-- Whatever the parameters and the host, the state a reset leaves meets the invariant. -/
theorem inv_afterReset (cfg : Config) (draws : Nat) (latencies : List Nat) (host : List HostOp) :
    Inv (State.afterReset cfg draws latencies host) where
  mem := ⟨rfl, rfl, rfl, rfl, rfl⟩
  status := ⟨fun h => (by cases h), fun h => (by cases h), fun _ => ⟨rfl, rfl⟩⟩
  running := rfl
  counts := by
    simp only [freqTotal, State.afterReset, Vector.toList_replicate, List.map_replicate, List.sum_replicate,
      BitVec.toNat_ofNat, Nat.zero_mod, smul_zero, Nat.zero_le]
  tree := ⟨0, by decide, rfl, rfl, isTree_empty⟩
  table := by
    have hct : validEntries (State.afterReset cfg draws latencies host).ct = [] := validEntries_emptyTable
    exact ⟨by rw [PrefixFree, hct]; exact .nil, by rw [hct]; rfl⟩
  outLen := Nat.zero_le _

/-- Settles O24: the state after reset is one that a reset leaves. -/
theorem resetMeetsTheInvariant : Obligations.ResetMeetsTheInvariant := inv_afterReset Config.default 0 [] []

/-! What the invariant does not speak of. -/

/-- The invariant does not depend on OVR, the RW registers, the host agent, the reply or the counter of free values. -/
theorem Inv.frame {s t : State} (h : Inv s)
    (ht : t = { s with ovr := t.ovr, inLen := t.inLen, payLen := t.payLen, txtLen := t.txtLen, rtxtLen := t.rtxtLen,
                       latencies := t.latencies, host := t.host, reply := t.reply, draws := t.draws }) : Inv t := by
  rw [ht]
  exact ⟨h.mem, h.status, h.running, h.counts, h.tree, h.table, h.outLen⟩

/-- It speaks of the buffers' canonical form only. -/
theorem Inv.buffers {s t : State} (h : Inv s) (hmem : MemInv t)
    (ht : t = { s with ibuf := t.ibuf, obuf := t.obuf, pbuf := t.pbuf, rbuf := t.rbuf, tbuf := t.tbuf }) : Inv t := by
  rw [ht] at hmem ⊢
  exact ⟨hmem, h.status, h.running, h.counts, h.tree, h.table, h.outLen⟩

theorem setBuf_frame (s : State) (b : BufId) (m : Memory) :
    s.setBuf b m = { s with ibuf := (s.setBuf b m).ibuf, obuf := (s.setBuf b m).obuf, pbuf := (s.setBuf b m).pbuf,
                            rbuf := (s.setBuf b m).rbuf, tbuf := (s.setBuf b m).tbuf } := by
  cases b <;> rfl

/-- A write inside a buffer (R61). -/
theorem Inv.writeBytes {s : State} (h : Inv s) (b : BufId) (off : Nat) (vs : List Byte)
    (hfit : off + vs.length ≤ bufSize s.cfg b) : Inv (s.writeBytes b off vs) :=
  h.buffers (memInv_writeBytes s b off vs h.mem hfit) (setBuf_frame s b _)

/-- A buffer left UNSPECIFIED (R206). -/
theorem Inv.unspecify {s : State} (h : Inv s) (b : BufId) : Inv (s.unspecify b) := by
  have hset : Inv (s.setBuf b { draw := s.draws, cells := [] }) :=
    h.buffers (memInv_unspecify s b h.mem) (setBuf_frame s b _)
  exact hset.frame rfl

/-! Completions (R204 to R206). -/

/-- Every error has a pair of R202. -/
theorem errCodeOf_legal (e : CmdError) : ((errCodeOf e).cause, (errCodeOf e).sub) ∈ legalErrCodes := by
  cases e with
  | malformedPayload => decide
  | unmappedSymbol => decide
  | malformedCodeTable why => cases why <;> decide
  | decodeMismatch why => cases why <;> decide
  | illegalCommand why => cases why <;> decide
  | lengthRange reg => cases reg <;> decide
  | capacityOverflow dst => cases dst <;> decide

theorem Inv.recordError {s : State} (h : Inv s) (e : CmdError) (pos : Nat) : Inv (s.recordError e pos) where
  mem := h.mem
  status := ⟨fun hb => (by cases hb), fun _ => ⟨rfl, errCodeOf_legal e⟩, fun he => (by cases he)⟩
  running := rfl
  counts := h.counts
  tree := h.tree
  table := h.table
  outLen := h.outLen

theorem Inv.completeError {s : State} (h : Inv s) (i : Instr) (r : Raise) : Inv (s.completeError i r) := by
  rcases spoil_cases s i r.error with ⟨_, hs⟩ | ⟨_, hs⟩ | hs <;> rw [State.completeError, hs]
  · exact (h.unspecify .pbuf).recordError _ _
  · exact (h.unspecify .obuf).recordError _ _
  · exact h.recordError _ _

theorem Inv.completeOk {s : State} (h : Inv s) : Inv s.completeOk where
  mem := h.mem
  status := by
    obtain ⟨_, herr, hok⟩ := h.status
    exact ⟨fun hb => (by cases hb), fun he => ⟨rfl, (herr he).2⟩, hok⟩
  running := rfl
  counts := h.counts
  tree := h.tree
  table := h.table
  outLen := h.outLen

/-! What the commands commit. -/

/-- A payload write inside PBUF (R61). -/
theorem Inv.putPayload {s : State} (h : Inv s) {u : Bits} (hfit : u.length ≤ s.cfg.pbufBits) : Inv (s.putPayload u) := by
  have hr := s.cfg.pbuf_range
  have hwrite := h.writeBytes .pbuf 0 (packBits u) (by simp only [packBits_length, bufSize]; omega)
  exact hwrite.frame rfl

/-- A counting pass counts every byte once (R110, R111). -/
theorem tabulate_sum (bs : List Byte) : (tabulate bs).toList.sum = bs.length := by
  have hbump (f : Vector Nat 256) (x : Byte) : (bump f x).toList.sum = f.toList.sum + 1 := by
    have hx : x.toNat < f.toList.length := by simpa using x.isLt
    have hset := List.sum_set f.toList x.toNat (f.toList[x.toNat] + 1)
    have hsame := List.sum_set f.toList x.toNat f.toList[x.toNat]
    rw [if_pos hx] at hset hsame
    rw [List.set_getElem_self] at hsame
    rw [bump, Vector.toList_set, ← Vector.getElem_toList hx, hset, hsame]
    omega
  have hfold (f : Vector Nat 256) : (bs.foldl bump f).toList.sum = f.toList.sum + bs.length := by
    induction bs generalizing f with
    | nil => rfl
    | cons x xs ih =>
      rw [List.foldl_cons, ih, hbump, List.length_cons]
      omega
  rw [tabulate, hfold]
  simp only [Vector.toList_replicate, List.sum_replicate, smul_zero, Nat.zero_add]

/-- COUNT's counts sum to no more than the input's length (R44, R111). -/
theorem freqTotal_count_le {s c : State} (h : Commits .count s c) : freqTotal c ≤ s.inLen.toNat := by
  obtain ⟨_, rfl⟩ := commits_count h
  calc
    _ = ((tabulate s.inputBytes).toList.map fun k => (BitVec.ofNat 32 k).toNat).sum := by
      simp only [freqTotal, Vector.toList_map, List.map_map, Function.comp_def]
    _ ≤ ((tabulate s.inputBytes).toList.map id).sum :=
      List.sum_le_sum fun k _ => by simpa using Nat.mod_le k _
    _ = s.inLen.toNat := by
      rw [List.map_id, tabulate_sum, State.inputBytes, bytesAt_length]

/-- R44's bound is within a word. -/
theorem Inv.freqTotal_lt {s : State} (h : Inv s) : freqTotal s < 4294967296 := by
  have hcounts := h.counts
  have hrange := s.cfg.ibuf_range
  omega

/-- A table that replaces CT with its number of entries in NSYM (R34, R43). -/
theorem Inv.withTable {s : State} (h : Inv s) {table : CodeTable} {n : Nat} (hfree : PrefixFree table)
    (hn : (validEntries table).length = n) : Inv { s with ct := table, nsym := BitVec.ofNat 9 n } where
  mem := h.mem
  status := h.status
  running := h.running
  counts := h.counts
  tree := h.tree
  table := by
    have hle := validEntries_length_le table
    refine ⟨hfree, ?_⟩
    simp only [BitVec.toNat_ofNat, hn] at hle ⊢
    omega
  outLen := h.outLen

theorem Inv.commits_count {s c : State} (h : Inv s) (hc : Commits .count s c) : Inv c := by
  have hsum := freqTotal_count_le hc
  obtain ⟨hlen, rfl⟩ := Machine.commits_count hc
  exact ⟨h.mem, h.status, h.running, hsum.trans hlen, h.tree, h.table, h.outLen⟩

theorem Inv.commits_build {s c : State} (h : Inv s) (hc : Commits .build s c) : Inv c := by
  have htree := treeInv_of_commits_build h.freqTotal_lt hc
  obtain rfl := Machine.commits_build hc
  exact ⟨h.mem, h.status, h.running, h.counts, htree, h.table, h.outLen⟩

theorem Inv.commits_codegen {s c : State} (h : Inv s) (hc : Commits .codegen s c) : Inv c := by
  obtain ⟨table, m, hderive, rfl⟩ := hc
  obtain ⟨n, _, _, _, htree⟩ := h.tree
  obtain ⟨hfree, hm⟩ := deriveCodes_table htree hderive
  exact h.withTable hfree hm

theorem Inv.commits_encode {s c : State} (h : Inv s) (hc : Commits .encode s c) : Inv c := by
  obtain ⟨u, hu, rfl⟩ := Machine.commits_encode hc
  have hlen := encodeFrom_length (Nat.zero_le _) hu
  exact h.putPayload (by omega)

theorem Inv.commits_decode {s c : State} (h : Inv s) (hc : Commits .decode s c) : Inv c := by
  obtain ⟨xs, hxs, rfl⟩ := Machine.commits_decode hc
  have hlen := decodeFrom_length (Nat.zero_le _) hxs
  have hcap := s.cfg.obuf_range
  have hwrite := h.writeBytes .obuf 0 xs (by simpa [bufSize] using hlen)
  refine ⟨hwrite.mem, hwrite.status, hwrite.running, hwrite.counts, hwrite.tree, hwrite.table, ?_⟩
  show (lenWord xs.length).toNat ≤ s.cfg.obufSize
  rw [lenWord_toNat (by omega)]
  omega

theorem Inv.commits_tabser {s c : State} (h : Inv s) (hc : Commits .tabser s c) : Inv c := by
  obtain rfl := Machine.commits_tabser hc
  have hwrite := h.writeBytes .tbuf 0 (tableTextOf s.ct) (by simpa [bufSize] using tableTextOf_length_le s.ct)
  exact hwrite.frame rfl

theorem Inv.commits_tabparse {s c : State} (h : Inv s) (hc : Commits .tabparse s c) : Inv c := by
  obtain ⟨table, hparse, rfl⟩ := Machine.commits_tabparse hc
  obtain ⟨hfree, hlen⟩ := parseLines_ok (by simp [PrefixFree]) hparse
  exact h.withTable hfree (by simpa using hlen)

theorem Inv.commits_bits2txt {s c : State} (h : Inv s) (hc : Commits .bits2txt s c) : Inv c := by
  obtain ⟨hfit, rfl⟩ := Machine.commits_bits2txt hc
  have hwrite := h.writeBytes .rbuf 0 (s.payloadBits.map charOfBit) (by simpa [bufSize, State.payloadBits] using hfit)
  exact hwrite.frame rfl

theorem Inv.commits_txt2bits {s c : State} (h : Inv s) (hc : Commits .txt2bits s c) : Inv c := by
  obtain ⟨hfit, rfl⟩ := Machine.commits_txt2bits hc
  exact h.putPayload (by simpa [State.renderedText] using hfit)

theorem Inv.commits {i : Instr} {s c : State} (h : Inv s) (hc : Commits i s c) : Inv c := by
  cases i with
  | count => exact h.commits_count hc
  | build => exact h.commits_build hc
  | codegen => exact h.commits_codegen hc
  | encode => exact h.commits_encode hc
  | decode => exact h.commits_decode hc
  | tabser => exact h.commits_tabser hc
  | tabparse => exact h.commits_tabparse hc
  | bits2txt => exact h.commits_bits2txt hc
  | txt2bits => exact h.commits_txt2bits hc

theorem Inv.exec {i : Instr} {s t : State} (h : Inv s) (he : exec i s = .next t) : Inv t := by
  rcases exec_cases he with ⟨r, rfl⟩ | ⟨c, hc, rfl⟩
  · exact h.completeError i r
  · exact (h.commits hc).completeOk

theorem Inv.complete {w : Word} {s t : State} (h : Inv s) (hc : complete w s = .next t) : Inv t := by
  rcases complete_cases hc with ⟨i, _, he⟩ | ⟨why, _, rfl⟩
  · exact h.exec he
  · exact h.recordError _ _

/-! Host operations. -/

/-- An acceptance (R203): a command word is in progress, an illegal one has completed (R93). -/
theorem Inv.accept {s : State} (h : Inv s) (w : Word) : Inv (s.accept w) := by
  rcases accept_cases s w with ⟨i, hi, ha⟩ | ⟨why, _, ha⟩ <;> rw [ha]
  · refine ⟨h.mem, ⟨fun _ => ⟨rfl, rfl⟩, fun he => (by cases he), fun _ => ⟨rfl, rfl⟩⟩, ?_, h.counts, h.tree, h.table,
      h.outLen⟩
    simp [runsCommand, hi]
  · exact ⟨h.mem, ⟨fun hb => (by cases hb), fun _ => ⟨rfl, errCodeOf_legal _⟩, fun he => (by cases he)⟩, rfl, h.counts, h.tree,
      h.table, h.outLen⟩

theorem Inv.requestCommand {s : State} (h : Inv s) (w : Word) : Inv (s.requestCommand w) := by
  cases hb : s.seq.isBusy with
  | true =>
    rw [requestCommand_busy w hb]
    exact h.frame rfl
  | false =>
    rw [requestCommand_idle w hb]
    exact h.accept w

theorem Inv.answer {s : State} (h : Inv s) (data : Word) (error : Bool) : Inv (s.answer data error) := h.frame rfl

theorem Inv.hostTurn {s t : State} {op : HostOp} (h : Inv s) (ht : s.hostTurn op = .next t) : Inv t := by
  rcases hostTurn_cases ht with hsame | ⟨v, _, rfl⟩ | ⟨bits, a, v, r, off, _, _, hr, rfl⟩ | ⟨during, _, rfl⟩
  · rw [hsame]
    exact h.frame rfl
  · exact (h.requestCommand v).answer _ _
  · refine Inv.answer ?_ _ _
    rcases writeAt_cases s r off bits v with hw | ⟨b, rfl, hw⟩ <;> rw [hw]
    · exact h.frame rfl
    · exact h.writeBytes b off _ (by simpa [bytesOf] using resolve_buffer hr)
  · rw [resetTurn_frame]
    exact (inv_afterReset s.cfg s.draws s.latencies s.host).frame rfl

/-- One host step of the wait for a completion passes (log 5). -/
theorem Inv.wait {s : State} {w : Word} {n m : Nat} (h : Inv s) (hs : s.seq = .busy w n) :
    Inv { s with seq := .busy w m } := by
  have hstatus := h.status
  have hrunning := h.running
  rw [hs] at hrunning
  obtain ⟨hbusy, herr, hok⟩ := hstatus
  exact ⟨h.mem, ⟨fun _ => hbusy (by rw [hs]; rfl), herr, hok⟩, hrunning, h.counts, h.tree, h.table, h.outLen⟩

/-- Settles O25, by the cases of a step. -/
theorem stepKeepsTheInvariant : Obligations.StepKeepsTheInvariant := by
  intro s t h hstep
  rcases step_cases hstep with
    ⟨_, _, rfl⟩ | ⟨op, rest, _, _, ht⟩ | ⟨w, wait, _, _, hc⟩ | ⟨w, wait, op, rest, hs, _, ht⟩
  · exact h
  · have hhost : Inv { s with host := rest } := h.frame rfl
    exact hhost.hostTurn ht
  · exact h.complete hc
  · have hhost : Inv { s with host := rest, seq := .busy w wait } := (h.wait hs).frame rfl
    exact hhost.hostTurn ht

end Sys2Proof.Machine
end

section
/-! The address map as a host access meets it, and the bus error (R60 to R65, R72, R78): O5, O12 to O14 and O16. -/

namespace Sys2Proof.Machine

open Sys2Proof

/-! The map. -/

/-- All `n` bytes from address `a` on lie in the row. -/
def RegionRow.Holds (row : RegionRow) (a n : Nat) : Prop := row.base ≤ a ∧ a + n ≤ row.base + row.size

theorem mapped_iff (cfg : Config) (a n : Nat) : mapped cfg a n ↔ ∃ row ∈ addressMap cfg, row.Holds a n := by
  simp [mapped, addressMap, RegionRow.Holds, bufRow, bufBase, bufSize, Config.tbufSize]

/-- The rows stand in rising order and never overlap, in every parameter range of R8. -/
theorem addressMap_ascending (cfg : Config) : (addressMap cfg).Pairwise fun r q => r.base + r.size ≤ q.base := by
  have hi := cfg.ibuf_range
  have ho := cfg.obuf_range
  have hp := cfg.pbuf_range
  simp [addressMap, bufRow, bufBase, bufSize, Config.tbufSize]
  omega

/-- An access lies in at most one row. -/
theorem addressMap_unique {cfg : Config} {a n : Nat} (hn : 0 < n) {r q : RegionRow} (hr : r ∈ addressMap cfg)
    (hq : q ∈ addressMap cfg) (hra : r.Holds a n) (hqa : q.Holds a n) : r = q := by
  have hsep : (addressMap cfg).Pairwise fun r q => ¬ (r.Holds a n ∧ q.Holds a n) := by
    refine (addressMap_ascending cfg).imp fun {x y} hxy ⟨⟨_, hx⟩, hy, _⟩ => ?_
    omega
  have : Std.Symm fun r q : RegionRow => ¬ (r.Holds a n ∧ q.Holds a n) := ⟨fun _ _ h hqr => h hqr.symm⟩
  by_contra hne
  exact hsep.forall hr hq hne ⟨hra, hqa⟩

/-- The row of an access found by the map. -/
theorem locate_some {cfg : Config} {a n : Nat} {r : Region} {off : Nat} (h : locate cfg a n = some (r, off)) :
    ∃ row ∈ addressMap cfg, row.Holds a n ∧ row.region = r ∧ a - row.base = off := by
  obtain ⟨row, hrow, heq⟩ := Option.map_eq_some_iff.mp h
  cases heq
  exact ⟨row, List.mem_of_find?_eq_some hrow, by simpa [RegionRow.Holds] using List.find?_some hrow, rfl, rfl⟩

theorem locate_none_iff (cfg : Config) (a n : Nat) : locate cfg a n = none ↔ ¬ mapped cfg a n := by
  simp [locate, mapped_iff, RegionRow.Holds]

/-- The map finds the row an access lies in. -/
theorem locate_of_holds {cfg : Config} {a n : Nat} (hn : 0 < n) {row : RegionRow} (hrow : row ∈ addressMap cfg)
    (h : row.Holds a n) : locate cfg a n = some (row.region, a - row.base) := by
  cases hl : locate cfg a n with
  | none => exact absurd ((mapped_iff cfg a n).mpr ⟨row, hrow, h⟩) ((locate_none_iff cfg a n).mp hl)
  | some p =>
    obtain ⟨q, hq, hqa, hreg, hoff⟩ := locate_some hl
    obtain rfl := addressMap_unique hn hq hrow hqa h
    rw [hreg, hoff]

/-- The narrow widths are admitted in the buffers only, which stand from 0x8000 on (R62). -/
theorem widthAdmitted_iff {cfg : Config} {a n bits : Nat} (hn : 0 < n) (hbits : bits = 8 ∨ bits = 16 ∨ bits = 32)
    {row : RegionRow} (hrow : row ∈ addressMap cfg) (h : row.Holds a n) :
    widthAdmitted row.region bits = true ↔ bits = 32 ∨ 0x8000 ≤ a := by
  obtain ⟨hlo, hhi⟩ := h
  simp only [addressMap, List.mem_cons, List.not_mem_nil, or_false] at hrow
  rcases hrow with rfl | rfl | rfl | rfl | rfl | rfl | rfl | rfl | rfl <;>
    simp [widthAdmitted, bufRow, bufBase] at hlo hhi ⊢ <;> omega

/-- An access has no location exactly under the conditions of R65. -/
theorem resolve_none_iff (cfg : Config) (bits : Nat) (a : Word) :
    resolve cfg bits a = none ↔ busErrorCondition cfg bits a := by
  by_cases hw : (bits = 8 ∨ bits = 16 ∨ bits = 32) ∧ a.toNat % (bits / 8) = 0
  · rw [resolve, if_pos hw]
    obtain ⟨hbits, hal⟩ := hw
    cases hl : locate cfg a.toNat (bits / 8) with
    | none => simp [busErrorCondition, (locate_none_iff _ _ _).mp hl]
    | some p =>
      obtain ⟨row, hrow, hin, hreg, -⟩ := locate_some hl
      have hmap : mapped cfg a.toNat (bits / 8) := (mapped_iff _ _ _).mpr ⟨row, hrow, hin⟩
      have hadm := widthAdmitted_iff (by omega) hbits hrow hin
      rw [hreg] at hadm
      simp only [busErrorCondition, hal, hmap, ite_eq_right_iff, hadm]
      simp only [reduceCtorEq, imp_false, ne_eq, not_true_eq_false, or_false]
      omega
  · rw [resolve, if_neg hw]
    simp only [busErrorCondition, true_iff]
    omega

/-- Every row starts at a multiple of 4, and ends inside the 32-bit address space. -/
theorem addressMap_range {cfg : Config} {row : RegionRow} (hrow : row ∈ addressMap cfg) :
    row.base % 4 = 0 ∧ row.base + row.size < 4294967296 := by
  have hi := cfg.ibuf_range
  have ho := cfg.obuf_range
  have hp := cfg.pbuf_range
  have hr := cfg.rbuf_range
  simp only [addressMap, List.mem_cons, List.not_mem_nil, or_false] at hrow
  rcases hrow with rfl | rfl | rfl | rfl | rfl | rfl | rfl | rfl | rfl <;>
    simp only [bufRow, bufBase, bufSize, Config.tbufSize, true_and] <;> omega

/-- An aligned access of an admitted width inside a row has its location at its offset in the row. -/
theorem resolve_row {cfg : Config} {row : RegionRow} (hrow : row ∈ addressMap cfg) {bits off : Nat}
    (hadm : widthAdmitted row.region bits = true) (hal : off % (bits / 8) = 0) (hfit : off + bits / 8 ≤ row.size) :
    resolve cfg bits (BitVec.ofNat 32 (row.base + off)) = some (row.region, off) := by
  have hbits : bits = 8 ∨ bits = 16 ∨ bits = 32 := by
    revert hadm
    cases row.region <;> simp [widthAdmitted] <;> omega
  obtain ⟨hbase, hend⟩ := addressMap_range hrow
  have ha : (BitVec.ofNat 32 (row.base + off)).toNat = row.base + off := by
    rw [BitVec.toNat_ofNat, Nat.mod_eq_of_lt (by omega)]
  have halign : (row.base + off) % (bits / 8) = 0 := by
    rcases hbits with rfl | rfl | rfl <;> omega
  have hin : row.Holds (row.base + off) (bits / 8) := ⟨by omega, by omega⟩
  rw [resolve, ha, if_pos ⟨hbits, halign⟩, locate_of_holds (by omega) hrow hin]
  simp [hadm]

/-! Accesses while IDLE. -/

/-- The answer to a read while IDLE (R63 to R69). -/
def State.readReply (s : State) (bits : Nat) (a : Word) : BusReply :=
  match resolve s.cfg bits a with
  | none => { data := 0#32, error := true }
  | some (r, off) => { data := s.readAt r off bits, error := false }

/-- A read while IDLE is its answer and nothing else. -/
theorem hostRead_idle {s : State} (hidle : s.seq = .idle) (bits : Nat) (a : Word) :
    s.hostRead bits a = { s with reply := some (s.readReply bits a) } := by
  unfold State.hostRead State.readReply
  cases resolve s.cfg bits a with
  | none => rfl
  | some p =>
    obtain ⟨r, off⟩ := p
    simp [hidle, Seq.isBusy, State.answer]

theorem readReply_of_resolve {s : State} {bits : Nat} {a : Word} {r : Region} {off : Nat}
    (h : resolve s.cfg bits a = some (r, off)) :
    s.readReply bits a = { data := s.readAt r off bits, error := false } := by
  simp only [State.readReply, h]

/-- An answer of the bus depends on no earlier answer. -/
theorem readReply_reply (s : State) (reply : Option BusReply) (bits : Nat) (a : Word) :
    State.readReply { s with reply := reply } bits a = s.readReply bits a := rfl

/-- A write while IDLE to a location other than CMD. -/
theorem hostWrite_idle {s : State} (hidle : s.seq = .idle) {bits : Nat} {a : Word} {r : Region} {off : Nat}
    (hres : resolve s.cfg bits a = some (r, off)) (hcmd : ¬ (r = .csr ∧ off = csrOffset .CMD)) (v : Word) :
    s.hostWrite bits a v = .next ((s.writeAt r off bits v).answer 0#32 false) := by
  simp only [State.hostWrite, hres, hcmd, hidle, Seq.isBusy, if_false, Bool.false_eq_true]

/-- A read-only location: a word of a window, or a register or reserved offset that is none of CMD, IN_LEN, PAY_LEN,
TXT_LEN and RTXT_LEN (R78). -/
def ReadOnly (r : Region) (off : Nat) : Prop :=
  (∀ b, r ≠ .buffer b) ∧ (r = .csr → off ∉ [0x4, 0x14, 0x18, 0x20, 0x24])

theorem readOnly_freqWin (off : Nat) : ReadOnly .freqWin off := ⟨by simp, by simp⟩
theorem readOnly_nodeWin (off : Nat) : ReadOnly .nodeWin off := ⟨by simp, by simp⟩
theorem readOnly_ctWin (off : Nat) : ReadOnly .ctWin off := ⟨by simp, by simp⟩

theorem writeAt_readOnly (s : State) {r : Region} {off : Nat} (h : ReadOnly r off) (bits : Nat) (v : Word) :
    s.writeAt r off bits v = s := by
  obtain ⟨hbuf, hcsr⟩ := h
  cases r with
  | csr =>
    cases hc : csrAt off with
    | none => simp only [State.writeAt, hc]
    | some name =>
      have hname : csrOffset name = off := by simpa using List.find?_some hc
      have hoff := hcsr rfl
      simp only [State.writeAt, hc]
      rw [← hname] at hoff
      cases name <;> simp [csrOffset] at hoff <;> rfl
  | freqWin => rfl
  | nodeWin => rfl
  | ctWin => rfl
  | buffer b => exact absurd rfl (hbuf b)

/-- A write to a read-only location is ignored without a bus error (R78). -/
theorem hostWrite_readOnly {s : State} (hidle : s.seq = .idle) {bits : Nat} {a : Word} {r : Region} {off : Nat}
    (hres : resolve s.cfg bits a = some (r, off)) (h : ReadOnly r off) (v : Word) :
    s.hostWrite bits a v = .next { s with reply := some { data := 0#32, error := false } } := by
  have hcmd : ¬ (r = .csr ∧ off = csrOffset .CMD) := by
    rintro ⟨hr, rfl⟩
    exact h.2 hr (by decide)
  rw [hostWrite_idle hidle hres hcmd, writeAt_readOnly s h]
  rfl

/-! The statements. -/

/-- Settles O5, by the case of a step that the host's turn is. -/
theorem stepGivesTheHostItsTurn : Obligations.StepGivesTheHostItsTurn := by
  refine ⟨fun s hseq hhost => ?_, fun s op rest hhost => ⟨fun hseq => ?_, fun w n hseq => ?_⟩⟩ <;>
    simp only [step, hseq, hhost]

/-- An access under a condition of R65 gets the bus error, BUSY or not. -/
theorem access_of_busErrorCondition {s : State} {bits : Nat} {a : Word} (h : busErrorCondition s.cfg bits a) (v : Word) :
    s.hostRead bits a = s.busError ∧ s.hostWrite bits a v = .next s.busError := by
  have hres := (resolve_none_iff s.cfg bits a).mpr h
  exact ⟨by simp only [State.hostRead, hres], by simp only [State.hostWrite, hres]⟩

/-- An access under no condition of R65 gets no bus error, BUSY or not. -/
theorem access_reply_of_location {s : State} {bits : Nat} {a : Word} (h : ¬ busErrorCondition s.cfg bits a) (v : Word) :
    (∃ d, (s.hostRead bits a).reply = some { data := d, error := false }) ∧
    (∀ t, s.hostWrite bits a v = .next t → t.reply = some { data := 0#32, error := false }) := by
  obtain ⟨⟨r, off⟩, hres⟩ := Option.ne_none_iff_exists'.mp ((resolve_none_iff s.cfg bits a).not.mpr h)
  constructor
  · simp only [State.hostRead, hres]
    split
    · exact ⟨_, rfl⟩
    · exact ⟨_, rfl⟩
  · intro t ht
    rcases hostWrite_cases s bits a v with ⟨hnone, _⟩ | ⟨_, _, _, ⟨_, _, hw⟩ | ⟨_, _, hw⟩ | ⟨_, _, hw⟩⟩
    · rw [hres] at hnone
      cases hnone
    · rw [hw] at ht
      cases ht
      rfl
    · rw [hw] at ht
      cases ht
    · rw [hw] at ht
      cases ht
      rfl

/-- Settles O12: the conditions of R65 are those under which an access has no location. -/
theorem busErrorExactly : Obligations.BusErrorExactly :=
  fun _ _ _ v _ => ⟨fun h => access_of_busErrorCondition h v, fun h => access_reply_of_location h v⟩

/-- Settles O13: the bus error comes before SEQ is looked at. -/
theorem busErrorsWhileBusy : Obligations.BusErrorsWhileBusy :=
  fun _ _ _ v _ => ⟨fun h => access_of_busErrorCondition h v, fun h => access_reply_of_location h v⟩

/-- Settles O14: a read while IDLE is its answer, and the answer does not depend on the one before. -/
theorem idleReadsHaveNoSideEffect : Obligations.IdleReadsHaveNoSideEffect := by
  intro s bits a hidle
  have hagain : State.seq { s with reply := some (s.readReply bits a) } = .idle := hidle
  have hsame := readReply_reply s (some (s.readReply bits a)) bits a
  exact ⟨s.readReply bits a, hostRead_idle hidle bits a,
    (hostRead_idle hagain bits a).trans (congrArg (fun r => { s with reply := some r }) hsame)⟩

/-- The row and the offset of an access that has a location (R60). -/
theorem row_of_resolve {cfg : Config} {bits : Nat} {a : Word} {r : Region} {off : Nat}
    (h : resolve cfg bits a = some (r, off)) :
    ∃ row ∈ addressMap cfg, row.Holds a.toNat (bits / 8) ∧ row.region = r ∧ a.toNat - row.base = off := by
  unfold resolve at h
  split at h
  · cases hl : locate cfg a.toNat (bits / 8) with
    | none => simp [hl] at h
    | some p =>
      simp only [hl] at h
      split at h
      · cases h
        exact locate_some hl
      · cases h
  · cases h

/-- The buffers stand from 0x8000 on (R60). -/
theorem resolve_buffer_base {cfg : Config} {bits : Nat} {a : Word} {b : BufId} {off : Nat}
    (h : resolve cfg bits a = some (.buffer b, off)) : 0x8000 ≤ a.toNat := by
  obtain ⟨row, hrow, ⟨hlo, _⟩, hreg, _⟩ := row_of_resolve h
  simp only [addressMap, List.mem_cons, List.not_mem_nil, or_false] at hrow
  rcases hrow with rfl | rfl | rfl | rfl | rfl | rfl | rfl | rfl | rfl <;> simp [bufRow, bufBase] at hreg hlo <;> omega

/-- Settles O16: below the buffers a location is a register at its own address, or a window. -/
theorem readOnlyWritesAreIgnored : Obligations.ReadOnlyWritesAreIgnored := by
  intro s hidle
  constructor
  · intro bits a v hmapped hlow hnot
    obtain ⟨⟨r, off⟩, hres⟩ := Option.ne_none_iff_exists'.mp ((resolve_none_iff s.cfg bits a).not.mpr hmapped)
    refine hostWrite_readOnly hidle hres ⟨?_, ?_⟩ v
    · rintro b rfl
      exact absurd (resolve_buffer_base hres) (by omega)
    · rintro rfl
      rwa [← (resolve_csr_inv hres).2]
  · exact hostRead_register s 4#32 .CMD (by decide) (by decide) (by decide) (.inl (by rw [hidle]; rfl))

end Sys2Proof.Machine
end

section
/-! The array windows (R66 to R68): O19 to O21. -/

namespace Sys2Proof.Machine

open Sys2Proof

/-- The row of the FREQ window (R60). -/
def freqRow : RegionRow := { base := 0x1000, size := 0x400, region := .freqWin }

/-- The row of the NODE window (R60). -/
def nodeRow : RegionRow := { base := 0x2000, size := 0x2000, region := .nodeWin }

/-- The row of the CT window (R60). -/
def ctRow : RegionRow := { base := 0x4000, size := 0x4000, region := .ctWin }

/-- The rows of the three array windows. -/
def windowRows : List RegionRow := [freqRow, nodeRow, ctRow]

/-- A window is in the map, admits 32-bit accesses, and is read-only (R60, R62, R66 to R68). -/
theorem windowRows_spec {row : RegionRow} (h : row ∈ windowRows) (cfg : Config) :
    row ∈ addressMap cfg ∧ widthAdmitted row.region 32 = true ∧ ∀ off, ReadOnly row.region off := by
  simp only [windowRows, List.mem_cons, List.not_mem_nil, or_false] at h
  rcases h with rfl | rfl | rfl
  · exact ⟨by simp [freqRow, addressMap], rfl, readOnly_freqWin⟩
  · exact ⟨by simp [nodeRow, addressMap], rfl, readOnly_nodeWin⟩
  · exact ⟨by simp [ctRow, addressMap], rfl, readOnly_ctWin⟩

section
variable {s : State} (hidle : s.seq = .idle) {row : RegionRow} (hrow : row ∈ windowRows) {addr k : Nat}
  (haddr : addr = row.base + 4 * k) (hk : 4 * k + 4 ≤ row.size)
include hrow haddr hk

/-- Word `k` of a window is at its base plus 4k. -/
theorem resolve_window (cfg : Config) : resolve cfg 32 (BitVec.ofNat 32 addr) = some (row.region, 4 * k) := by
  obtain ⟨hmem, hadm, -⟩ := windowRows_spec hrow cfg
  rw [haddr]
  exact resolve_row hmem hadm (by omega) hk

include hidle

/-- A 32-bit read of word `k` of a window while IDLE. -/
theorem hostRead_window : s.hostRead 32 (BitVec.ofNat 32 addr) =
    { s with reply := some { data := s.readAt row.region (4 * k) 32, error := false } } := by
  rw [hostRead_idle hidle, readReply_of_resolve (resolve_window hrow haddr hk s.cfg)]

/-- A 32-bit write to word `k` of a window while IDLE is ignored. -/
theorem hostWrite_window (v : Word) : s.hostWrite 32 (BitVec.ofNat 32 addr) v =
    .next { s with reply := some { data := 0#32, error := false } } := by
  obtain ⟨-, -, hro⟩ := windowRows_spec hrow s.cfg
  exact hostWrite_readOnly hidle (resolve_window hrow haddr hk s.cfg) (hro _) v

end

/-! FREQ. -/

theorem readAt_freqWin (s : State) (x : Byte) (bits : Nat) :
    s.readAt .freqWin (4 * x.toNat) bits = s.freq[x.toNat]'x.isLt := by
  simp [State.readAt, show x.toNat < 256 from x.isLt]

/-- Settles O19: word x of the window. -/
theorem freqWindowReadsFreq : Obligations.FreqWindowReadsFreq := by
  intro s x v hidle
  have hrow : freqRow ∈ windowRows := by simp [windowRows]
  have hx : 4 * x.toNat + 4 ≤ 0x400 := by have := x.isLt; omega
  rw [← readAt_freqWin s x 32]
  exact ⟨hostRead_window hidle hrow rfl hx, hostWrite_window hidle hrow rfl hx v⟩

/-! NODE. -/

/-- Word `k` of entry `i` of the NODE window. -/
theorem readAt_nodeWin (s : State) (i : BitVec 9) {k : Nat} (hk : k < 4) (bits : Nat) :
    s.readAt .nodeWin (4 * (4 * i.toNat + k)) bits = nodeWord (nodeAt s.node i) k := by
  have hentry : 4 * (4 * i.toNat + k) / 16 = i.toNat := by omega
  have hword : 4 * (4 * i.toNat + k) % 16 / 4 = k := by omega
  have hi : i.toNat < 512 := i.isLt
  simp [State.readAt, hentry, hword, nodeAt, hi]

/-- Word 0 of an entry: KIND at [1:0], SYM at [15:8], every other bit 0 (R67). -/
theorem nodeWord_zero_fields (n : Node) :
    (nodeWord n 0).extractLsb' 0 2 = n.kind ∧ (nodeWord n 0).extractLsb' 2 6 = 0#6 ∧
    (nodeWord n 0).extractLsb' 8 8 = n.sym ∧ (nodeWord n 0).extractLsb' 16 16 = 0#16 := by
  have hbit (j : Nat) : (nodeWord n 0).getLsbD j =
      (decide (j < 32) && n.kind.getLsbD j || decide (8 ≤ j) && n.sym.getLsbD (j - 8)) := by
    rw [nodeWord, BitVec.getLsbD_or, secondByte_getLsbD, BitVec.getLsbD_setWidth]
  refine ⟨?_, ?_, ?_, ?_⟩ <;> apply BitVec.eq_of_getLsbD_eq <;> intro j hj <;>
    rw [BitVec.getLsbD_extractLsb', hbit]
  · simp [hj, show j < 32 by omega, show ¬ 8 ≤ j by omega]
  · simp [show ¬ 8 ≤ 2 + j by omega]
  · simp [hj, BitVec.getLsbD_of_ge n.kind (8 + j) (by omega)]
  · simp [BitVec.getLsbD_of_ge n.kind (16 + j) (by omega), BitVec.getLsbD_of_ge n.sym (16 + j - 8) (by omega)]

/-- Settles O20: words 4i to 4i + 3 of the window. -/
theorem nodeWindowReadsNode : Obligations.NodeWindowReadsNode := by
  intro s i v hidle
  have hrow : nodeRow ∈ windowRows := by simp [windowRows]
  have hfit (k : Nat) (hk : k < 4) : 4 * (4 * i.toNat + k) + 4 ≤ 0x2000 := by have := i.isLt; omega
  have hread (addr k : Nat) (hk : k < 4) (haddr : addr = 0x2000 + 4 * (4 * i.toNat + k)) :
      (s.hostRead 32 (BitVec.ofNat 32 addr)).reply = some { data := nodeWord (nodeAt s.node i) k, error := false } := by
    rw [hostRead_window hidle hrow haddr (hfit k hk), ← readAt_nodeWin s i hk 32]
    rfl
  exact ⟨⟨_, hread _ 0 (by omega) (by omega), nodeWord_zero_fields _⟩, hread _ 1 (by omega) (by omega),
    hread _ 2 (by omega) (by omega), hread _ 3 (by omega) (by omega),
    fun k hk => hostWrite_window hidle hrow (k := 4 * i.toNat + k) (by simp only [nodeRow]; omega) (hfit k hk) v⟩

/-! CT. -/

/-- The code of an entry, empty where VALID = 0 (R42). -/
def codeBitsOf (e : Option Code) : Bits :=
  match e with
  | some c => c.bits
  | none => []

/-- Word `j` of entry `x` of the CT window. -/
theorem readAt_ctWin (s : State) (x : Byte) {j : Nat} (hj : j < 16) (bits : Nat) :
    s.readAt .ctWin (4 * (16 * x.toNat + j)) bits = ctWord (entryAt s.ct x) j := by
  have hentry : 4 * (16 * x.toNat + j) / 64 = x.toNat := by omega
  have hword : 4 * (16 * x.toNat + j) % 64 / 4 = j := by omega
  have hx : x.toNat < 256 := x.isLt
  simp [State.readAt, hentry, hword, entryAt, hx]

/-- Word 0 of an entry: VALID at 31, LEN at [7:0], zeros between (R68). -/
theorem ctWord_zero_fields (e : Option Code) :
    (ctWord e 0).getLsbD 31 = e.isSome ∧ (ctWord e 0).extractLsb' 8 23 = 0#23 ∧
    (ctWord e 0).extractLsb' 0 8 = BitVec.ofNat 8 (codeBitsOf e).length := by
  cases e with
  | none => simp [ctWord, codeBitsOf]
  | some c =>
    have hlen : c.bits.length < 2 ^ 8 := by have := c.len_range; omega
    have hhigh (j : Nat) (hj : 8 ≤ j) : c.bits.length.testBit j = false :=
      Nat.testBit_lt_two_pow (hlen.trans_le (Nat.pow_le_pow_right (by omega) hj))
    have hbit (j : Nat) : (ctWord (some c) 0).getLsbD j =
        (decide (j < 32) && c.bits.length.testBit j || decide (j = 31)) := by
      simp only [ctWord, if_pos, BitVec.getLsbD_or, BitVec.getLsbD_ofNat, flagBit_getLsbD true 31 j (by decide), Code.len,
        Bool.and_true]
    refine ⟨by rw [hbit]; simp, ?_, ?_⟩ <;> apply BitVec.eq_of_getLsbD_eq <;> intro j hj <;>
      rw [BitVec.getLsbD_extractLsb', hbit]
    · simp [hhigh (8 + j) (by omega), show 8 + j ≠ 31 by omega]
    · simp only [BitVec.getLsbD_ofNat, codeBitsOf, Nat.zero_add, hj, show j < 32 by omega, show j ≠ 31 by omega,
        decide_true, decide_false, Bool.true_and, Bool.or_false]

/-- Words 1 to 8 of an entry: code bit 32k + m at bit 31 - m of word 1 + k (R68). -/
theorem ctWord_code_bits (e : Option Code) {k m : Nat} (hk : k < 8) (hm : m < 32) :
    (ctWord e (k + 1)).getLsbD (31 - m) = (codeBitsOf e).getD (32 * k + m) false := by
  cases e with
  | none => simp [ctWord, codeBitsOf]
  | some c =>
    have hbit := msbFirst_getLsbD 32 (fun m => bitAt c.bits (32 * k + m)) m hm
    simpa [ctWord, codeBitsOf, bitAt, show k + 1 ≤ 8 by omega] using hbit

/-- The last seven words of an entry are 0 (R68). -/
theorem ctWord_reserved (e : Option Code) {j : Nat} (hj : 9 ≤ j) : ctWord e j = 0#32 := by
  cases e with
  | none => rfl
  | some c => simp [ctWord, show j ≠ 0 by omega, show ¬ j ≤ 8 by omega]

/-- Settles O21: words 16x to 16x + 15 of the window. -/
theorem ctWindowReadsCode : Obligations.CtWindowReadsCode := by
  intro s x v u hidle hu
  have hrow : ctRow ∈ windowRows := by simp [windowRows]
  have hfit (j : Nat) (hj : j < 16) : 4 * (16 * x.toNat + j) + 4 ≤ 0x4000 := by have := x.isLt; omega
  have hread (addr j : Nat) (hj : j < 16) (haddr : addr = 0x4000 + 4 * (16 * x.toNat + j)) :
      (s.hostRead 32 (BitVec.ofNat 32 addr)).reply = some { data := ctWord (entryAt s.ct x) j, error := false } := by
    rw [hostRead_window hidle hrow haddr (hfit j hj), ← readAt_ctWin s x hj 32]
    rfl
  have hcode : u = codeBitsOf (entryAt s.ct x) := hu
  rw [hcode]
  refine ⟨⟨_, hread _ 0 (by omega) (by omega), ctWord_zero_fields _⟩,
    fun k hk => ⟨_, hread _ (k + 1) (by omega) (by omega), fun m hm => ctWord_code_bits _ hk hm⟩, fun j hlo hhi => ?_,
    fun j hj => hostWrite_window hidle hrow (k := 16 * x.toNat + j) (by simp only [ctRow]; omega) (hfit j hj) v⟩
  rw [hread _ j hhi (by omega), ctWord_reserved _ hlo]

end Sys2Proof.Machine
end

section
/-! The buffer windows (R63, R69, R79): O15. -/

namespace Sys2Proof.Machine

open Sys2Proof

/-- A value of one byte more, its low byte first (R63). -/
theorem littleEndian_cons (b : Byte) (bs : List Byte) :
    littleEndian (b :: bs) = BitVec.ofNat 32 (b.toNat + 256 * (littleEndian bs).toNat) := by
  have hdisjoint : b.setWidth 32 &&& littleEndian bs <<< 8 = 0#32 := by
    apply BitVec.eq_of_getLsbD_eq
    intro j hj
    by_cases h8 : j < 8
    · simp [h8]
    · simp [BitVec.getLsbD_of_ge b j (by omega)]
  rw [littleEndian, ← BitVec.add_eq_or_of_and_eq_zero _ _ hdisjoint]
  apply BitVec.eq_of_toNat_eq
  simp [BitVec.toNat_shiftLeft, Nat.shiftLeft_eq, Nat.mul_comm]

/-- The little-endian value in numbers: byte k counts 256 ^ k (R63). -/
theorem littleEndian_range (n : Nat) (f : Nat → Byte) :
    littleEndian ((List.range n).map f) =
      BitVec.ofNat 32 ((List.range n).map fun k => (f k).toNat * 256 ^ k).sum := by
  induction n generalizing f with
  | zero => rfl
  | succ n ih =>
    simp only [List.range_succ_eq_map, List.map_cons, List.map_map, List.sum_cons, littleEndian_cons]
    have hshift : ((List.range n).map fun k => (f (k + 1)).toNat * 256 ^ (k + 1)).sum =
        256 * ((List.range n).map fun k => (f (k + 1)).toNat * 256 ^ k).sum := by
      rw [← List.sum_map_mul_left]
      congr 2
      funext k
      rw [pow_succ]
      ring
    have htail := ih fun k => f (k + 1)
    apply BitVec.eq_of_toNat_eq
    simp only [Function.comp_def, Nat.succ_eq_add_one, htail, hshift, BitVec.toNat_ofNat]
    omega

/-- The bytes of a value read back as its low bits (R63). -/
theorem littleEndian_bytesOf (n : Nat) (v : Word) :
    littleEndian (bytesOf n v) = BitVec.ofNat 32 (v.toNat % 256 ^ n) := by
  rw [bytesOf, littleEndian_range]
  congr 1
  induction n with
  | zero => simp [Nat.mod_one]
  | succ n ih =>
    have hpow : 2 ^ (8 * n) = 256 ^ n := pow_mul 2 8 n
    rw [List.range_succ, List.map_append, List.sum_append, ih, Nat.mod_pow_succ]
    simp [Nat.shiftRight_eq_div_pow, hpow, Nat.mul_comm (256 ^ n)]

theorem byteAt_answer (s : State) (data : Word) (error : Bool) (b : BufId) (k : Nat) :
    (s.answer data error).byteAt b k = s.byteAt b k := byteAt_congr s _ b k (buf_answer s data error b)

theorem bytesAt_answer (s : State) (data : Word) (error : Bool) (b : BufId) (off n : Nat) :
    (s.answer data error).bytesAt b off n = s.bytesAt b off n := by
  simp only [State.bytesAt, byteAt_answer]

section
variable {s : State} (hidle : s.seq = .idle) {b : BufId} {off bits : Nat} (hbits : bits = 8 ∨ bits = 16 ∨ bits = 32)
  (hal : off % (bits / 8) = 0) (hfit : off + bits / 8 ≤ bufSize s.cfg b)
include hbits hal hfit

/-- An aligned access of a supported width inside a buffer has its location at its offset in the buffer (R60, R69). -/
theorem resolve_bufRow : resolve s.cfg bits (BitVec.ofNat 32 (bufBase b + off)) = some (.buffer b, off) := by
  have hrow : bufRow s.cfg b ∈ addressMap s.cfg := by cases b <;> simp [addressMap]
  have hadm : widthAdmitted (bufRow s.cfg b).region bits = true := by
    rcases hbits with rfl | rfl | rfl <;> rfl
  exact resolve_row hrow hadm hal hfit

include hidle

theorem hostRead_buffer : s.hostRead bits (BitVec.ofNat 32 (bufBase b + off)) =
    { s with reply := some { data := littleEndian (s.bytesAt b off (bits / 8)), error := false } } := by
  rw [hostRead_idle hidle, readReply_of_resolve (resolve_bufRow hbits hal hfit)]
  rfl

theorem hostWrite_buffer (v : Word) : s.hostWrite bits (BitVec.ofNat 32 (bufBase b + off)) v =
    .next ((s.writeBytes b off (bytesOf (bits / 8) v)).answer 0#32 false) :=
  hostWrite_idle hidle (resolve_bufRow hbits hal hfit) (by simp) v

end

/-- Settles O15: the write by the laws of a buffer write, the reads by the value of the bytes they cover. -/
theorem bufferWriteThenRead : Obligations.BufferWriteThenRead := by
  intro s b off bits v hidle hbits hal hfit
  have hlen : (bytesOf (bits / 8) v).length = bits / 8 := by simp [bytesOf]
  have hpow : 256 ^ (bits / 8) = 2 ^ bits := by rcases hbits with rfl | rfl | rfl <;> rfl
  refine ⟨?_, (s.writeBytes b off (bytesOf (bits / 8) v)).answer 0#32 false, hostWrite_buffer hidle hbits hal hfit v, ?_,
    ?_, ?_, ?_⟩
  · rw [hostRead_buffer hidle hbits hal hfit, State.bytesAt, littleEndian_range]
  · cases b <;> rfl
  · intro k hk
    rw [byteAt_answer, byteAt_writeBytes_inside s b off k _ (by omega)]
    simp [bytesOf]
  · intro b' k hout
    rw [byteAt_answer]
    exact byteAt_writeBytes_outside s b b' off k _ (by rwa [hlen])
  · have hidle' : State.seq ((s.writeBytes b off (bytesOf (bits / 8) v)).answer 0#32 false) = .idle := by simpa using hidle
    have hbytes := bytesAt_writeBytes s b off (bytesOf (bits / 8) v)
    rw [hlen] at hbytes
    rw [hostRead_buffer hidle' hbits hal (by simpa using hfit), bytesAt_answer, hbytes, littleEndian_bytesOf, hpow]

end Sys2Proof.Machine
end

section
/-! Payload bits in PBUF (R70, R140, R181): O39. -/

namespace Sys2Proof.Machine

open Sys2Proof

/-- A PBUF byte is its eight payload bits (R70). -/
theorem pbufByte_ext {s t : State} {k : Nat} (h : ∀ m < 8, s.pBit (8 * k + m) = t.pBit (8 * k + m)) :
    s.byteAt .pbuf k = t.byteAt .pbuf k := by
  apply BitVec.eq_of_getLsbD_eq
  intro j hj
  have hbit := h (7 - j) (by omega)
  have hbyte : (8 * k + (7 - j)) / 8 = k := by omega
  have hpos : 7 - (8 * k + (7 - j)) % 8 = j := by omega
  simpa only [State.pBit, hbyte, hpos] using hbit

/-- A byte with bit `p` set to `b`. -/
def withBit (old : Byte) (p : Nat) (b : Bool) : Byte := if b then old ||| 1#8 <<< p else old &&& ~~~(1#8 <<< p)

theorem withBit_getLsbD (old : Byte) (p : Nat) (b : Bool) {j : Nat} (hj : j < 8) :
    (withBit old p b).getLsbD j = if j = p then b else old.getLsbD j := by
  have hmask : (1#8 <<< p).getLsbD j = decide (j = p) := by
    rw [Bool.eq_iff_iff]
    simp [hj]
    omega
  cases b with
  | false =>
    simp only [withBit, Bool.false_eq_true, if_false, BitVec.getLsbD_and, BitVec.getLsbD_not, hmask, hj]
    by_cases h : j = p <;> simp [h]
  | true =>
    simp only [withBit, if_true, BitVec.getLsbD_or, hmask]
    by_cases h : j = p <;> simp [h]

/-- PBitWrite writes one byte, that of its bit, with the bit set (R70). -/
theorem pBitWrite_eq (s : State) (i : Nat) (b : Bool) :
    s.pBitWrite i b = s.writeBytes .pbuf (i / 8) [withBit (s.byteAt .pbuf (i / 8)) (7 - i % 8) b] := rfl

/-- PBitWrite(i, b) changes payload bit i to b and no other (R70). -/
theorem pBit_pBitWrite (s : State) (i : Nat) (b : Bool) (j : Nat) :
    (s.pBitWrite i b).pBit j = if j = i then b else s.pBit j := by
  rw [pBitWrite_eq, State.pBit, State.pBit]
  by_cases hbyte : j / 8 = i / 8
  · have hbit : 7 - j % 8 = 7 - i % 8 ↔ j = i := by omega
    have hwritten := byteAt_writeBytes_inside s .pbuf (i / 8) 0 [withBit (s.byteAt .pbuf (i / 8)) (7 - i % 8) b] (by simp)
    rw [Nat.add_zero] at hwritten
    rw [hbyte, hwritten, List.getElem_singleton, withBit_getLsbD _ _ _ (by omega)]
    simp only [hbit]
  · have hne : j ≠ i := by rintro rfl; exact hbyte rfl
    rw [if_neg hne, byteAt_writeBytes_outside s .pbuf .pbuf _ _ _ (by simp; omega)]

/-- Writing bits one by one changes the payload bits written and no other. -/
theorem pBit_writeBits (u : Bits) (s : State) (q j : Nat) :
    (s.writeBits q u).pBit j = if q ≤ j ∧ j < q + u.length then bitAt u (j - q) else s.pBit j := by
  induction u generalizing s q with
  | nil => simp [State.writeBits, show ¬ (q ≤ j ∧ j < q) by omega]
  | cons b u ih =>
    rw [State.writeBits, ih, pBit_pBitWrite]
    by_cases hfirst : j = q
    · simp [hfirst, bitAt]
    · have hrange : (q + 1 ≤ j ∧ j < q + 1 + u.length) ↔ (q ≤ j ∧ j < q + (b :: u).length) := by
        rw [List.length_cons]
        omega
      simp only [hrange, if_neg hfirst]
      split
      · have hpos : j - q = (j - (q + 1)) + 1 := by omega
        rw [bitAt, bitAt, hpos, List.getD_cons_succ]
      · rfl

/-- The pad bits are 0, as bits past the end of a payload are. -/
theorem bitAt_pad (u : Bits) (n j : Nat) : bitAt (u ++ List.replicate n false) j = bitAt u j := by
  by_cases h : j < u.length
  · rw [bitAt, bitAt, List.getD_append _ _ _ _ h]
  · rw [bitAt, bitAt, List.getD_append_right _ _ _ _ (by omega), List.getD_eq_getElem?_getD,
      List.getElem?_getD_replicate_default_eq, List.getD_eq_default _ _ (by omega)]

/-- Settles O39, payload bit by payload bit. -/
theorem packingMatchesBitWrites : Obligations.PackingMatchesBitWrites := by
  refine ⟨pBit_pBitWrite, fun s u k => pbufByte_ext fun m hm => ?_⟩
  rw [pBit_writeBits]
  have hlen : (u ++ List.replicate (8 * ((u.length + 7) / 8) - u.length) false).length = 8 * ((u.length + 7) / 8) := by
    simp; omega
  rw [hlen]
  by_cases hk : k < (u.length + 7) / 8
  · rw [if_pos (by omega), bitAt_pad, pBit_putPayload s u _ (by omega)]
    rfl
  · have hbyte : (8 * k + m) / 8 = k := by omega
    rw [if_neg (by omega)]
    simp only [State.pBit, hbyte, byteAt_putPayload_past s u k (by omega)]

end Sys2Proof.Machine
end

section
/-! The decoder and the encoder (R90 to R95): O1, O2 and O3; the acceptance of an illegal word (R93): O8. -/

namespace Sys2Proof.Machine

open Sys2Proof

/-! The fields of a word (R90). -/

theorem ofWord_op_toNat (w : Word) : (RawCommand.ofWord w).op.toNat = w.toNat % 256 := by
  simp [RawCommand.ofWord, BitVec.extractLsb'_toNat]

theorem ofWord_rsvd_eq_zero_iff (w : Word) : (RawCommand.ofWord w).rsvd = 0#24 ↔ w.toNat < 256 := by
  have hw := w.isLt
  simp only [RawCommand.ofWord, ← BitVec.toNat_inj, BitVec.extractLsb'_toNat, BitVec.toNat_ofNat, Nat.shiftRight_eq_div_pow]
  omega

/-! The opcode map (R92). -/

/-- The opcodes without a command (R93). -/
theorem lookup_eq_none_iff_toNat (op : BitVec 8) : opcodeMap.lookup op = none ↔ op.toNat = 0 ∨ 10 ≤ op.toNat := by
  simp only [List.lookup_eq_none_iff, opcodeMap, List.forall_mem_cons, List.not_mem_nil, false_implies, implies_true,
    and_true, bne_iff_ne, ne_eq, ← BitVec.toNat_inj, BitVec.toNat_ofNat]
  omega

/-! The decoder, by the two reasons for which a word is illegal. -/

theorem decode_encode (i : Instr) : decode (encode i) = .command i := by
  cases i <;> rfl

theorem decode_illegal_iff (w : Word) :
    (decode w = .illegal .reservedOpcode ↔ opcodeMap.lookup (RawCommand.ofWord w).op = none) ∧
    (decode w = .illegal .reservedBits ↔
      ¬ opcodeMap.lookup (RawCommand.ofWord w).op = none ∧ ¬ (RawCommand.ofWord w).rsvd = 0#24) := by
  simp only [decode, decodeRaw]
  cases opcodeMap.lookup (RawCommand.ofWord w).op with
  | none => simp
  | some i => by_cases h : (RawCommand.ofWord w).rsvd = 0#24 <;> simp [h]

/-- Settles O2: the only word that decodes to a command is its own, and its own word decodes to it. -/
theorem decodeEncodeAgree : Obligations.DecodeEncodeAgree := by
  intro w i
  constructor
  · exact eq_encode_of_decode
  · rintro rfl
    exact decode_encode i

/-- Settles O3: the two reasons in terms of the fields, and the fields in terms of the word. -/
theorem illegalWordsByCause : Obligations.IllegalWordsByCause := by
  intro w
  obtain ⟨hopcode, hbits⟩ := decode_illegal_iff w
  rw [lookup_eq_none_iff_toNat, ofWord_op_toNat] at hopcode hbits
  rw [ofWord_rsvd_eq_zero_iff] at hbits
  refine ⟨hopcode, hbits.trans ?_⟩
  omega

/-- Settles O1, by running the decoder on the fourteen words. -/
theorem commandWordsDecode : Obligations.CommandWordsDecode := by
  unfold Obligations.CommandWordsDecode
  decide

/-! The acceptance of an illegal word. -/

/-- The sub-cause of an illegal word, a reserved opcode before reserved bits (R93). -/
theorem decode_of_illegal {w : Word} (h : w.toNat % 256 = 0 ∨ 10 ≤ w.toNat % 256 ∨ 256 ≤ w.toNat) :
    decode w = .illegal (if w.toNat % 256 = 0 ∨ 10 ≤ w.toNat % 256 then .reservedOpcode else .reservedBits) := by
  obtain ⟨hopcode, hbits⟩ := illegalWordsByCause w
  split
  · rwa [hopcode]
  · rw [hbits]
    omega

/-- LASTOP is the low byte of the accepted word (R203). -/
theorem lowByte_eq (w : Word) : w.extractLsb' 0 8 = BitVec.ofNat 8 w.toNat :=
  BitVec.eq_of_toNat_eq (by simp [BitVec.extractLsb'_toNat])

/-- A 32-bit write to CMD is a command request, BUSY or not (R203, R208). -/
theorem hostWrite_cmd (s : State) (w : Word) :
    s.hostWrite 32 0x4#32 w = .next ((s.requestCommand w).answer 0#32 false) := by
  simp [State.hostWrite, resolve_csr s.cfg 0x4#32 (by decide) (by decide), csrOffset]

/-- ERRCODE of an illegal word: CAUSE 5, and SUB 1 or 2 by the reason (R202, R205). -/
theorem errCodeOf_illegalCommand (reserved : Prop) [Decidable reserved] :
    errCodeOf (.illegalCommand (if reserved then .reservedOpcode else .reservedBits)) =
      { cause := 5#8, sub := if reserved then 1#8 else 2#8 } := by
  split <;> rfl

/-- An illegal word completes inside its acceptance (R93, R203, R205; log 7). -/
theorem accept_illegal {s : State} {w : Word} {why : IllegalWord} (h : decode w = .illegal why) :
    s.accept w =
      { s with seq := .idle, latencies := s.latencies.tail, done := true, err := true, ovr := false,
               lastOp := BitVec.ofNat 8 w.toNat, errCode := errCodeOf (.illegalCommand why), errPos := 0#32 } := by
  simp only [State.accept, h, State.recordError, State.latch, lowByte_eq]

/-- Settles O8: while IDLE the CMD write is the acceptance, and an illegal word's acceptance is its completion. -/
theorem illegalWordCompletesAtOnce : Obligations.IllegalWordCompletesAtOnce := by
  intro s w hidle hill
  have hfree : s.seq.isBusy = false := by rw [hidle]; rfl
  rw [hostWrite_cmd, requestCommand_idle w hfree, accept_illegal (decode_of_illegal hill), errCodeOf_illegalCommand, ← hidle]
  rfl

end Sys2Proof.Machine
end

section
/-! The host assembly (R96 to R99, R251): the poll loop, O55, and what each statement has the host do, O56. -/

namespace Sys2Proof.Machine

open Sys2Proof

/-- STATUS bit 0 is BUSY (R26). -/
theorem statusWord_busy (s : State) : s.statusWord.getLsbD 0 = s.seq.isBusy := by
  rw [statusWord_getLsbD]
  simp

/-- STATUS bit 2 is ERR (R26). -/
theorem statusWord_err (s : State) : s.statusWord.getLsbD 2 = s.err := by
  rw [statusWord_getLsbD]
  simp

/-- A turn of the poll loop by the flags it reads (R97, R98, R251). -/
theorem hostTurn_poll (s : State) (stop : Bool) :
    s.hostTurn (.poll stop) = .next
      { s with reply := some { data := s.statusWord, error := false },
               host := if s.seq.isBusy then .poll stop :: s.host else if stop && s.err then [] else s.host } := by
  simp only [State.hostTurn, State.pollTurn, statusWord_busy, statusWord_err, State.answer]
  split
  · rfl
  · split <;> rfl

/-- Settles O55, by the flags the poll reads. -/
theorem pollLoopTurns : Obligations.PollLoopTurns := by
  intro s stop
  simp only [hostTurn_poll]
  refine ⟨fun hbusy => ?_, fun hfree hgo => ?_, fun hfree hstop herr => ?_⟩
  · simp [hbusy]
  · rcases hgo with hgo | hgo <;> simp [hfree, hgo]
  · simp [hfree, hstop, herr]

/-- The bytes of a `wrbuf` go to consecutive addresses (R96; past the buffer's end log 15). -/
theorem bufferWrites_eq_map (b : BufId) (off : Nat) (bytes : List Nat) :
    bufferWrites b off bytes = bytes.zipIdx.map fun p =>
      .access (.write 8 (BitVec.ofNat 32 (bufBase b + off + p.2)) (BitVec.ofNat 32 p.1)) := by
  induction bytes generalizing off with
  | nil => rfl
  | cons v vs ih =>
    rw [bufferWrites, ih, List.zipIdx_cons', List.map_cons, List.map_map]
    congr 1
    refine List.map_congr_left fun p _ => ?_
    simp only [Function.comp, Prod.map, id, show bufBase b + (off + 1) + p.2 = bufBase b + off + (p.2 + 1) by omega]

/-- Settles O56: the register and buffer tables against the model's, and the bytes of `wrbuf` one after the other. -/
theorem pseudoInstructionsExpand : Obligations.PseudoInstructionsExpand := by
  refine ⟨fun _ => rfl, fun _ => rfl, fun r off imm hr => ?_, fun b base off bytes hb => ?_, fun _ => rfl, rfl, rfl⟩
  · have hoff : off = BitVec.ofNat 32 (csrOffset r) := by
      cases r <;> simpa [csrOffset] using hr
    subst hoff
    exact ⟨rfl, rfl⟩
  · have hbase : base = bufBase b := by
      cases b <;> simpa [bufBase] using hb
    subst hbase
    exact bufferWrites_eq_map b off bytes

end Sys2Proof.Machine
end

section
/-! COUNT (40_count.md R110, R111): O30. The counting pass entry by entry, the counts as register values, the two answers. -/

namespace Sys2Proof.Machine

open Sys2Proof

/-! The counting pass. -/

/-- One turn of the pass adds one at its byte and leaves every other entry (R110). -/
theorem bump_getElem (f : Vector Nat 256) (b x : Byte) :
    (bump f b)[x.toNat]'x.isLt = f[x.toNat]'x.isLt + if b = x then 1 else 0 := by
  by_cases h : b = x
  · subst h
    simp [bump]
  · have hne : b.toNat ≠ x.toNat := fun he => h (BitVec.eq_of_toNat_eq he)
    simp [bump, h, Vector.getElem_set_ne b.isLt x.isLt hne]

/-- The entry of a byte is the number of its occurrences (R110). -/
theorem tabulate_getElem (bs : List Byte) (x : Byte) : (tabulate bs)[x.toNat]'x.isLt = bs.count x := by
  have hfold (f : Vector Nat 256) : (bs.foldl bump f)[x.toNat]'x.isLt = f[x.toNat]'x.isLt + bs.count x := by
    induction bs generalizing f with
    | nil => rfl
    | cons b bs ih =>
      rw [List.foldl_cons, ih, bump_getElem, List.count_cons, Nat.add_assoc, Nat.add_comm (bs.count x)]
      simp only [beq_iff_eq]
  rw [tabulate, hfold, Vector.getElem_replicate, Nat.zero_add]

theorem inputBytes_length (s : State) : s.inputBytes.length = s.inLen.toNat := by
  rw [State.inputBytes, bytesAt_length]

/-- The occurrences of a byte in the input are the offsets that hold it. -/
theorem inputBytes_count (s : State) (x : Byte) :
    s.inputBytes.count x = ((List.range s.inLen.toNat).filter fun i => decide (s.byteAt .ibuf i = x)).length := by
  rw [State.inputBytes, State.bytesAt, List.count, List.countP_map, List.countP_eq_length_filter]
  simp only [Function.comp_def, Nat.zero_add, beq_eq_decide]

/-! The counts as 32-bit registers: none exceeds IN_LEN, so none is cut. -/

/-- FREQ after COUNT is the number of occurrences of each byte (R110). -/
theorem freqAt_count {s c : State} (h : Commits .count s c) (x : Byte) : c.freqAt x = s.inputBytes.count x := by
  have hfit : s.inputBytes.count x < 4294967296 := by
    have hle := List.count_le_length (a := x) (l := s.inputBytes)
    have hlen := s.inLen.isLt
    rw [inputBytes_length] at hle
    omega
  obtain ⟨_, rfl⟩ := commits_count h
  simp only [State.freqAt, Vector.getElem_map, tabulate_getElem, BitVec.toNat_ofNat]
  exact Nat.mod_eq_of_lt hfit

/-- COUNT's counts sum to the input's length (R111). -/
theorem freqTotal_count {s c : State} (h : Commits .count s c) : freqTotal c = s.inLen.toNat := by
  have hsum : (tabulate s.inputBytes).toList.sum = s.inLen.toNat := by rw [tabulate_sum, inputBytes_length]
  have hfit : ∀ k ∈ (tabulate s.inputBytes).toList, (BitVec.ofNat 32 k).toNat = id k := by
    intro k hk
    have hle := List.le_sum_of_mem hk
    have hlen := s.inLen.isLt
    exact Nat.mod_eq_of_lt (by omega)
  obtain ⟨_, rfl⟩ := commits_count h
  simp only [freqTotal, Vector.toList_map, List.map_map, Function.comp_def]
  rw [List.map_congr_left hfit, List.map_id, hsum]

/-! The two answers. -/

/-- Within IBUF, COUNT commits the tabulated input (R110). -/
theorem commits_count_of_le {s : State} (h : s.inLen.toNat ≤ s.cfg.ibufSize) :
    Commits .count s { s with freq := (tabulate s.inputBytes).map (BitVec.ofNat 32) } :=
  if_neg (Nat.not_lt.mpr h)

/-- A COUNT that commits completes without error (R204). -/
theorem exec_count_of_commits {s c : State} (h : Commits .count s c) : exec .count s = .next c.completeOk := by
  have hrun : runCount s = .ok c := h
  rw [exec_count, hrun, settle_ok]

/-- Beyond IBUF, COUNT is LENGTH_RANGE with SUB 1, before anything is written (R110, R201, R205). -/
theorem exec_count_of_lt {s : State} (h : s.cfg.ibufSize < s.inLen.toNat) :
    exec .count s = .next (s.failed 6#8 1#8 0) := by
  have hraise : runCount s = .error { error := .lengthRange .inLen, pos := 0 } := if_pos h
  rw [exec_count, hraise]
  rfl

/-- Settles O30, by what COUNT commits within IBUF and by its error beyond it. -/
theorem countTabulatesTheInput : Obligations.CountTabulatesTheInput := by
  refine ⟨decode_encode .count, fun s => ⟨fun hle => ?_, exec_count_of_lt⟩⟩
  have hcommit := commits_count_of_le hle
  have hcounts := freqAt_count hcommit
  have htotal := freqTotal_count hcommit
  exact ⟨_, exec_count_of_commits hcommit, rfl, fun x => (hcounts x).trans (inputBytes_count s x), htotal⟩

end Sys2Proof.Machine
end

section
/-! Sums over the 256 symbols, and the encoded size (R127, R140): O38. -/

namespace Sys2Proof.Machine

open Sys2Proof

theorem symbols_nodup : symbols.Nodup :=
  symbols_ascending.imp fun hlt heq => absurd hlt (by rw [heq]; exact Nat.lt_irrefl _)

/-- Each element of a list weighed: the weights of the symbols, each as often as it occurs. -/
theorem sum_symbols_count (xs : List Byte) (g : Byte → Nat) :
    (symbols.map fun x => xs.count x * g x).sum = (xs.map g).sum := by
  have hsub : xs.toFinset ⊆ symbols.toFinset := fun x _ => List.mem_toFinset.mpr (mem_symbols x)
  rw [← List.sum_toFinset _ symbols_nodup, Finset.sum_list_map_count]
  refine (Finset.sum_subset hsub fun x _ hx => ?_).symm
  rw [List.count_eq_zero_of_not_mem (List.mem_toFinset.not.mp hx), Nat.zero_mul]

/-- ENCODE writes each byte's code (R140): as many bits as the codes have. -/
theorem encodeFrom_length_eq {t : CodeTable} {capacity i q : Nat} {xs : List Byte} {u : Bits}
    (h : encodeFrom t capacity i q xs = .ok u) : u.length = (xs.map (lenOf t)).sum := by
  induction xs generalizing i q u with
  | nil => cases h; rfl
  | cons x xs ih =>
    simp only [encodeFrom] at h
    split at h
    · cases h
    · rename_i c hc
      have hlen : lenOf t x = c.bits.length := by simp only [lenOf, hc, Code.len]
      split at h
      · cases h
      · split at h
        · rename_i v hv
          cases h
          rw [List.length_append, ih hv, List.map_cons, List.sum_cons, hlen]
        · cases h

/-- Settles O38: the payload's length is the sum of its bytes' code lengths, regrouped by symbol. -/
theorem encodedSizeIsTheWeightedSum : Obligations.EncodedSizeIsTheWeightedSum := by
  intro s t hfreq h _ herr
  rcases exec_cases h with ⟨r, rfl⟩ | ⟨c, hc, rfl⟩
  · rw [completeError_err] at herr
    cases herr
  · obtain ⟨u, hu, rfl⟩ := commits_encode hc
    have hfit : u.length ≤ s.cfg.pbufBits := by simpa using encodeFrom_length (Nat.zero_le _) hu
    calc
      (s.putPayload u).payLen.toNat = u.length := putPayload_payLen hfit
      _ = (s.inputBytes.map (lenOf s.ct)).sum := encodeFrom_length_eq hu
      _ = weightedLength s s.ct := by
        rw [← sum_symbols_count, weightedLength]
        simp only [hfreq]

end Sys2Proof.Machine
end

section
/-! The walk of CODEGEN on a tree (R41, R124): it ends, and it gives each leaf's path. -/

namespace Sys2Proof.Machine

open Sys2Proof

section
variable {t : Arena} {n : Nat} (htree : IsTree t n)
include htree

/-- The merges of a tree stand past its leaves (R41). -/
theorem IsTree.internal_of_range {k : Nat} (hlo : n < k) (hhi : k < 2 * n) : ∃ v l r, nodeNo t k = .internal v l r := by
  obtain ⟨_, _, _, hmerge, _⟩ := htree
  obtain ⟨hkind, _⟩ := hmerge k hhi hlo
  cases hnode : nodeNo t k with
  | none => simp [hnode, Node.kind] at hkind
  | leaf x f => simp [hnode, Node.kind] at hkind
  | internal v l r => exact ⟨v, l, r, rfl⟩

/-- What R41 says of an internal node. -/
theorem IsTree.internal_node {k : Nat} {v : Word} {l r : BitVec 9} (hnode : nodeNo t k = .internal v l r) :
    n < k ∧ k < 2 * n ∧ l.toNat < k ∧ r.toNat < k ∧
      v.toNat = (nodeNo t l.toNat).freq.toNat + (nodeNo t r.toNat).freq.toNat := by
  rcases htree.node_range k with hk | ⟨_, _, hk⟩ | ⟨hlo, hhi, _⟩
  · simp [hnode] at hk
  · simp [hnode, Node.kind] at hk
  · obtain ⟨_, _, _, hmerge, _⟩ := htree
    obtain ⟨_, hl, hr, _, hv⟩ := hmerge k hhi hlo
    rw [hnode] at hl hr hv
    exact ⟨hlo, hhi, hl, hr, hv⟩

/-- The children of a tree's merges are the indices below the root's, each once: R41 places each of them under a merge, and
there are no more children than that. -/
theorem IsTree.children_perm :
    ((List.range' (n + 1) (n - 1)).flatMap fun k => (nodeNo t k).children).Perm (List.range' 1 (2 * n - 2)) := by
  have hlen : ((List.range' (n + 1) (n - 1)).flatMap fun k => (nodeNo t k).children).length = 2 * n - 2 := by
    have htwo : ∀ k ∈ List.range' (n + 1) (n - 1), (nodeNo t k).children.length = 2 := by
      intro k hk
      rw [List.mem_range'_1] at hk
      obtain ⟨v, l, r, hnode⟩ := htree.internal_of_range (k := k) (by omega) (by omega)
      rw [hnode]
      rfl
    rw [List.length_flatMap, List.map_congr_left htwo, List.map_const', List.sum_replicate, List.length_range', smul_eq_mul]
    omega
  have hsub : List.range' 1 (2 * n - 2) ⊆ (List.range' (n + 1) (n - 1)).flatMap fun k => (nodeNo t k).children := by
    intro i hi
    rw [List.mem_range'_1] at hi
    obtain ⟨_, _, _, _, honce⟩ := id htree
    have hpos : 0 < (List.range (2 * n)).countP _ := (honce i (by omega) hi.1).symm ▸ Nat.one_pos
    obtain ⟨k, hk, hchild⟩ := List.countP_pos_iff.mp hpos
    rw [List.mem_range] at hk
    rw [decide_eq_true_eq] at hchild
    obtain ⟨v, l, r, hnode⟩ := htree.internal_of_range hchild.1 hk
    rw [hnode] at hchild
    refine List.mem_flatMap.mpr ⟨k, List.mem_range'_1.mpr (by omega), ?_⟩
    rw [hnode]
    exact mem_children_internal.mpr hchild.2
  refine ((List.subperm_of_subset List.nodup_range' hsub).perm_of_length_le ?_).symm
  rw [hlen, List.length_range']

/-- A child of a tree's node is a node. -/
theorem IsTree.child_ne_none {k i : Nat} (h : i ∈ (nodeNo t k).children) : nodeNo t i ≠ .none := by
  have hk : ∃ v l r, nodeNo t k = .internal v l r := by
    cases hnode : nodeNo t k with
    | none => simp [hnode, Node.children] at h
    | leaf x f => simp [hnode, Node.children] at h
    | internal v l r => exact ⟨v, l, r, rfl⟩
  obtain ⟨v, l, r, hnode⟩ := hk
  obtain ⟨hlo, hhi, _⟩ := htree.internal_node hnode
  have hi : i ∈ List.range' 1 (2 * n - 2) :=
    htree.children_perm.mem_iff.mp (List.mem_flatMap.mpr ⟨k, List.mem_range'_1.mpr (by omega), h⟩)
  rw [List.mem_range'_1] at hi
  intro hnone
  by_cases hle : i ≤ n
  · obtain ⟨_, hleaf, _⟩ := htree
    have hkind := hleaf i (by omega) hi.1
    simp [hnone, Node.kind] at hkind
  · obtain ⟨w, l', r', hnode'⟩ := htree.internal_of_range (k := i) (by omega) (by omega)
    simp [hnone] at hnode'

/-- The walk from a node ends: each step goes to a lower index, and the leaves stand at n and below (R124). -/
theorem IsTree.exists_visit {depth : Nat} {i : BitVec 9} (p : Bits) (hi : nodeAt t i ≠ .none)
    (hdepth : i.toNat < n + depth) (hpos : 0 < depth) : ∃ paths, visit t depth i p = some paths := by
  induction depth generalizing i p with
  | zero => exact absurd hpos (Nat.lt_irrefl 0)
  | succ depth ih =>
    cases hnode : nodeAt t i with
    | none => exact absurd hnode hi
    | leaf x f => exact ⟨[(x, p)], by simp [visit, hnode]⟩
    | internal v l r =>
      rw [nodeAt_eq_nodeNo] at hnode
      obtain ⟨hlo, _, hl, hr, _⟩ := htree.internal_node hnode
      have hchild {c : BitVec 9} (hc : c.toNat ∈ (nodeNo t i.toNat).children) (hlt : c.toNat < i.toNat) (q : Bits) :
          ∃ paths, visit t depth c q = some paths :=
        ih q (by rw [nodeAt_eq_nodeNo]; exact htree.child_ne_none hc) (by omega) (by omega)
      obtain ⟨a, ha⟩ := hchild (c := l) (by simp [hnode, Node.children]) hl (p ++ [false])
      obtain ⟨b, hb⟩ := hchild (c := r) (by simp [hnode, Node.children]) hr (p ++ [true])
      exact ⟨a ++ b, by simp [visit, nodeAt_eq_nodeNo, hnode, ha, hb]⟩

/-- A path to a leaf from node `i` has at most i - n steps (R122). -/
theorem IsTree.follow_length {i : BitVec 9} {u : Bits} {x : Byte} (h : follow t i u = some x) :
    u.length ≤ i.toNat - n := by
  induction u generalizing i with
  | nil => exact Nat.zero_le _
  | cons b u ih =>
    cases hnode : nodeAt t i with
    | none => simp [follow, hnode] at h
    | leaf y f => simp [follow, hnode] at h
    | internal v l r =>
      simp only [follow, hnode] at h
      have hlen := ih h
      rw [nodeAt_eq_nodeNo] at hnode
      obtain ⟨hlo, _, hl, hr, _⟩ := htree.internal_node hnode
      rw [List.length_cons]
      cases b
      · simp only [Bool.false_eq_true, if_false] at hlen
        omega
      · simp only [if_true] at hlen
        omega

end

/-- A path ends at once on a leaf. -/
theorem follow_leaf {t : Arena} {i : BitVec 9} {x : Byte} {f : Word} (hnode : nodeAt t i = .leaf x f) (u : Bits) (y : Byte) :
    follow t i u = some y ↔ u = [] ∧ y = x := by
  cases u with
  | nil => simp [follow, hnode, eq_comm]
  | cons b u => simp [follow, hnode]

/-- A path from an internal node goes on from one of its children. -/
theorem follow_internal {t : Arena} {i : BitVec 9} {v : Word} {l r : BitVec 9} (hnode : nodeAt t i = .internal v l r)
    (u : Bits) (y : Byte) :
    follow t i u = some y ↔
      (∃ w, u = false :: w ∧ follow t l w = some y) ∨ ∃ w, u = true :: w ∧ follow t r w = some y := by
  cases u with
  | nil => simp [follow, hnode]
  | cons b u => cases b <;> simp [follow, hnode]

/-- The walk gives a leaf's symbol with the walk's own path and the bits that lead to the leaf (R124). -/
theorem mem_visit_iff {t : Arena} {depth : Nat} {i : BitVec 9} {p : Bits} {paths : List (Byte × Bits)}
    (h : visit t depth i p = some paths) (y : Byte) (u : Bits) :
    (y, u) ∈ paths ↔ ∃ w, u = p ++ w ∧ follow t i w = some y := by
  refine visit_induction (motive := fun i p paths => ∀ u, (y, u) ∈ paths ↔ ∃ w, u = p ++ w ∧ follow t i w = some y)
    ?_ ?_ h u
  · intro i p x f hnode u
    simp [follow_leaf hnode, and_comm]
  · intro _ i p v l r a b hnode _ _ ha hb u
    have hstep (c : Bool) (j : BitVec 9) : (∃ w, u = p ++ [c] ++ w ∧ follow t j w = some y) ↔
        ∃ w, u = p ++ w ∧ ∃ w', w = c :: w' ∧ follow t j w' = some y := by simp
    rw [List.mem_append, ha, hb, hstep, hstep]
    simp only [follow_internal hnode, and_or_left, exists_or]

/-- Below node `i`, the paths fill the space left by the walk's own path: the tree is full (R126). -/
theorem visit_kraft {t : Arena} {depth : Nat} {i : BitVec 9} {p : Bits} {paths : List (Byte × Bits)}
    (h : visit t depth i p = some paths) {m : Nat} (hm : ∀ e ∈ paths, e.2.length ≤ m) :
    (paths.map fun e => 2 ^ (m - e.2.length)).sum = 2 ^ (m - p.length) := by
  refine visit_induction (motive := fun _ p paths => (∀ e ∈ paths, e.2.length ≤ m) →
    (paths.map fun e => 2 ^ (m - e.2.length)).sum = 2 ^ (m - p.length)) ?_ ?_ h hm
  · intro i p x f _ _
    simp
  · intro depth i p v l r a b _ hwa _ ha hb hm
    have hsuma := ha fun e he => hm e (List.mem_append_left b he)
    have hsumb := hb fun e he => hm e (List.mem_append_right a he)
    have hroom : p.length + 1 ≤ m := by
      have hne : a ≠ [] := by
        rintro rfl
        exact absurd hsuma.symm (Nat.two_pow_pos _).ne'
      obtain ⟨e, he⟩ := List.exists_mem_of_ne_nil a hne
      have hpre := (visit_prefix hwa e he).length_le
      rw [List.length_append, List.length_singleton] at hpre
      exact hpre.trans (hm e (List.mem_append_left b he))
    rw [List.map_append, List.sum_append, hsuma, hsumb, List.length_append, List.length_append, List.length_singleton,
      List.length_singleton, ← two_mul, ← pow_succ']
    congr 1
    omega

end Sys2Proof.Machine
end

section
/-! CODEGEN on a tree (R124 to R126): O33 and O34. -/

namespace Sys2Proof.Machine

open Sys2Proof

/-- Paths a code can hold become a table (R42). -/
theorem exists_assignCodes {paths : List (Byte × Bits)} (h : ∀ e ∈ paths, 1 ≤ e.2.length ∧ e.2.length ≤ 255)
    (t : CodeTable) : ∃ table, assignCodes t paths = some table := by
  induction paths generalizing t with
  | nil => exact ⟨t, rfl⟩
  | cons e rest ih =>
    obtain ⟨x, p⟩ := e
    have hcode : codeOf p = some { bits := p, len_range := h (x, p) (by simp) } := dif_pos _
    simp only [assignCodes, hcode]
    exact ih (fun e he => h e (List.mem_cons_of_mem _ he)) _

/-- A leaf at the root gets the code [0] and is the only entry (R125). -/
theorem deriveCodes_leaf {t : Arena} {r : BitVec 9} {x : Byte} {f : Word} (hr : r ≠ 0#9) (hnode : nodeAt t r = .leaf x f) :
    deriveCodes t r = some (setEntry emptyTable x singleCode, 1) := by
  simp [deriveCodes, hr, hnode]

theorem entryAt_setEntry_emptyTable (x y : Byte) (c d : Code) :
    entryAt (setEntry emptyTable x d) y = some c ↔ y = x ∧ c = d := by
  by_cases hy : y = x
  · subst hy
    simp [entryAt_setEntry_same, eq_comm]
  · simp [entryAt_setEntry_ne _ _ _ _ hy, hy]

/-- A code is its bits. -/
theorem code_ext_iff (c d : Code) : c = d ↔ c.bits = d.bits := by
  cases c
  cases d
  simp

/-- NODE[0] holds no node (R41). -/
theorem IsTree.nodeAt_zero {t : Arena} {n : Nat} (htree : IsTree t n) : nodeAt t 0#9 = .none := by
  obtain ⟨hnone, _⟩ := htree
  rw [nodeAt_eq_nodeNo]
  exact hnone 0 (by decide) (.inl rfl)

/-- The table CODEGEN derives from a tree with an internal root: the paths of the walk, none longer than a code can hold. -/
theorem IsTree.deriveCodes_internal {t : Arena} {n : Nat} (htree : IsTree t n) (hn : n < 257) {r : BitVec 9} {v : Word}
    {i j : BitVec 9} (hnode : nodeAt t r = .internal v i j) :
    ∃ table paths, deriveCodes t r = some (table, paths.length) ∧ visit t 256 r [] = some paths ∧
      ((validEntries table).map entryPath).Perm paths := by
  have hno : nodeNo t r.toNat = .internal v i j := by rw [← nodeAt_eq_nodeNo, hnode]
  obtain ⟨_, hhi, _⟩ := htree.internal_node hno
  have hr : r ≠ 0#9 := by
    rintro rfl
    simp [htree.nodeAt_zero] at hnode
  obtain ⟨paths, hvisit⟩ := htree.exists_visit (depth := 256) (i := r) [] (by simp [hnode]) (by omega) (by decide)
  have hlen : ∀ e ∈ paths, 1 ≤ e.2.length ∧ e.2.length ≤ 255 := by
    intro e he
    obtain ⟨w, hw, hfollow⟩ := (mem_visit_iff hvisit e.1 e.2).mp he
    rw [List.nil_append] at hw
    rw [hw]
    refine ⟨List.length_pos_iff.mpr ?_, (htree.follow_length hfollow).trans (by omega)⟩
    rintro rfl
    simp [follow, hnode] at hfollow
  obtain ⟨table, hassign⟩ := exists_assignCodes hlen emptyTable
  have hperm := assignCodes_entries hassign (htree.visit_symbols_nodup hvisit) (by simp)
  rw [validEntries_emptyTable, List.map_nil, List.append_nil] at hperm
  exact ⟨table, paths, by simp [deriveCodes, hr, hnode, hvisit, hassign], hvisit, hperm⟩

/-- The entries of a table made of a walk's paths are the bits that lead to a leaf (R124). -/
theorem entryAt_iff_follow {t : Arena} {r : BitVec 9} {table : CodeTable} {paths : List (Byte × Bits)}
    (hvisit : visit t 256 r [] = some paths) (hperm : ((validEntries table).map entryPath).Perm paths)
    (y : Byte) (c : Code) :
    entryAt table y = some c ↔ follow t r c.bits = some y := by
  have hentry : (y, c.bits) ∈ (validEntries table).map entryPath ↔ entryAt table y = some c := by
    rw [← mem_validEntries, List.mem_map]
    constructor
    · rintro ⟨⟨z, d⟩, hmem, heq⟩
      simp only [entryPath, Prod.mk.injEq] at heq
      obtain ⟨rfl, hbits⟩ := heq
      rwa [← (code_ext_iff d c).mpr hbits]
    · exact fun hmem => ⟨(y, c), hmem, rfl⟩
  rw [← hentry, hperm.mem_iff, mem_visit_iff hvisit]
  simp

/-- Where a tree's root is NONE, a leaf or a merge: the three cases of R124. -/
theorem treeInv_root_cases {s : State} (h : TreeInv s) :
    ∃ n < 257, IsTree s.node n ∧ (s.root = 0#9 ∨ (s.root ≠ 0#9 ∧ ∃ x f, nodeAt s.node s.root = .leaf x f) ∨
      ∃ v l r, nodeAt s.node s.root = .internal v l r) := by
  obtain ⟨n, hn, _, hroot, htree⟩ := h
  refine ⟨n, hn, htree, ?_⟩
  by_cases hzero : s.root = 0#9
  · exact .inl hzero
  · have hpos : s.root.toNat ≠ 0 := fun h => hzero (BitVec.eq_of_toNat_eq h)
    cases hnode : nodeAt s.node s.root with
    | leaf x f => exact .inr (.inl ⟨hzero, x, f, rfl⟩)
    | internal v l r => exact .inr (.inr ⟨v, l, r, rfl⟩)
    | none =>
      rw [nodeAt_eq_nodeNo] at hnode
      rcases Nat.eq_or_lt_of_le (show 1 ≤ n by omega) with rfl | hlt
      · obtain ⟨_, hleaf, _⟩ := htree
        have hkind := hleaf s.root.toNat (by omega) (by omega)
        simp [hnode, Node.kind] at hkind
      · obtain ⟨v, l, r, hk⟩ := htree.internal_of_range (k := s.root.toNat) (by omega) (by omega)
        simp [hnode] at hk

/-- What CODEGEN answers when a table can be derived (R124). -/
theorem exec_codegen_of_derive {s : State} {table : CodeTable} {m : Nat} (h : deriveCodes s.node s.root = some (table, m)) :
    exec .codegen s = .next { s with ct := table, nsym := BitVec.ofNat 9 m, seq := .idle, done := true } := by
  rcases exec_codegen_cases s with ⟨table', m', hd, he⟩ | ⟨hd, _⟩
  · rw [h] at hd
    cases hd
    exact he
  · rw [h] at hd
    cases hd

/-- NSYM after CODEGEN is the number of entries (R34). -/
theorem nsym_of_derive {t : Arena} {n : Nat} (htree : IsTree t n) {r : BitVec 9} {table : CodeTable} {m : Nat}
    (h : deriveCodes t r = some (table, m)) : (BitVec.ofNat 9 m).toNat = (validEntries table).length := by
  have hm := (deriveCodes_table htree h).2
  have hle := validEntries_length_le table
  rw [BitVec.toNat_ofNat, hm, Nat.mod_eq_of_lt (by omega)]

/-- Settles O33, by the three roots a tree can have. -/
theorem codegenAssignsPaths : Obligations.CodegenAssignsPaths := by
  refine ⟨decode_encode .codegen, fun s hinv => ?_⟩
  obtain ⟨n, hn, htree, hroot⟩ := treeInv_root_cases hinv
  rcases hroot with hzero | ⟨hne, x, f, hnode⟩ | ⟨v, l, r, hnode⟩
  · have hnone : nodeAt s.node s.root = .none := hzero ▸ htree.nodeAt_zero
    have hderive : deriveCodes s.node s.root = some (emptyTable, 0) := if_pos hzero
    exact ⟨_, exec_codegen_of_derive hderive, rfl, nsym_of_derive htree hderive, fun _ => validEntries_emptyTable,
      by simp [hnone], by simp [hnone, Node.kind]⟩
  · have hderive := deriveCodes_leaf hne hnode
    refine ⟨_, exec_codegen_of_derive hderive, rfl, nsym_of_derive htree hderive, fun h => absurd h hne, ?_,
      by simp [hnode, Node.kind]⟩
    intro x' f' hnode' y c
    obtain ⟨rfl, rfl⟩ : x = x' ∧ f = f' := by simpa [hnode] using hnode'
    exact (entryAt_setEntry_emptyTable x y c singleCode).trans (and_congr_right' (code_ext_iff c singleCode))
  · obtain ⟨table, paths, hderive, hvisit, hperm⟩ := htree.deriveCodes_internal hn hnode
    refine ⟨_, exec_codegen_of_derive hderive, rfl, nsym_of_derive htree hderive, fun h => ?_, by simp [hnode],
      fun _ => entryAt_iff_follow hvisit hperm⟩
    rw [h, htree.nodeAt_zero] at hnode
    cases hnode

/-- Settles O34: the walk's paths are incomparable and fill the code space. -/
theorem codegenCodesArePrefixFreeAndComplete : Obligations.CodegenCodesArePrefixFreeAndComplete := by
  intro s t hinv h
  obtain ⟨n, hn, htree, hroot⟩ := treeInv_root_cases hinv
  rcases exec_codegen_cases s with ⟨table, m, hd, he⟩ | ⟨_, he⟩
  · rw [he] at h
    cases h
    obtain ⟨hfree, hlen⟩ := deriveCodes_table htree hd
    refine ⟨hfree, fun htwo => ?_⟩
    change 2 ≤ (validEntries table).length at htwo
    rcases hroot with hzero | ⟨hne, x, f, hnode⟩ | ⟨v, l, r, hnode⟩
    · rw [deriveCodes, if_pos hzero] at hd
      cases hd
      simp at htwo
    · rw [deriveCodes_leaf hne hnode] at hd
      cases hd
      omega
    · obtain ⟨table', paths, hderive, hvisit, hperm⟩ := htree.deriveCodes_internal hn hnode
      rw [hd] at hderive
      cases hderive
      have hbits : ∀ e ∈ paths, e.2.length ≤ 255 := by
        intro e he
        obtain ⟨a, _, rfl⟩ := List.mem_map.mp (hperm.mem_iff.mpr he)
        exact a.2.len_range.2
      have hsum := (hperm.map fun e => 2 ^ (255 - e.2.length)).sum_eq.trans (visit_kraft hvisit hbits)
      rw [List.map_map] at hsum
      exact hsum
  · rw [he] at h
    cases h

end Sys2Proof.Machine
end

section
/-! BUILD's merges as they stand in its arena (R120, R121): the queue at each merge, and the two nodes it takes. -/

namespace Sys2Proof.Machine

open Sys2Proof

/-- The merge loop of R120 in a finished arena: the nodes it makes of `queue` from index `next` on stand there, the last of
them at `root`. -/
inductive Merges (t : Arena) (root : Nat) : Nat → List QueueItem → Prop
  | stop (next : Nat) (x : QueueItem) (hx : x.idx = root) : Merges t root next [x]
  | merge {next : Nat} {queue queue1 queue2 : List QueueItem} {x y : QueueItem}
      (hx : extractMin queue = some (x, queue1)) (hy : extractMin queue1 = some (y, queue2))
      (hnode : nodeNo t next = mergedNode x y) (hrest : Merges t root (next + 1) (x.join y next :: queue2)) :
      Merges t root next queue

theorem merges_mergeLoop {t : Arena} {turns next : Nat} {queue : List QueueItem} (hne : queue ≠ [])
    (hturns : queue.length ≤ turns)
    (ht : ∀ j node, (mergeLoop turns next queue).nodes[j]? = some node → nodeNo t (next + j) = node) :
    Merges t (mergeLoop turns next queue).root next queue := by
  refine mergeLoop_induction (motive := fun next queue m =>
    (∀ j node, m.nodes[j]? = some node → nodeNo t (next + j) = node) → Merges t m.root next queue)
    ?_ ?_ turns next queue hne hturns ht
  · intro next x _
    exact .stop next x rfl
  · intro next queue queue1 x y queue2 rest hx hy ih ht
    refine .merge hx hy (ht 0 _ rfl) (ih fun j node hj => ?_)
    rw [Nat.add_assoc, Nat.add_comm 1 j]
    exact ht (j + 1) node hj

/-- BUILD's arena holds the merges of its leaves (R120). -/
theorem merges_built {f : FreqTable} (hne : occurring f ≠ []) :
    Merges (arenaOf (builtNodes f)) (builtMerges f).root ((occurring f).length + 1) (seedQueue (occurring f)) := by
  refine merges_mergeLoop (seedQueue_ne_nil hne) (seedQueue_length _).le fun j node hj => ?_
  change (builtMerges f).nodes[j]? = some node at hj
  have hlen := builtMerges_length f
  obtain ⟨hlt, _⟩ := List.getElem?_eq_some_iff.mp hj
  have hget := nodeNo_built_merge (f := f) (k := (occurring f).length + 1 + j) (by omega) (by omega)
  rw [Nat.add_sub_cancel_left, hj] at hget
  exact (Option.some.inj hget).symm

/-- Of the queue node `k` is made from, `l` is the node of least key and `r` the least of the rest (R121). -/
def TakesTwoLeast (t : Arena) (n k l r : Nat) : Prop :=
  inQueue t n k l ∧ inQueue t n k r ∧ l ≠ r ∧ (∀ j, inQueue t n k j → j ≠ l → keyLess t l j) ∧
    (∀ j, inQueue t n k j → j ≠ l → j ≠ r → keyLess t r j)

/-- `queue` holds the nodes of R120's queue when node `next` is made, with their FREQ, in a tree of `n` leaves. -/
structure QueueAt (t : Arena) (n next : Nat) (queue : List QueueItem) : Prop where
  mem (j : Nat) : j ∈ queue.map QueueItem.idx ↔ inQueue t n next j
  nodup : (queue.map QueueItem.idx).Nodup
  freq : ∀ q ∈ queue, (nodeNo t q.idx).freq.toNat = q.freq
  fits : (queue.map QueueItem.freq).sum < 4294967296
  turns : next + queue.length = 2 * n + 1
  started : n < next

/-- The leaves are BUILD's first queue (R120). -/
theorem queueAt_seed {f : FreqTable} (hsum : (f.toList.map BitVec.toNat).sum < 4294967296) :
    QueueAt (arenaOf (builtNodes f)) (occurring f).length ((occurring f).length + 1) (seedQueue (occurring f)) where
  mem j := by
    rw [seedQueue_map_idx, List.mem_range'_1]
    constructor
    · exact fun h => ⟨h.1, by omega, fun m hlo hhi => by omega⟩
    · exact fun h => ⟨h.1, by have := h.2.1; omega⟩
  nodup := by
    rw [seedQueue_map_idx]
    exact List.nodup_range'
  freq q hq := by
    have hle := occurring_length_le f
    obtain ⟨hlt, hfreq⟩ := mem_seedQueue hq
    have hlt' : q.idx < (occurring f).length + 1 := by simpa using hlt
    rw [← hfreq, ← freqIn_append_left _ (builtMerges f).nodes hlt, nodeNo_arenaOf _ (by omega)]
    rfl
  fits := by
    rw [seedQueue_map_freq]
    exact (occurring_sum_le f).trans_lt hsum
  turns := by
    rw [seedQueue_length]
    omega
  started := Nat.lt_succ_self _

/-- What is neither of the two elements taken is left. -/
theorem mem_rest_of_extractTwo {queue queue1 queue2 : List QueueItem} {x y q : QueueItem}
    (hx : extractMin queue = some (x, queue1)) (hy : extractMin queue1 = some (y, queue2)) (hq : q ∈ queue)
    (hqx : q.idx ≠ x.idx) (hqy : q.idx ≠ y.idx) : q ∈ queue2 :=
  List.mem_of_ne_of_mem (ne_of_apply_ne _ hqy)
    (List.mem_of_ne_of_mem (ne_of_apply_ne _ hqx) ((extractTwo_perm hx hy).mem_iff.mp hq))

section
variable {t : Arena} {n next : Nat} {queue queue1 queue2 : List QueueItem} {x y : QueueItem}

theorem QueueAt.inQueue_of_mem (h : QueueAt t n next queue) {q : QueueItem} (hq : q ∈ queue) : inQueue t n next q.idx :=
  (h.mem q.idx).mp (List.mem_map_of_mem hq)

/-- An element that is not before another comes after it, by the keys in the arena (R121). -/
theorem QueueAt.keyLess_of_not_before (h : QueueAt t n next queue) (hx : x ∈ queue) (hy : y ∈ queue)
    (hne : y.idx ≠ x.idx) (hbefore : y.before x = false) : keyLess t x.idx y.idx := by
  rw [keyLess, h.freq x hx, h.freq y hy]
  simp only [QueueItem.before, Bool.or_eq_false_iff, Bool.and_eq_false_iff, decide_eq_false_iff_not] at hbefore
  omega

variable (htree : IsTree t n) (hn : n < 257) (hqueue : QueueAt t n next queue)
  (hx : extractMin queue = some (x, queue1)) (hy : extractMin queue1 = some (y, queue2))
  (hnode : nodeNo t next = mergedNode x y)
include hqueue hx hy

/-- A merge takes the two nodes of least key (R121). -/
theorem QueueAt.takes_two_least : TakesTwoLeast t n next x.idx y.idx := by
  have hperm := extractTwo_perm hx hy
  have hxmem : x ∈ queue := hperm.mem_iff.mpr (by simp)
  have hymem : y ∈ queue := hperm.mem_iff.mpr (by simp)
  have hnodup := (hperm.map QueueItem.idx).nodup_iff.mp hqueue.nodup
  simp only [List.map_cons, List.nodup_cons, List.mem_cons, not_or] at hnodup
  refine ⟨hqueue.inQueue_of_mem hxmem, hqueue.inQueue_of_mem hymem, hnodup.1.1, fun j hj hjx => ?_, fun j hj hjx hjy => ?_⟩
  · obtain ⟨q, hq, rfl⟩ := List.mem_map.mp ((hqueue.mem j).mpr hj)
    have hq1 : q ∈ queue1 :=
      List.mem_of_ne_of_mem (ne_of_apply_ne _ hjx) ((extractMin_perm _ _ _ hx).mem_iff.mp hq)
    exact hqueue.keyLess_of_not_before hxmem hq hjx (extractMin_least _ _ _ hx q hq1)
  · obtain ⟨q, hq, rfl⟩ := List.mem_map.mp ((hqueue.mem j).mpr hj)
    have hq2 := mem_rest_of_extractTwo hx hy hq hjx hjy
    exact hqueue.keyLess_of_not_before hymem hq hjy (extractMin_least _ _ _ hy q hq2)

include hn hnode

/-- The node a merge makes: its children are the two elements taken, its FREQ their sum. -/
theorem QueueAt.merged :
    next < 2 * n ∧ (nodeNo t next).left.toNat = x.idx ∧ (nodeNo t next).right.toNat = y.idx ∧
      (nodeNo t next).freq.toNat = x.freq + y.freq := by
  have hperm := extractTwo_perm hx hy
  have hlen := hperm.length_eq
  have hturns := hqueue.turns
  have hfits := hqueue.fits
  rw [(hperm.map QueueItem.freq).sum_eq] at hfits
  simp only [List.length_cons, List.map_cons, List.sum_cons] at hlen hfits
  obtain ⟨_, hxlt, _⟩ := hqueue.inQueue_of_mem (hperm.mem_iff.mpr (List.mem_cons_self (a := x)))
  obtain ⟨_, hylt, _⟩ := hqueue.inQueue_of_mem (hperm.mem_iff.mpr (List.mem_cons_of_mem x (List.mem_cons_self (a := y))))
  rw [hnode]
  simp only [mergedNode, Node.left, Node.right, Node.freq, BitVec.toNat_ofNat]
  exact ⟨by omega, Nat.mod_eq_of_lt (by omega), Nat.mod_eq_of_lt (by omega), Nat.mod_eq_of_lt (by omega)⟩

include htree

/-- The queue after a merge: the two taken are out, the node made is in. -/
theorem QueueAt.inQueue_succ (j : Nat) :
    inQueue t n (next + 1) j ↔ j = next ∨ (inQueue t n next j ∧ j ≠ x.idx ∧ j ≠ y.idx) := by
  obtain ⟨hlt, hl, hr, _⟩ := hqueue.merged hn hx hy hnode
  obtain ⟨hx', hy', _⟩ := hqueue.takes_two_least hx hy
  have hstart := hqueue.started
  constructor
  · rintro ⟨hpos, hj, hfree⟩
    rcases Nat.eq_or_lt_of_le (Nat.le_of_lt_succ hj) with rfl | hjlt
    · exact .inl rfl
    · obtain ⟨hjx, hjy⟩ := hfree next hstart (Nat.lt_succ_self next)
      exact .inr ⟨⟨hpos, hjlt, fun m hlo hhi => hfree m hlo (Nat.lt_succ_of_lt hhi)⟩, by omega, by omega⟩
  · rintro (rfl | ⟨⟨hpos, hj, hfree⟩, hjx, hjy⟩)
    · refine ⟨by omega, Nat.lt_succ_self _, fun m hlo hhi => ?_⟩
      obtain ⟨_, _, _, hmerge, _⟩ := htree
      obtain ⟨_, hml, hmr, _⟩ := hmerge m (by omega) hlo
      omega
    · refine ⟨hpos, Nat.lt_succ_of_lt hj, fun m hlo hhi => ?_⟩
      rcases Nat.eq_or_lt_of_le (Nat.le_of_lt_succ hhi) with rfl | hmlt
      · omega
      · exact hfree m hlo hmlt

/-- A merge leaves the queue of the next one (R120). -/
theorem QueueAt.succ : QueueAt t n (next + 1) (x.join y next :: queue2) := by
  obtain ⟨hlt, _, _, hfreq⟩ := hqueue.merged hn hx hy hnode
  have hperm := extractTwo_perm hx hy
  have hlen := hperm.length_eq
  have hfits := hqueue.fits
  have hturns := hqueue.turns
  have hnodup := (hperm.map QueueItem.idx).nodup_iff.mp hqueue.nodup
  have hmem (j : Nat) : j ∈ queue2.map QueueItem.idx ↔ inQueue t n next j ∧ j ≠ x.idx ∧ j ≠ y.idx := by
    rw [← hqueue.mem, (hperm.map QueueItem.idx).mem_iff]
    simp only [List.map_cons, List.nodup_cons, List.mem_cons, not_or] at hnodup ⊢
    constructor
    · intro hj
      exact ⟨.inr (.inr hj), fun h => hnodup.1.2 (h ▸ hj), fun h => hnodup.2.1 (h ▸ hj)⟩
    · rintro ⟨h | h | h, hjx, hjy⟩
      · exact absurd h hjx
      · exact absurd h hjy
      · exact h
  have hnew : next ∉ queue2.map QueueItem.idx := fun h => absurd ((hmem next).mp h).1.2.1 (Nat.lt_irrefl next)
  rw [(hperm.map QueueItem.freq).sum_eq] at hfits
  simp only [List.length_cons, List.map_cons, List.sum_cons, List.nodup_cons] at hlen hfits hnodup
  refine ⟨fun j => ?_, ?_, ?_, ?_, ?_, Nat.lt_succ_of_lt hqueue.started⟩
  · rw [hqueue.inQueue_succ htree hn hx hy hnode, ← hmem]
    exact List.mem_cons
  · exact List.nodup_cons.mpr ⟨hnew, hnodup.2.2⟩
  · intro q hq
    rcases List.mem_cons.mp hq with rfl | hq
    · exact hfreq
    · exact hqueue.freq q (hperm.mem_iff.mpr (by simp [hq]))
  · simp only [List.map_cons, List.sum_cons, QueueItem.join]
    omega
  · rw [List.length_cons]
    omega

end

section
variable {t : Arena} {n root next : Nat} {queue : List QueueItem} (htree : IsTree t n) (hn : n < 257)
  (h : Merges t root next queue) (hqueue : QueueAt t n next queue)
include htree hn h hqueue

/-- The root's FREQ is the sum of the queue's (R122). -/
theorem Merges.root_freq : (nodeNo t root).freq.toNat = (queue.map QueueItem.freq).sum := by
  induction h with
  | stop next x hx =>
    rw [← hx, hqueue.freq x (by simp)]
    simp
  | merge hx hy hnode _ ih =>
    rw [ih (hqueue.succ htree hn hx hy hnode), ((extractTwo_perm hx hy).map QueueItem.freq).sum_eq]
    simp only [List.map_cons, List.sum_cons, QueueItem.join, Nat.add_assoc]

/-- Every merge takes the two nodes of least key in its queue, first left, second right (R121). -/
theorem Merges.takes_two_least {k : Nat} (hlo : next ≤ k) (hhi : k < 2 * n) :
    TakesTwoLeast t n k (nodeNo t k).left.toNat (nodeNo t k).right.toNat := by
  induction h with
  | stop next x hx =>
    have hturns := hqueue.turns
    rw [List.length_singleton] at hturns
    omega
  | merge hx hy hnode _ ih =>
    rcases Nat.eq_or_lt_of_le hlo with rfl | hlt
    · obtain ⟨_, hl, hr, _⟩ := hqueue.merged hn hx hy hnode
      rw [hl, hr]
      exact hqueue.takes_two_least hx hy
    · exact ih (hqueue.succ htree hn hx hy hnode) hlt

end

end Sys2Proof.Machine
end

section
/-! BUILD (R120 to R122): O31 and O32. -/

namespace Sys2Proof.Machine

open Sys2Proof

/-- Elements of weight 0 add nothing to a sum. -/
theorem sum_map_filter_of_zero {α : Type} {p : α → Bool} {g : α → Nat} (l : List α)
    (h : ∀ x ∈ l, p x = false → g x = 0) : ((l.filter p).map g).sum = (l.map g).sum := by
  induction l with
  | nil => rfl
  | cons x l ih =>
    have ih := ih fun y hy => h y (List.mem_cons_of_mem x hy)
    cases hp : p x with
    | true => simp [hp, ih]
    | false => simp [hp, ih, h x List.mem_cons_self hp]

theorem leafCount_eq (s : State) : leafCount s = (occurring s.freq).length := by
  rw [leafCount, ← indexed_map_snd s.freq, List.filter_map, List.length_map]
  rfl

/-- Symbols that do not occur add nothing to a sum weighed by the counts. -/
theorem sum_occurring (f : FreqTable) (g : Byte → Nat) :
    ((occurring f).map fun p => p.2.toNat * g p.1).sum = ((indexed f).map fun p => p.2.toNat * g p.1).sum := by
  refine sum_map_filter_of_zero _ fun p _ hp => ?_
  have hzero : p.2 = 0#32 := by simpa using hp
  rw [hzero]
  exact Nat.zero_mul _

/-- The counts of the symbols that occur sum to all counts. -/
theorem occurring_sum (s : State) : ((occurring s.freq).map fun p => p.2.toNat).sum = freqTotal s := by
  have hsum := sum_occurring s.freq fun _ => 1
  simp only [Nat.mul_one] at hsum
  rw [hsum, freqTotal, ← indexed_map_snd s.freq, List.map_map]
  rfl

/-- The leaf at index k + 1 is that of the k-th symbol that occurs (R122). -/
theorem nodeNo_built_symbol (s : State) {k : Nat} {x : Byte}
    (h : (symbols.filter fun y => decide (s.freqAt y ≠ 0))[k]? = some x) :
    nodeNo (arenaOf (builtNodes s.freq)) (k + 1) = .leaf x (s.freq[x.toNat]'x.isLt) := by
  have hget : (occurring s.freq)[k]? = some (x, s.freq[x.toNat]'x.isLt) := by
    rw [occurring_eq, List.getElem?_map, h, Option.map_some]
  obtain ⟨hk, hget⟩ := List.getElem?_eq_some_iff.mp hget
  rw [nodeNo_built_leaf hk, hget, leafOf]

/-- What BUILD answers (R120, R204). -/
theorem exec_build_eq (s : State) : exec .build s = .next
    { s with node := arenaOf (builtNodes s.freq), root := BitVec.ofNat 9 (builtMerges s.freq).root
             nnode := BitVec.ofNat 10 ((occurring s.freq).length + (builtMerges s.freq).nodes.length)
             seq := .idle, done := true } := rfl

/-- NNODE is the number of the leaves and the merges (R122). -/
theorem built_nnode_toNat (s : State) :
    (BitVec.ofNat 10 ((occurring s.freq).length + (builtMerges s.freq).nodes.length)).toNat =
      2 * (occurring s.freq).length - 1 := by
  have hle := occurring_length_le s.freq
  rw [builtMerges_length, BitVec.toNat_ofNat]
  omega

section
variable {s : State} (hsum : freqTotal s < 4294967296)
include hsum

/-- The root is the last node (R122). -/
theorem built_root_toNat : (BitVec.ofNat 9 (builtMerges s.freq).root).toNat = 2 * (occurring s.freq).length - 1 := by
  have hle := occurring_length_le s.freq
  rw [builtMerges_root hsum, BitVec.toNat_ofNat, Nat.mod_eq_of_lt (by omega)]

/-- The root's FREQ is the sum of all counts (R122). -/
theorem built_root_freq : (nodeNo (arenaOf (builtNodes s.freq)) (builtMerges s.freq).root).freq.toNat = freqTotal s := by
  rw [← occurring_sum]
  by_cases hne : occurring s.freq = []
  · rw [builtMerges_nil hne, nodeNo_built_none (by decide) (.inl rfl), hne]
    rfl
  · have hle := occurring_length_le s.freq
    rw [(merges_built hne).root_freq (isTree_built hsum) (by omega) (queueAt_seed hsum), seedQueue_map_freq]

end

/-- Settles O31, from the shape of the arena BUILD makes and its merges. -/
theorem buildMakesATree : Obligations.BuildMakesATree := by
  intro s hsum
  have hroot := built_root_toNat hsum
  have htree := isTree_built hsum
  have hfreq := built_root_freq hsum
  rw [leafCount_eq]
  refine ⟨_, exec_build_eq s, rfl, built_nnode_toNat s, hroot, htree, fun k x => nodeNo_built_symbol s, ?_, ?_⟩
  · rw [hroot, ← builtMerges_root hsum]
    exact hfreq
  · intro u x hu
    have hlen := htree.follow_length hu
    rw [hroot] at hlen
    omega

/-- Settles O32: each merge of the loop takes the two least elements of its queue, and nothing but FREQ is read. -/
theorem buildMergesTheTwoLeast : Obligations.BuildMergesTheTwoLeast := by
  refine ⟨?_, ?_⟩
  · rintro s t k l r hsum h hlo hhi rfl rfl
    obtain rfl := Host.Outcome.next.inj ((exec_build_eq s).symm.trans h)
    rw [leafCount_eq] at hlo hhi ⊢
    have hle := occurring_length_le s.freq
    have hne : occurring s.freq ≠ [] := List.length_pos_iff.mp (by omega)
    exact (merges_built hne).takes_two_least (isTree_built hsum) (by omega) (queueAt_seed hsum) hlo hhi
  · intro s s' t t' hfreq h h'
    obtain rfl := Host.Outcome.next.inj ((exec_build_eq s).symm.trans h)
    obtain rfl := Host.Outcome.next.inj ((exec_build_eq s').symm.trans h')
    simp only [hfreq, and_self]

end Sys2Proof.Machine
end

section
/-! Huffman's argument (R123) on weights and code lengths: which lengths codes can have of which none begins another, and one merge of two least
weights. -/

namespace Sys2Proof.Machine

open Sys2Proof

/-- Code lengths that fit the code space: Kraft's inequality. -/
def FitsCodeSpace (lengths : Multiset Nat) : Prop := (lengths.map fun l => (1 / 2 : ℝ) ^ l).sum ≤ 1

/-- The total bit count of codes, each given by its symbol's weight and its length. -/
def codeCost (codes : Multiset (Nat × Nat)) : Nat := (codes.map fun p => p.1 * p.2).sum

@[simp] theorem codeCost_cons (w l : Nat) (codes : Multiset (Nat × Nat)) :
    codeCost ((w, l) ::ₘ codes) = w * l + codeCost codes := by
  simp [codeCost]

/-- Codes of which none is empty or begins another are uniquely decodable. -/
theorem uniquelyDecodable_of_prefixFree {codes : Set Bits} (hnil : [] ∉ codes)
    (hfree : ∀ u ∈ codes, ∀ v ∈ codes, u <+: v → u = v) : InformationTheory.UniquelyDecodable codes := by
  intro us
  induction us with
  | nil =>
    intro vs _ hvs heq
    cases vs with
    | nil => rfl
    | cons v vs =>
      have hv : v = [] := (List.append_eq_nil_iff.mp heq.symm).1
      exact absurd (hv ▸ hvs v List.mem_cons_self) hnil
  | cons u us ih =>
    intro vs hus hvs heq
    have hu := hus u List.mem_cons_self
    cases vs with
    | nil =>
      have hu' : u = [] := (List.append_eq_nil_iff.mp heq).1
      exact absurd (hu' ▸ hu) hnil
    | cons v vs =>
      have hv := hvs v List.mem_cons_self
      rw [List.flatten_cons, List.flatten_cons] at heq
      have hpre : u <+: v ∨ v <+: u :=
        List.prefix_or_prefix_of_prefix (List.prefix_append u us.flatten) (heq ▸ List.prefix_append v vs.flatten)
      have huv : u = v := hpre.elim (hfree u hu v hv) fun h => (hfree v hv u hu h).symm
      subst huv
      rw [ih vs (fun w hw => hus w (List.mem_cons_of_mem u hw)) (fun w hw => hvs w (List.mem_cons_of_mem u hw))
        (List.append_cancel_left heq)]

/-- The codes of two or more symbols, of which none begins another, fit the code space. -/
theorem fitsCodeSpace_of_prefixFree {xs : List Byte} (hnodup : xs.Nodup) (htwo : 2 ≤ xs.length) {code : Byte → Bits}
    (hfree : ∀ x ∈ xs, ∀ y ∈ xs, x ≠ y → ¬ code x <+: code y) :
    FitsCodeSpace (xs.map fun x => (code x).length : List Nat) := by
  have hinj : Set.InjOn code (xs.toFinset : Set Byte) := by
    intro x hx y hy heq
    by_contra hne
    exact hfree x (by simpa using hx) y (by simpa using hy) hne (heq ▸ List.prefix_rfl)
  have hdecodable : InformationTheory.UniquelyDecodable ((xs.toFinset.image code : Finset Bits) : Set Bits) := by
    refine uniquelyDecodable_of_prefixFree ?_ ?_
    · intro hnil
      obtain ⟨x, hx, hcode⟩ := Finset.mem_image.mp (Finset.mem_coe.mp hnil)
      rw [List.mem_toFinset] at hx
      obtain ⟨y, hy, hne⟩ := xs.toFinset.exists_mem_ne (by rw [List.toFinset_card_of_nodup hnodup]; exact htwo) x
      exact hfree x hx y (List.mem_toFinset.mp hy) hne.symm (hcode ▸ List.nil_prefix)
    · intro u hu v hv hpre
      obtain ⟨x, hx, rfl⟩ := Finset.mem_image.mp (Finset.mem_coe.mp hu)
      obtain ⟨y, hy, rfl⟩ := Finset.mem_image.mp (Finset.mem_coe.mp hv)
      rw [List.mem_toFinset] at hx hy
      by_contra hne
      exact hfree x hx y hy (fun heq => hne (congrArg code heq)) hpre
  have hkraft := InformationTheory.kraft_mcmillan_inequality hdecodable
  rw [Finset.sum_image hinj, List.sum_toFinset _ hnodup] at hkraft
  simpa [FitsCodeSpace, Function.comp_def] using hkraft

/-- A least weight can take the greatest length, at no greater cost: one pass of exchanges. -/
theorem exists_longest_first {w : Nat} (a : Nat) (codes : Multiset (Nat × Nat)) (hw : ∀ p ∈ codes, w ≤ p.1) :
    ∃ a' codes', codes'.map Prod.fst = codes.map Prod.fst ∧ a' ::ₘ codes'.map Prod.snd = a ::ₘ codes.map Prod.snd ∧
      (∀ p ∈ codes', p.2 ≤ a') ∧ w * a' + codeCost codes' ≤ w * a + codeCost codes := by
  induction codes using Multiset.induction_on with
  | empty => exact ⟨a, 0, rfl, rfl, by simp, le_rfl⟩
  | cons p codes ih =>
    obtain ⟨v, b⟩ := p
    obtain ⟨a', codes', hfst, hsnd, hmax, hcost⟩ := ih fun p hp => hw p (Multiset.mem_cons_of_mem hp)
    have hlengths : b ::ₘ a' ::ₘ codes'.map Prod.snd = a ::ₘ b ::ₘ codes.map Prod.snd := by
      rw [hsnd, Multiset.cons_swap]
    rcases le_total b a' with hle | hle
    · refine ⟨a', (v, b) ::ₘ codes', by simp [hfst], ?_, ?_, ?_⟩
      · rw [Multiset.map_cons, Multiset.map_cons, Multiset.cons_swap, hlengths]
      · simpa [hle] using hmax
      · rw [codeCost_cons, codeCost_cons]
        omega
    · refine ⟨b, (v, a') ::ₘ codes', by simp [hfst], ?_, ?_, ?_⟩
      · rw [Multiset.map_cons, Multiset.map_cons, hlengths]
      · intro p hp
        rcases Multiset.mem_cons.mp hp with rfl | hp
        · exact hle
        · exact (hmax p hp).trans hle
      · have hswap : w * b + v * a' ≤ w * a' + v * b :=
          mul_add_mul_le_mul_add_mul (hw (v, b) (Multiset.mem_cons_self _ _)) hle
        rw [codeCost_cons, codeCost_cons]
        omega

/-- The two longest codes can be put together into one a bit shorter: they leave room for a code as long as the second. -/
theorem FitsCodeSpace.merge {a b : Nat} {lengths : Multiset Nat} (h : FitsCodeSpace (a ::ₘ b ::ₘ lengths))
    (hmax : ∀ l ∈ lengths, l ≤ b) : ∃ c, b = c + 1 ∧ FitsCodeSpace (c ::ₘ lengths) := by
  have hscale : ((lengths.map fun l => 2 ^ (b - l)).sum : ℕ) = 2 ^ b * (lengths.map fun l => (1 / 2 : ℝ) ^ l).sum := by
    rw [← Multiset.sum_map_mul_left, Nat.cast_multiset_sum, Multiset.map_map]
    refine congrArg Multiset.sum (Multiset.map_congr rfl fun l hl => ?_)
    rw [Function.comp_apply, Nat.cast_pow, Nat.cast_ofNat, pow_sub₀ _ two_ne_zero (hmax l hl), one_div, inv_pow]
  have hb : (2 : ℝ) ^ b * (1 / 2) ^ b = 1 := by rw [← mul_pow]; norm_num
  have ha : (0 : ℝ) < 2 ^ b * (1 / 2) ^ a := by positivity
  simp only [FitsCodeSpace, Multiset.map_cons, Multiset.sum_cons] at h ⊢
  have hmul := mul_le_mul_of_nonneg_left h (by positivity : (0 : ℝ) ≤ 2 ^ b)
  rw [mul_one, mul_add, mul_add, hb, ← hscale] at hmul
  have hroom : 1 + (lengths.map fun l => 2 ^ (b - l)).sum < 2 ^ b := by
    have : (1 : ℝ) + ((lengths.map fun l => 2 ^ (b - l)).sum : ℕ) < 2 ^ b := by linarith
    exact_mod_cast this
  cases b with
  | zero => simp at hroom
  | succ c =>
    refine ⟨c, rfl, ?_⟩
    have hroom' : (2 : ℝ) + ((lengths.map fun l => 2 ^ (c + 1 - l)).sum : ℕ) ≤ 2 ^ (c + 1) := by
      exact_mod_cast (by omega : 2 + (lengths.map fun l => 2 ^ (c + 1 - l)).sum ≤ 2 ^ (c + 1))
    have hc : (2 : ℝ) ^ (c + 1) * (1 / 2) ^ c = 2 := by rw [pow_succ, mul_right_comm, ← mul_pow]; norm_num
    refine le_of_mul_le_mul_left ?_ (by positivity : (0 : ℝ) < 2 ^ (c + 1))
    rw [mul_add, hc, mul_one, ← hscale]
    exact hroom'

/-- Of a code in which `v` and `w` are two least weights, a code for their merge is made that costs v + w less. -/
theorem exists_merged_code {v w a b : Nat} {codes : Multiset (Nat × Nat)} (hvw : v ≤ w) (hw : ∀ p ∈ codes, w ≤ p.1)
    (hfits : FitsCodeSpace (a ::ₘ b ::ₘ codes.map Prod.snd)) :
    ∃ c codes', codes'.map Prod.fst = codes.map Prod.fst ∧ FitsCodeSpace (c ::ₘ codes'.map Prod.snd) ∧
      (v + w) * c + codeCost codes' + (v + w) ≤ v * a + (w * b + codeCost codes) := by
  have hv : ∀ p ∈ (w, b) ::ₘ codes, v ≤ p.1 := by
    intro p hp
    rcases Multiset.mem_cons.mp hp with rfl | hp
    · exact hvw
    · exact hvw.trans (hw p hp)
  obtain ⟨a', codes1, hfst1, hsnd1, hmax1, hcost1⟩ := exists_longest_first a ((w, b) ::ₘ codes) hv
  rw [Multiset.map_cons] at hfst1 hsnd1
  obtain ⟨⟨w', b1⟩, hmem, hw', hrest⟩ := (Multiset.map_eq_cons _ _ _ _).mpr hfst1
  obtain rfl : w' = w := hw'
  obtain ⟨codes2, rfl⟩ := Multiset.exists_cons_of_mem hmem
  rw [Multiset.erase_cons_head] at hrest
  have hw2 : ∀ p ∈ codes2, w' ≤ p.1 := by
    intro p hp
    obtain ⟨q, hq, hqp⟩ := Multiset.mem_map.mp (hrest ▸ Multiset.mem_map_of_mem Prod.fst hp)
    exact hqp ▸ hw q hq
  obtain ⟨b', codes3, hfst3, hsnd3, hmax3, hcost3⟩ := exists_longest_first b1 codes2 hw2
  have hle : b' ≤ a' := by
    have hb' : b' ∈ ((w', b1) ::ₘ codes2).map Prod.snd := by
      rw [Multiset.map_cons, ← hsnd3]
      exact Multiset.mem_cons_self _ _
    obtain ⟨p, hp, rfl⟩ := Multiset.mem_map.mp hb'
    exact hmax1 p hp
  rw [← hsnd1, Multiset.map_cons, ← hsnd3] at hfits
  obtain ⟨c, rfl, hfits'⟩ := hfits.merge (Multiset.forall_mem_map_iff.mpr hmax3)
  refine ⟨c, codes3, hfst3.trans hrest, hfits', ?_⟩
  have hmul := Nat.mul_le_mul_left v hle
  rw [codeCost_cons, codeCost_cons] at hcost1
  simp only [Nat.mul_add, Nat.add_mul, Nat.mul_one] at hmul hcost3 ⊢
  omega

end Sys2Proof.Machine
end

section
/-! The codes of BUILD and CODEGEN are optimal (R123): O35. -/

namespace Sys2Proof.Machine

open Sys2Proof

/-- From node `r`, the bits `u` lead to node `i`. -/
def Leads (t : Arena) (r : BitVec 9) (u : Bits) (i : BitVec 9) : Prop := ∀ w, follow t r (u ++ w) = follow t i w

/-- The bits that lead to `q`'s node weighed with its FREQ, summed over the queue. -/
def pathCost (path : Nat → Bits) (queue : List QueueItem) : Nat :=
  (queue.map fun q => q.freq * (path q.idx).length).sum

theorem pathCost_cons (path : Nat → Bits) (q : QueueItem) (queue : List QueueItem) :
    pathCost path (q :: queue) = q.freq * (path q.idx).length + pathCost path queue := by
  rw [pathCost, List.map_cons, List.sum_cons, pathCost]

theorem pathCost_perm (path : Nat → Bits) {queue queue' : List QueueItem} (h : queue.Perm queue') :
    pathCost path queue = pathCost path queue' := (h.map _).sum_eq

/-- The paths to the nodes below `next`, when `next` is made of `l` and `r`. -/
def branch (path : Nat → Bits) (next l r i : Nat) : Bits :=
  if i = l then path next ++ [false] else if i = r then path next ++ [true] else path i

/-- A path to a merge goes on to its two children. -/
theorem Leads.children {t : Arena} {root : BitVec 9} {u : Bits} {i : BitVec 9} {v : Word} {l r : BitVec 9}
    (h : Leads t root u i) (hnode : nodeAt t i = .internal v l r) :
    Leads t root (u ++ [false]) l ∧ Leads t root (u ++ [true]) r := by
  have hstep (b : Bool) (w : Bits) : follow t root (u ++ [b] ++ w) = follow t (if b then r else l) w := by
    rw [List.append_assoc, h]
    simp [follow, hnode]
  exact ⟨hstep false, hstep true⟩

theorem QueueItem.freq_le_of_not_before {x y : QueueItem} (h : y.before x = false) : x.freq ≤ y.freq := by
  simp only [QueueItem.before, Bool.or_eq_false_iff, decide_eq_false_iff_not] at h
  omega

section
variable {queue queue1 queue2 : List QueueItem} {x y : QueueItem} (hx : extractMin queue = some (x, queue1))
  (hy : extractMin queue1 = some (y, queue2))
include hx hy

/-- The paths through a merge cost its FREQ more than those to it. -/
theorem pathCost_branch (hnodup : (queue.map QueueItem.idx).Nodup) (path : Nat → Bits) (next : Nat) :
    pathCost (branch path next x.idx y.idx) queue = pathCost path (x.join y next :: queue2) + (x.freq + y.freq) := by
  have hperm := extractTwo_perm hx hy
  have hidx := (hperm.map QueueItem.idx).nodup_iff.mp hnodup
  simp only [List.map_cons, List.nodup_cons, List.mem_cons, not_or] at hidx
  obtain ⟨⟨hxy, hx2⟩, hy2, _⟩ := hidx
  have hrest : pathCost (branch path next x.idx y.idx) queue2 = pathCost path queue2 := by
    refine congrArg List.sum (List.map_congr_left fun q hq => ?_)
    have hqx : q.idx ≠ x.idx := fun h => hx2 (h ▸ List.mem_map_of_mem hq)
    have hqy : q.idx ≠ y.idx := fun h => hy2 (h ▸ List.mem_map_of_mem hq)
    rw [branch, if_neg hqx, if_neg hqy]
  rw [pathCost_perm _ hperm, pathCost_cons, pathCost_cons, pathCost_cons, hrest]
  simp only [branch, if_neg (Ne.symm hxy), if_true, List.length_append, List.length_singleton, QueueItem.join, Nat.mul_add,
    Nat.add_mul, Nat.mul_one]
  omega

/-- Codes for a queue are codes for the two elements taken and for the rest. -/
theorem codes_of_extractTwo {codes : Multiset (Nat × Nat)}
    (h : codes.map Prod.fst = (queue.map QueueItem.freq : List Nat)) :
    ∃ a b codes2, codes = (x.freq, a) ::ₘ (y.freq, b) ::ₘ codes2 ∧
      codes2.map Prod.fst = (queue2.map QueueItem.freq : List Nat) := by
  have hperm := Multiset.coe_eq_coe.mpr ((extractTwo_perm hx hy).map QueueItem.freq)
  rw [hperm, List.map_cons, List.map_cons, ← Multiset.cons_coe, ← Multiset.cons_coe] at h
  obtain ⟨⟨v, a⟩, hmem, rfl, hrest⟩ := (Multiset.map_eq_cons _ _ _ _).mpr h
  obtain ⟨codes1, rfl⟩ := Multiset.exists_cons_of_mem hmem
  rw [Multiset.erase_cons_head] at hrest
  obtain ⟨⟨w, b⟩, hmem', rfl, hrest'⟩ := (Multiset.map_eq_cons _ _ _ _).mpr hrest
  obtain ⟨codes2, rfl⟩ := Multiset.exists_cons_of_mem hmem'
  rw [Multiset.erase_cons_head] at hrest'
  exact ⟨a, b, codes2, rfl, hrest'⟩

/-- The paths to a queue after a merge and to the two elements it took lead to the queue before it. -/
theorem leads_branch {t : Arena} {root : BitVec 9} {next : Nat} {path : Nat → Bits}
    (hnode : nodeAt t (BitVec.ofNat 9 next) = mergedNode x y)
    (hleads : ∀ q ∈ x.join y next :: queue2, Leads t root (path q.idx) (BitVec.ofNat 9 q.idx)) {q : QueueItem}
    (hq : q ∈ queue) : Leads t root (branch path next x.idx y.idx q.idx) (BitVec.ofNat 9 q.idx) := by
  obtain ⟨hl, hr⟩ := (hleads _ List.mem_cons_self).children hnode
  rw [branch]
  by_cases hqx : q.idx = x.idx
  · rw [if_pos hqx, hqx]
    exact hl
  · by_cases hqy : q.idx = y.idx
    · rw [if_neg hqx, if_pos hqy, hqy]
      exact hr
    · rw [if_neg hqx, if_neg hqy]
      exact hleads q (List.mem_cons_of_mem _ (mem_rest_of_extractTwo hx hy hq hqx hqy))

/-- Of codes for a queue, codes for the queue after a merge are made that cost the merge's FREQ less (R123). -/
theorem exists_codes_after_merge (next : Nat) {codes : Multiset (Nat × Nat)}
    (hcodes : codes.map Prod.fst = (queue.map QueueItem.freq : List Nat)) (hfits : FitsCodeSpace (codes.map Prod.snd)) :
    ∃ codes' : Multiset (Nat × Nat),
      codes'.map Prod.fst = ((x.join y next :: queue2).map QueueItem.freq : List Nat) ∧
      FitsCodeSpace (codes'.map Prod.snd) ∧ codeCost codes' + (x.freq + y.freq) ≤ codeCost codes := by
  obtain ⟨a, b, codes2, rfl, hcodes2⟩ := codes_of_extractTwo hx hy hcodes
  have hxy : x.freq ≤ y.freq := QueueItem.freq_le_of_not_before
    (extractMin_least _ _ _ hx y ((extractMin_perm _ _ _ hy).mem_iff.mpr List.mem_cons_self))
  have hleast : ∀ p ∈ codes2, y.freq ≤ p.1 := by
    intro p hp
    have hmem := hcodes2 ▸ Multiset.mem_map_of_mem Prod.fst hp
    obtain ⟨q, hq, hqp⟩ := List.mem_map.mp (Multiset.mem_coe.mp hmem)
    exact hqp ▸ QueueItem.freq_le_of_not_before (extractMin_least _ _ _ hy q hq)
  obtain ⟨c, codes3, hfst, hfits3, hcost⟩ := exists_merged_code hxy hleast (by simpa using hfits)
  refine ⟨(x.freq + y.freq, c) ::ₘ codes3, ?_, ?_, ?_⟩
  · rw [Multiset.map_cons, hfst, hcodes2]
    rfl
  · rw [Multiset.map_cons]
    exact hfits3
  · rw [codeCost_cons, codeCost_cons, codeCost_cons]
    omega

end

/-- The paths of the tree a queue is merged into: no code lengths for the queue that fit the code space cost less. -/
theorem Merges.exists_optimal_paths {t : Arena} {n root next : Nat} {queue : List QueueItem} (htree : IsTree t n)
    (hn : n < 257) (h : Merges t root next queue) (hqueue : QueueAt t n next queue) :
    ∃ path : Nat → Bits,
      (∀ q ∈ queue, Leads t (BitVec.ofNat 9 root) (path q.idx) (BitVec.ofNat 9 q.idx)) ∧
      ∀ codes : Multiset (Nat × Nat), codes.map Prod.fst = (queue.map QueueItem.freq : List Nat) →
        FitsCodeSpace (codes.map Prod.snd) → pathCost path queue ≤ codeCost codes := by
  induction h with
  | stop next x hx =>
    refine ⟨fun _ => [], fun q hq w => ?_, fun codes _ _ => ?_⟩
    · rw [List.mem_singleton.mp hq, hx, List.nil_append]
    · simp [pathCost]
  | @merge next queue queue1 queue2 x y hx hy hnode _ ih =>
    obtain ⟨path, hleads, hleast⟩ := ih (hqueue.succ htree hn hx hy hnode)
    have hat : nodeAt t (BitVec.ofNat 9 next) = mergedNode x y := by
      have hlt := (hqueue.merged hn hx hy hnode).1
      rw [nodeAt_eq_nodeNo, BitVec.toNat_ofNat, Nat.mod_eq_of_lt (by omega), hnode]
    refine ⟨branch path next x.idx y.idx, fun q => leads_branch hx hy hat hleads, fun codes hcodes hfits => ?_⟩
    obtain ⟨codes', hcodes', hfits', hcost⟩ := exists_codes_after_merge hx hy next hcodes hfits
    rw [pathCost_branch hx hy hqueue.nodup]
    exact (Nat.add_le_add_right (hleast codes' hcodes' hfits') _).trans hcost

/-! The total bit count over the symbols that occur. -/

theorem occurring_map_fst (s : State) :
    (occurring s.freq).map Prod.fst = symbols.filter fun x => decide (s.freqAt x ≠ 0) := by
  rw [occurring_eq, List.map_map]
  exact List.map_id _

/-- A code table's total bit count is that over the symbols that occur (R123). -/
theorem sum_symbols_eq_occurring (s : State) (g : Byte → Nat) :
    (symbols.map fun x => s.freqAt x * g x).sum = ((occurring s.freq).map fun p => p.2.toNat * g p.1).sum := by
  rw [sum_occurring, indexed_eq, List.map_map]
  rfl

/-- The code length of a symbol is the length of the bits that lead to its leaf (R124). -/
theorem lenOf_of_follow {t : Arena} {r : BitVec 9} {table : CodeTable} {paths : List (Byte × Bits)}
    (hvisit : visit t 256 r [] = some paths) (hperm : ((validEntries table).map entryPath).Perm paths) {x : Byte} {u : Bits}
    (h : follow t r u = some x) : lenOf table x = u.length := by
  have hmem : (x, u) ∈ paths := (mem_visit_iff hvisit x u).mpr ⟨u, rfl, h⟩
  obtain ⟨⟨y, c⟩, hentry, heq⟩ := List.mem_map.mp (hperm.mem_iff.mpr hmem)
  simp only [entryPath, Prod.mk.injEq] at heq
  obtain ⟨rfl, rfl⟩ := heq
  simp only [lenOf, (mem_validEntries table y c).mp hentry, Code.len]

/-- When each leaf's path is its symbol's code, the codes cost what the paths to the leaves cost. -/
theorem pathCost_seedQueue {leaves : List (Byte × Word)} {path : Nat → Bits} {len : Byte → Nat}
    (h : ∀ k (hk : k < leaves.length), (path (k + 1)).length = len leaves[k].1) :
    pathCost path (seedQueue leaves) = (leaves.map fun p => p.2.toNat * len p.1).sum := by
  refine congrArg List.sum (List.ext_getElem (by simp [seedQueue]) fun k h1 h2 => ?_)
  have hk : k < leaves.length := by simpa using h2
  simp [seedQueue, h k hk]

/-- The index of a leaf leads to its symbol at once. -/
theorem follow_built_leaf {f : FreqTable} {k : Nat} (hk : k < (occurring f).length) :
    follow (arenaOf (builtNodes f)) (BitVec.ofNat 9 (k + 1)) [] = some (occurring f)[k].1 := by
  have hle := occurring_length_le f
  have hleaf := nodeNo_built_leaf hk
  have hnat : (BitVec.ofNat 9 (k + 1)).toNat = k + 1 := by rw [BitVec.toNat_ofNat, Nat.mod_eq_of_lt (by omega)]
  rw [← hnat, ← nodeAt_eq_nodeNo] at hleaf
  exact (follow_leaf hleaf [] _).mpr ⟨rfl, rfl⟩

/-- With two or more symbols, no code lengths that fit the code space cost less than CODEGEN's (R123). -/
theorem weightedLength_le {s : State} (hsum : freqTotal s < 4294967296) (htwo : 2 ≤ (occurring s.freq).length)
    {table : CodeTable} {m : Nat}
    (hderive : deriveCodes (arenaOf (builtNodes s.freq)) (BitVec.ofNat 9 (builtMerges s.freq).root) = some (table, m))
    {codes : Multiset (Nat × Nat)}
    (hweights : codes.map Prod.fst = ((occurring s.freq).map fun p => p.2.toNat : List Nat))
    (hfits : FitsCodeSpace (codes.map Prod.snd)) : weightedLength s table ≤ codeCost codes := by
  have hle := occurring_length_le s.freq
  have hne : occurring s.freq ≠ [] := List.length_pos_iff.mp (by omega)
  have htree := isTree_built hsum
  have hrootNat := built_root_toNat hsum
  obtain ⟨v, l, r, hroot⟩ := htree.internal_of_range (k := 2 * (occurring s.freq).length - 1) (by omega) (by omega)
  rw [← hrootNat, ← nodeAt_eq_nodeNo] at hroot
  obtain ⟨table', paths, hderive', hvisit, hperm⟩ := htree.deriveCodes_internal (by omega) hroot
  rw [hderive] at hderive'
  cases hderive'
  obtain ⟨path, hleads, hleast⟩ := (merges_built hne).exists_optimal_paths htree (by omega) (queueAt_seed hsum)
  have hlen (k : Nat) (hk : k < (occurring s.freq).length) :
      (path (k + 1)).length = lenOf table (occurring s.freq)[k].1 := by
    have hmem : k + 1 ∈ (seedQueue (occurring s.freq)).map QueueItem.idx := by
      rw [seedQueue_map_idx, List.mem_range'_1]
      omega
    obtain ⟨q, hq, hidx⟩ := List.mem_map.mp hmem
    have hfollow := hleads q hq []
    rw [hidx, List.append_nil, follow_built_leaf hk] at hfollow
    exact (lenOf_of_follow hvisit hperm hfollow).symm
  rw [weightedLength, sum_symbols_eq_occurring, ← pathCost_seedQueue hlen]
  exact hleast codes (by rw [hweights, seedQueue_map_freq]) hfits

/-- With one symbol, its code has one bit (R125), so the total is its count (R123). -/
theorem weightedLength_single {s : State} (hsum : freqTotal s < 4294967296) (hone : (occurring s.freq).length = 1)
    {table : CodeTable} {m : Nat}
    (hderive : deriveCodes (arenaOf (builtNodes s.freq)) (BitVec.ofNat 9 (builtMerges s.freq).root) = some (table, m)) :
    weightedLength s table = freqTotal s := by
  obtain ⟨⟨x, f⟩, hocc⟩ := List.length_eq_one_iff.mp hone
  have hroot : BitVec.ofNat 9 (builtMerges s.freq).root = 1#9 :=
    BitVec.eq_of_toNat_eq (by rw [built_root_toNat hsum, hone]; rfl)
  have hleaf := nodeNo_built_leaf (f := s.freq) (k := 0) (by omega)
  simp only [hocc, List.getElem_cons_zero] at hleaf
  rw [hroot, deriveCodes_leaf (by decide) ((nodeAt_eq_nodeNo _ _).trans hleaf)] at hderive
  cases hderive
  rw [weightedLength, sum_symbols_eq_occurring, ← occurring_sum, hocc]
  simp [lenOf, entryAt_setEntry_same, Code.len, singleCode]

/-- Settles O35: by Kraft's inequality the lengths of codes of which none begins another fit the code space, and Huffman's argument, merge by
merge, that none such cost less. -/
theorem codesAreOptimal : Obligations.CodesAreOptimal := by
  intro s t u hsum hbuild hcodegen
  obtain rfl := Host.Outcome.next.inj ((exec_build_eq s).symm.trans hbuild)
  rcases exec_codegen_cases _ with ⟨table, m, hderive, he⟩ | ⟨_, he⟩
  · obtain rfl := Host.Outcome.next.inj (he.symm.trans hcodegen)
    rw [leafCount_eq]
    refine ⟨fun htwo other hfree => ?_, fun hone => weightedLength_single hsum hone hderive⟩
    have hoccurs (x : Byte) (hx : x ∈ (occurring s.freq).map Prod.fst) : s.freqAt x ≠ 0 := by
      rw [occurring_map_fst, List.mem_filter, decide_eq_true_eq] at hx
      exact hx.2
    have hnodup : ((occurring s.freq).map Prod.fst).Nodup := by
      rw [occurring_map_fst]
      exact symbols_nodup.filter _
    have hfits := fitsCodeSpace_of_prefixFree hnodup (by simpa using htwo) (code := other) fun x hx y hy hne hpre =>
      absurd (List.isPrefixOf_iff_prefix.mpr hpre) (Bool.eq_false_iff.mp (hfree x y (hoccurs x hx) (hoccurs y hy) hne))
    rw [sum_symbols_eq_occurring s fun x => (other x).length]
    have hbound := weightedLength_le hsum htwo hderive
      (codes := ((occurring s.freq).map fun p => (p.2.toNat, (other p.1).length) : List (Nat × Nat)))
      (by simp [Function.comp_def]) (by simpa [Function.comp_def] using hfits)
    simpa [codeCost, Function.comp_def] using hbound
  · rw [he] at hcodegen
    cases hcodegen

end Sys2Proof.Machine
end

section
/-! The loop of ENCODE and its two answers (R140, R141, R206): O36, O37. -/

namespace Sys2Proof.Machine

open Sys2Proof

theorem codesOf_cons_eq_some_iff (t : CodeTable) (x : Byte) (xs : List Byte) (u : Bits) :
    codesOf t (x :: xs) = some u ↔ ∃ c v, entryAt t x = some c ∧ codesOf t xs = some v ∧ u = c.bits ++ v := by
  rw [codesOf]
  cases entryAt t x with
  | none => simp
  | some c =>
    cases codesOf t xs with
    | none => simp
    | some v => simp [eq_comm]

/-! One turn of the loop: what it does at the byte it stands at. -/

section
variable {t : CodeTable} {capacity q : Nat} {x : Byte} {c : Code}

theorem encodeFrom_cons_of_none (hx : entryAt t x = none) (i : Nat) (xs : List Byte) :
    encodeFrom t capacity i q (x :: xs) = .error { error := .unmappedSymbol, pos := i } := by
  simp only [encodeFrom, hx]

theorem encodeFrom_cons_of_lt (hx : entryAt t x = some c) (hfull : capacity < q + c.len) (i : Nat) (xs : List Byte) :
    encodeFrom t capacity i q (x :: xs) = .error { error := .capacityOverflow .pbuf, pos := i } := by
  simp only [encodeFrom, hx, if_pos hfull]

theorem encodeFrom_cons_of_le (hx : entryAt t x = some c) (hfit : q + c.len ≤ capacity) (i : Nat) (xs : List Byte) :
    encodeFrom t capacity i q (x :: xs) = (encodeFrom t capacity (i + 1) (q + c.len) xs).map (c.bits ++ ·) := by
  simp only [encodeFrom, hx, if_neg (Nat.not_lt.mpr hfit)]
  cases encodeFrom t capacity (i + 1) (q + c.len) xs <;> rfl

end

/-- Bytes whose codes fit are passed with their codes written, and the loop goes on behind them (R140). -/
theorem encodeFrom_append {t : CodeTable} {capacity q : Nat} {xs : List Byte} {u : Bits} (hu : codesOf t xs = some u)
    (hfit : q + u.length ≤ capacity) (i : Nat) (ys : List Byte) :
    encodeFrom t capacity i q (xs ++ ys) =
      (encodeFrom t capacity (i + xs.length) (q + u.length) ys).map (u ++ ·) := by
  induction xs generalizing i q u with
  | nil =>
    cases hu
    exact (congrFun Except.map_id (encodeFrom t capacity i q ys)).symm
  | cons x xs ih =>
    obtain ⟨c, v, hx, hv, rfl⟩ := (codesOf_cons_eq_some_iff t x xs u).mp hu
    have hlen : (c.bits ++ v).length = c.len + v.length := List.length_append
    rw [hlen, ← Nat.add_assoc] at hfit
    rw [List.cons_append, encodeFrom_cons_of_le hx (by omega), ih hv hfit, List.length_cons, hlen, Nat.add_right_comm,
      ← Nat.add_assoc, ← Nat.add_assoc]
    cases encodeFrom t capacity (i + xs.length + 1) (q + c.len + v.length) ys <;> simp [Except.map]

/-- The same from the start of the input and of the payload. -/
theorem encodeFrom_start {t : CodeTable} {capacity : Nat} {xs : List Byte} {u : Bits} (hu : codesOf t xs = some u)
    (hfit : u.length ≤ capacity) (ys : List Byte) :
    encodeFrom t capacity 0 0 (xs ++ ys) = (encodeFrom t capacity xs.length u.length ys).map (u ++ ·) := by
  simpa only [Nat.zero_add] using encodeFrom_append hu (q := 0) (by simpa only [Nat.zero_add] using hfit) 0 ys

/-! The answer of the command, by the outcome of the loop. -/

/-- Within IBUF, ENCODE is its loop over the input bytes, then the write of the payload (R140). -/
theorem runEncode_of_le {s : State} (hin : s.inLen.toNat ≤ s.cfg.ibufSize) :
    runEncode s = (encodeFrom s.ct s.cfg.pbufBits 0 0 s.inputBytes).map s.putPayload := by
  rw [runEncode, if_neg (Nat.not_lt.mpr hin)]
  cases encodeFrom s.ct s.cfg.pbufBits 0 0 s.inputBytes <;> rfl

theorem exec_encode_of_ok {s : State} {u : Bits} (hin : s.inLen.toNat ≤ s.cfg.ibufSize)
    (hloop : encodeFrom s.ct s.cfg.pbufBits 0 0 s.inputBytes = .ok u) :
    exec .encode s = .next (s.putPayload u).completeOk := by
  rw [exec_encode, runEncode_of_le hin, hloop]
  rfl

theorem exec_encode_of_error {s : State} {r : Raise} (hin : s.inLen.toNat ≤ s.cfg.ibufSize)
    (hloop : encodeFrom s.ct s.cfg.pbufBits 0 0 s.inputBytes = .error r) :
    exec .encode s = .next (s.completeError .encode r) := by
  rw [exec_encode, runEncode_of_le hin, hloop]
  rfl

/-- Settles O36: the loop passes every byte, so the payload it commits is the concatenation. -/
theorem encodeConcatenatesTheCodes : Obligations.EncodeConcatenatesTheCodes := by
  intro s u hin hu hfit
  have hloop : encodeFrom s.ct s.cfg.pbufBits 0 0 s.inputBytes = .ok u := by
    have hpass := encodeFrom_start hu hfit []
    rwa [List.append_nil, encodeFrom, Except.map, List.append_nil] at hpass
  have hlen : (s.putPayload u).payLen.toNat = u.length := putPayload_payLen hfit
  refine ⟨_, exec_encode_of_ok hin hloop, rfl, hlen, hlen.trans (encodeFrom_length_eq hloop), fun k hk => ?_,
    fun k hpad hk => ?_, fun k hk => byteAt_putPayload_past s u k hk⟩
  · exact pBit_putPayload s u k (by omega)
  · exact (pBit_putPayload s u k (by omega)).trans (List.getD_eq_default u false hpad)

/-- Settles O37: the loop passes the bytes before the bad one and raises at it; both raises leave PBUF a fresh
draw (R206). -/
theorem encodeReportsTheFirstBadByte : Obligations.EncodeReportsTheFirstBadByte := by
  intro s before after x u hin hbytes hu hfit
  have hpass := encodeFrom_start hu hfit (x :: after)
  rw [← hbytes] at hpass
  constructor
  · intro hx
    rw [encodeFrom_cons_of_none hx] at hpass
    exact exec_encode_of_error hin hpass
  · intro c hx hfull
    rw [encodeFrom_cons_of_lt hx hfull] at hpass
    exact exec_encode_of_error hin hpass

end Sys2Proof.Machine
end

section
/-! The trie of a code table and the walk of DECODE in it (R150 to R153): O40. -/

namespace Sys2Proof.Machine

open Sys2Proof

/-! The trie (R150). -/

/-- A node of the trie is a bit sequence that some code begins with (R150). -/
theorem hasNode_iff (t : CodeTable) (u : Bits) : hasNode t u = true ↔ ∃ x c, entryAt t x = some c ∧ u <+: c.bits := by
  rw [hasNode, ← indexed_map_snd t, List.any_map, List.any_eq_true]
  constructor
  · rintro ⟨⟨x, e⟩, hmem, hp⟩
    cases e with
    | none => cases hp
    | some c => exact ⟨x, c, (mem_indexed t x _).mp hmem, List.isPrefixOf_iff_prefix.mp hp⟩
  · rintro ⟨x, c, hx, hp⟩
    exact ⟨(x, some c), (mem_indexed t x _).mpr hx, List.isPrefixOf_iff_prefix.mpr hp⟩

/-- A node that is no code is no leaf (R150). -/
theorem leafSym_eq_none_iff (t : CodeTable) (u : Bits) :
    leafSym t u = none ↔ ∀ x c, entryAt t x = some c → c.bits ≠ u := by
  rw [leafSym, Option.map_eq_none_iff, List.find?_eq_none]
  simp only [Prod.forall, mem_validEntries, beq_iff_eq, ne_eq]

section
variable {t : CodeTable} (hfree : PrefixFree t) {x y : Byte} {c d : Code}
include hfree

/-- A code that another entry's code begins with is that entry's own (R43). -/
theorem entry_unique_of_prefix (hx : entryAt t x = some c) (hy : entryAt t y = some d) (hp : c.bits <+: d.bits) :
    x = y ∧ c = d := by
  by_cases hxy : x = y
  · subst hxy
    exact ⟨rfl, Option.some.inj (hx.symm.trans hy)⟩
  · have hnot := (prefixFree_iff t).mp hfree x y c d hxy hx hy
    rw [isPrefix, List.isPrefixOf_iff_prefix.mpr hp] at hnot
    cases hnot

/-- The leaf at a code is its symbol's (R150). -/
theorem leafSym_code (hx : entryAt t x = some c) : leafSym t c.bits = some x := by
  cases hleaf : leafSym t c.bits with
  | none => exact absurd rfl ((leafSym_eq_none_iff t c.bits).mp hleaf x c hx)
  | some y =>
    obtain ⟨⟨z, d⟩, hfind, rfl⟩ := Option.map_eq_some_iff.mp hleaf
    have hbits : d.bits = c.bits := by simpa using List.find?_some hfind
    have hz := (mem_validEntries t z d).mp (List.mem_of_find?_eq_some hfind)
    rw [(entry_unique_of_prefix hfree hz hx (hbits ▸ List.prefix_rfl)).1]

/-- What a code begins with, short of the whole code, begins with no code (R43). -/
theorem not_prefix_of_proper_prefix (hx : entryAt t x = some c) {w : Bits} (hw : w <+: c.bits) (hlt : w.length < c.len)
    (hy : entryAt t y = some d) : ¬ d.bits <+: w := by
  intro hp
  obtain ⟨_, rfl⟩ := entry_unique_of_prefix hfree hy hx (hp.trans hw)
  exact absurd hp.length_le (Nat.not_le.mpr hlt)

end

/-! One turn of the walk, by where its bit leads (R151). -/

section
variable {t : CodeTable} {u : Bits} {b : Bool}

theorem decodeFrom_of_absent (h : hasNode t (u ++ [b]) = false) (capacity p start out : Nat) (rest : Bits) :
    decodeFrom t capacity p start u out (b :: rest) = .error { error := .decodeMismatch .noMatch, pos := start } := by
  simp [decodeFrom, h]

theorem decodeFrom_of_interior (h : hasNode t (u ++ [b]) = true) (hleaf : leafSym t (u ++ [b]) = none)
    (capacity p start out : Nat) (rest : Bits) :
    decodeFrom t capacity p start u out (b :: rest) = decodeFrom t capacity (p + 1) start (u ++ [b]) out rest := by
  simp only [decodeFrom, h, hleaf, if_true]

theorem decodeFrom_of_leaf (h : hasNode t (u ++ [b]) = true) {x : Byte} (hleaf : leafSym t (u ++ [b]) = some x)
    (capacity p start out : Nat) (rest : Bits) :
    decodeFrom t capacity p start u out (b :: rest) =
      if out = capacity then .error { error := .capacityOverflow .obuf, pos := start }
      else (decodeFrom t capacity (p + 1) (p + 1) [] (out + 1) rest).map fun xs => x :: xs := by
  simp only [decodeFrom, h, hleaf, if_true]
  cases decodeFrom t capacity (p + 1) (p + 1) [] (out + 1) rest <;> rfl

end

/-! The walk from the start of a code (R152). -/

/-- Bits that lead to a node, with no code on the way, are passed (R151). -/
theorem decodeFrom_interior {t : CodeTable} {u w : Bits} (hnode : hasNode t (u ++ w) = true)
    (hnone : ∀ x c, entryAt t x = some c → ¬ c.bits <+: u ++ w) (capacity p start out : Nat) (rest : Bits) :
    decodeFrom t capacity p start u out (w ++ rest) =
      decodeFrom t capacity (p + w.length) start (u ++ w) out rest := by
  induction w generalizing u p with
  | nil => simp
  | cons b w ih =>
    rw [List.append_cons] at hnode hnone
    have hstep : hasNode t (u ++ [b]) = true := by
      obtain ⟨x, c, hx, hp⟩ := (hasNode_iff t _).mp hnode
      exact (hasNode_iff t _).mpr ⟨x, c, hx, (List.prefix_append _ w).trans hp⟩
    have hleaf : leafSym t (u ++ [b]) = none :=
      (leafSym_eq_none_iff t _).mpr fun x c hx hbits => hnone x c hx (hbits ▸ List.prefix_append _ w)
    rw [List.cons_append, decodeFrom_of_interior hstep hleaf, ih hnode hnone, List.length_cons, List.append_cons u b w,
      Nat.add_right_comm, Nat.add_assoc]

/-- A code that the bits begin with is passed, and its symbol emitted (R152). -/
theorem decodeFrom_code {t : CodeTable} (hfree : PrefixFree t) {x : Byte} {c : Code} (hx : entryAt t x = some c)
    (capacity p out : Nat) (rest : Bits) :
    decodeFrom t capacity p p [] out (c.bits ++ rest) =
      if out = capacity then .error { error := .capacityOverflow .obuf, pos := p }
      else (decodeFrom t capacity (p + c.len) (p + c.len) [] (out + 1) rest).map fun xs => x :: xs := by
  obtain ⟨w, b, hbits⟩ : ∃ w b, c.bits = w ++ [b] := by
    have hne : c.bits ≠ [] := List.length_pos_iff.mp c.len_range.1
    exact ⟨_, _, (List.dropLast_concat_getLast hne).symm⟩
  have hlen : c.len = w.length + 1 := by rw [Code.len, hbits, List.length_append, List.length_singleton]
  have hw : w <+: c.bits := hbits ▸ List.prefix_append w [b]
  have hinner : hasNode t w = true := (hasNode_iff t w).mpr ⟨x, c, hx, hw⟩
  have hnone : ∀ y d, entryAt t y = some d → ¬ d.bits <+: w := fun _ _ =>
    not_prefix_of_proper_prefix hfree hx hw (by omega)
  have hend : hasNode t (w ++ [b]) = true := (hasNode_iff t _).mpr ⟨x, c, hx, hbits ▸ List.prefix_rfl⟩
  have hleaf : leafSym t (w ++ [b]) = some x := hbits ▸ leafSym_code hfree hx
  rw [hbits, List.append_assoc, decodeFrom_interior (u := []) hinner hnone, List.nil_append, List.singleton_append,
    decodeFrom_of_leaf hend hleaf, hlen, Nat.add_assoc]

/-- Bits that run out inside a code are TRUNCATED (R152). -/
theorem decodeFrom_truncated {t : CodeTable} {bits : Bits} (hne : bits ≠ [])
    (hnone : ∀ x c, entryAt t x = some c → ¬ c.bits <+: bits) (hsome : ∃ x c, entryAt t x = some c ∧ bits <+: c.bits)
    (capacity p out : Nat) :
    decodeFrom t capacity p p [] out bits = .error { error := .decodeMismatch .truncated, pos := p } := by
  have hwalk := decodeFrom_interior (u := []) ((hasNode_iff t bits).mpr hsome) hnone capacity p p out []
  rwa [List.append_nil, List.nil_append, decodeFrom, if_neg hne] at hwalk

/-- Bits that leave every code are NO_MATCH (R152). -/
theorem decodeFrom_noMatch {t : CodeTable} {u bits : Bits} (hne : bits ≠ [])
    (hnone : ∀ x c, entryAt t x = some c → ¬ c.bits <+: u ++ bits ∧ ¬ u ++ bits <+: c.bits)
    (capacity p start out : Nat) :
    decodeFrom t capacity p start u out bits = .error { error := .decodeMismatch .noMatch, pos := start } := by
  induction bits generalizing u p with
  | nil => exact absurd rfl hne
  | cons b rest ih =>
    rw [List.append_cons] at hnone
    cases hnode : hasNode t (u ++ [b]) with
    | false => exact decodeFrom_of_absent hnode capacity p start out rest
    | true =>
      have hleaf : leafSym t (u ++ [b]) = none :=
        (leafSym_eq_none_iff t _).mpr fun x c hx hbits => (hnone x c hx).1 (hbits ▸ List.prefix_append _ rest)
      have hrest : rest ≠ [] := by
        rintro rfl
        obtain ⟨x, c, hx, hp⟩ := (hasNode_iff t _).mp hnode
        exact (hnone x c hx).2 (by rwa [List.append_nil])
      rw [decodeFrom_of_interior hnode hleaf]
      exact ih hrest hnone (p + 1)

/-- Settles O40, by the four ways the walk from the root can end. -/
theorem decodeIsTableMatching : Obligations.DecodeIsTableMatching := by
  intro t capacity p out bits hfree
  refine ⟨?_, ?_, ?_, ?_⟩
  · rintro rfl
    exact if_pos rfl
  · rintro x c rest hx rfl
    exact decodeFrom_code hfree hx capacity p out rest
  · exact fun hne hnone hsome => decodeFrom_truncated hne hnone hsome capacity p out
  · exact fun hne hnone => decodeFrom_noMatch (u := []) hne hnone capacity p p out

end Sys2Proof.Machine
end

section
/-! The answers of DECODE (R151, R153, R206): O41, O42, O59. -/

namespace Sys2Proof.Machine

open Sys2Proof

/-- Codes at the head of the payload are passed with their symbols emitted, and the walk goes on behind them (R151). -/
theorem decodeFrom_append {t : CodeTable} (hfree : PrefixFree t) {capacity out : Nat} {xs : List Byte} {u : Bits}
    (hu : codesOf t xs = some u) (hfit : out + xs.length ≤ capacity) (p : Nat) (rest : Bits) :
    decodeFrom t capacity p p [] out (u ++ rest) =
      (decodeFrom t capacity (p + u.length) (p + u.length) [] (out + xs.length) rest).map (xs ++ ·) := by
  induction xs generalizing p out u with
  | nil =>
    cases hu
    exact (congrFun Except.map_id (decodeFrom t capacity p p [] out rest)).symm
  | cons x xs ih =>
    obtain ⟨c, v, hx, hv, rfl⟩ := (codesOf_cons_eq_some_iff t x xs u).mp hu
    rw [List.length_cons] at hfit
    have hlen : p + (c.bits ++ v).length = p + c.len + v.length := by rw [List.length_append, Nat.add_assoc, Code.len]
    have hout : out + (x :: xs).length = out + 1 + xs.length := by rw [List.length_cons, Nat.add_right_comm, Nat.add_assoc]
    rw [List.append_assoc, decodeFrom_code hfree hx, if_neg (by omega), ih hv (by omega), hlen, hout]
    cases decodeFrom t capacity (p + c.len + v.length) (p + c.len + v.length) [] (out + 1 + xs.length) rest <;> rfl

/-- The same from the start of the payload and of OBUF. -/
theorem decodeFrom_start {t : CodeTable} (hfree : PrefixFree t) {capacity : Nat} {xs : List Byte} {u : Bits}
    (hu : codesOf t xs = some u) (hfit : xs.length ≤ capacity) (rest : Bits) :
    decodeFrom t capacity 0 0 [] 0 (u ++ rest) =
      (decodeFrom t capacity u.length u.length [] xs.length rest).map (xs ++ ·) := by
  simpa only [Nat.zero_add] using decodeFrom_append hfree hu (out := 0) (by simpa only [Nat.zero_add] using hfit) 0 rest

/-! The answer of the command, by the outcome of the walk. -/

/-- What DECODE commits when it emits `xs` (R151). -/
def State.putOutput (s : State) (xs : List Byte) : State :=
  { s.writeBytes .obuf 0 xs with outLen := lenWord xs.length }

/-- Within PBUF, DECODE is its walk over the payload, then the write of the output (R151). -/
theorem runDecode_of_le {s : State} (hpay : s.payLen.toNat ≤ s.cfg.pbufBits) :
    runDecode s = (decodeFrom s.ct s.cfg.obufSize 0 0 [] 0 s.payloadBits).map s.putOutput := by
  rw [runDecode, if_neg (Nat.not_lt.mpr hpay)]
  cases decodeFrom s.ct s.cfg.obufSize 0 0 [] 0 s.payloadBits <;> rfl

theorem exec_decode_of_ok {s : State} {xs : List Byte} (hpay : s.payLen.toNat ≤ s.cfg.pbufBits)
    (hwalk : decodeFrom s.ct s.cfg.obufSize 0 0 [] 0 s.payloadBits = .ok xs) :
    exec .decode s = .next (s.putOutput xs).completeOk := by
  rw [exec_decode, runDecode_of_le hpay, hwalk]
  rfl

theorem exec_decode_of_error {s : State} {r : Raise} (hpay : s.payLen.toNat ≤ s.cfg.pbufBits)
    (hwalk : decodeFrom s.ct s.cfg.obufSize 0 0 [] 0 s.payloadBits = .error r) :
    exec .decode s = .next (s.completeError .decode r) := by
  rw [exec_decode, runDecode_of_le hpay, hwalk]
  rfl

/-- Settles O41: the walk passes every code, so the output it commits is the symbols. -/
theorem decodeRecoversTheSymbols : Obligations.DecodeRecoversTheSymbols := by
  intro s xs u hfree hpay hu hbits hfit
  have hwalk : decodeFrom s.ct s.cfg.obufSize 0 0 [] 0 s.payloadBits = .ok xs := by
    have hpass := decodeFrom_start hfree hu hfit []
    rwa [List.append_nil, decodeFrom, if_pos rfl, Except.map, List.append_nil, ← hbits] at hpass
  have hlen : (s.putOutput xs).outLen.toNat = xs.length := by
    have hsize := s.cfg.obuf_range
    exact lenWord_toNat (by omega)
  refine ⟨_, exec_decode_of_ok hpay hwalk, rfl, hlen, bytesAt_writeBytes s .obuf 0 xs, fun k hk => ?_⟩
  exact byteAt_writeBytes_outside s .obuf .obuf 0 k xs (.inr (.inr (by omega)))

/-- Settles O59: the walk passes the codes before the rest and raises at it; each raise leaves OBUF a fresh draw (R206). -/
theorem decodeReportsTheFirstBadCode : Obligations.DecodeReportsTheFirstBadCode := by
  intro s xs u rest hfree hpay hu hbits hfit
  have hpass := decodeFrom_start hfree hu hfit rest
  rw [← hbits] at hpass
  refine ⟨fun hne hnone => ?_, fun hne hnone hsome => ?_, fun hfull hsome => ?_⟩
  · rw [decodeFrom_noMatch (u := []) hne hnone] at hpass
    exact exec_decode_of_error hpay hpass
  · rw [decodeFrom_truncated hne hnone hsome] at hpass
    exact exec_decode_of_error hpay hpass
  · obtain ⟨x, c, hx, after, rfl⟩ := hsome
    rw [decodeFrom_code hfree hx, if_pos hfull] at hpass
    exact exec_decode_of_error hpay hpass

/-! What DECODE does not read (R153). -/

/-- The state with other counts and another tree. -/
def State.withTree (s : State) (node : Arena) (root : BitVec 9) (nnode : BitVec 10) (freq : FreqTable) : State :=
  { s with node := node, root := root, nnode := nnode, freq := freq }

/-- DECODE's result before its completion is the same beside any tree (R153). -/
theorem runDecode_withTree (s : State) (node : Arena) (root : BitVec 9) (nnode : BitVec 10) (freq : FreqTable) :
    runDecode (s.withTree node root nnode freq) =
      (runDecode s).map fun c => c.withTree node root nnode freq := by
  by_cases hpay : s.payLen.toNat ≤ s.cfg.pbufBits
  · have hwalk : runDecode (s.withTree node root nnode freq) =
        (decodeFrom s.ct s.cfg.obufSize 0 0 [] 0 s.payloadBits).map (s.withTree node root nnode freq).putOutput :=
      runDecode_of_le (s := s.withTree node root nnode freq) hpay
    rw [hwalk, runDecode_of_le hpay]
    cases decodeFrom s.ct s.cfg.obufSize 0 0 [] 0 s.payloadBits <;> rfl
  · rw [runDecode, runDecode, if_pos (Nat.not_le.mp hpay)]
    exact if_pos (Nat.not_le.mp hpay)

/-- An error completion of DECODE is the same beside any tree (R205, R206). -/
theorem completeError_decode_withTree (s : State) (r : Raise) (node : Arena) (root : BitVec 9) (nnode : BitVec 10)
    (freq : FreqTable) :
    (s.withTree node root nnode freq).completeError .decode r =
      (s.completeError .decode r).withTree node root nnode freq := by
  obtain ⟨e, pos⟩ := r
  cases e <;> rfl

/-- Settles O42: the run and both completions carry the tree along unread. -/
theorem decodeIgnoresTheTree : Obligations.DecodeIgnoresTheTree := by
  intro s t node root nnode freq h
  cases h
  change exec .decode (s.withTree node root nnode freq) =
    .next ((s.settle .decode (runDecode s)).withTree node root nnode freq)
  rw [exec_decode, runDecode_withTree]
  cases runDecode s with
  | ok c => rfl
  | error r => exact congrArg Host.Outcome.next (completeError_decode_withTree s r node root nnode freq)

end Sys2Proof.Machine
end

section
/-! From COUNT to DECODE (R154): every input byte gets a code, and DECODE takes back what ENCODE wrote: O43. -/

namespace Sys2Proof.Machine

open Sys2Proof

/-! Every symbol that occurs gets a code (R120, R124, R125). -/

/-- BUILD's tree has a path to each symbol that occurs (R120). -/
theorem exists_follow_built {s : State} (hsum : freqTotal s < 4294967296) {x : Byte} (hx : s.freqAt x ≠ 0) :
    ∃ u, follow (arenaOf (builtNodes s.freq)) (BitVec.ofNat 9 (builtMerges s.freq).root) u = some x := by
  have hmem : x ∈ (occurring s.freq).map Prod.fst := by
    rw [occurring_map_fst, List.mem_filter]
    exact ⟨mem_symbols x, decide_eq_true hx⟩
  obtain ⟨e, he, rfl⟩ := List.mem_map.mp hmem
  obtain ⟨k, hk, rfl⟩ := List.mem_iff_getElem.mp he
  have hle := occurring_length_le s.freq
  obtain ⟨path, hleads, _⟩ := (merges_built (List.ne_nil_of_mem he)).exists_optimal_paths (isTree_built hsum) (by omega)
    (queueAt_seed hsum)
  have hidx : k + 1 ∈ (seedQueue (occurring s.freq)).map QueueItem.idx := by
    rw [seedQueue_map_idx, List.mem_range'_1]
    omega
  obtain ⟨q, hq, hqk⟩ := List.mem_map.mp hidx
  have hfollow := hleads q hq []
  rw [hqk, follow_built_leaf hk] at hfollow
  exact ⟨_, hfollow⟩

/-- CODEGEN gives a code to each symbol its tree has a path to (R124, R125). -/
theorem exists_entry_of_follow {s t : State} (hinv : TreeInv s) (h : exec .codegen s = .next t) {u : Bits} {x : Byte}
    (hu : follow s.node s.root u = some x) : ∃ c, entryAt t.ct x = some c := by
  obtain ⟨n, hn, htree, hroot⟩ := treeInv_root_cases hinv
  obtain ⟨_, hall⟩ := codegenAssignsPaths
  obtain ⟨t', ht', _, _, _, hleaf, hinternal⟩ := hall s hinv
  obtain rfl := Host.Outcome.next.inj (ht'.symm.trans h)
  rcases hroot with hzero | ⟨_, y, f, hnode⟩ | ⟨v, l, r, hnode⟩
  · have hnone : nodeAt s.node s.root = .none := hzero ▸ htree.nodeAt_zero
    cases u <;> simp [follow, hnone] at hu
  · obtain ⟨_, rfl⟩ := (follow_leaf hnode u x).mp hu
    exact ⟨singleCode, (hleaf x f hnode x singleCode).mpr ⟨rfl, rfl⟩⟩
  · have hpos : u ≠ [] := by
      rintro rfl
      simp [follow, hnode] at hu
    have hlen := htree.follow_length hu
    obtain ⟨_, hhi, _⟩ := htree.internal_node ((nodeAt_eq_nodeNo _ _).symm.trans hnode)
    have hrange : 1 ≤ u.length ∧ u.length ≤ 255 := ⟨List.length_pos_iff.mpr hpos, by omega⟩
    exact ⟨{ bits := u, len_range := hrange }, (hinternal (by rw [hnode]; rfl) x _).mpr hu⟩

/-- BUILD leaves a tree (R41). -/
theorem treeInv_of_build {s t : State} (hsum : freqTotal s < 4294967296) (h : exec .build s = .next t) : TreeInv t := by
  obtain ⟨c, hc, rfl⟩ := exec_build_commits h
  have htree : TreeInv c := treeInv_of_commits_build hsum hc
  exact htree

/-- After BUILD and CODEGEN each symbol that occurs has a code. -/
theorem exists_entry_of_occurs {s t v : State} (hsum : freqTotal s < 4294967296) (hbuild : exec .build s = .next t)
    (hcodegen : exec .codegen t = .next v) {x : Byte} (hx : s.freqAt x ≠ 0) : ∃ c, entryAt v.ct x = some c := by
  obtain ⟨u, hu⟩ := exists_follow_built hsum hx
  have hinv := treeInv_of_build hsum hbuild
  obtain rfl := Host.Outcome.next.inj ((exec_build_eq s).symm.trans hbuild)
  exact exists_entry_of_follow hinv hcodegen hu

/-- Bytes that all have codes can be encoded (R140). -/
theorem exists_codesOf {t : CodeTable} {xs : List Byte} (h : ∀ x ∈ xs, ∃ c, entryAt t x = some c) :
    ∃ u, codesOf t xs = some u := by
  induction xs with
  | nil => exact ⟨[], rfl⟩
  | cons x xs ih =>
    obtain ⟨c, hc⟩ := h x List.mem_cons_self
    obtain ⟨v, hv⟩ := ih fun y hy => h y (List.mem_cons_of_mem x hy)
    exact ⟨c.bits ++ v, (codesOf_cons_eq_some_iff t x xs _).mpr ⟨c, v, hc, hv, rfl⟩⟩

/-- The codes of bytes have as many bits as ENCODE writes for them (R140). -/
theorem codesOf_length {t : CodeTable} {xs : List Byte} {u : Bits} (h : codesOf t xs = some u) :
    u.length = (xs.map (lenOf t)).sum := by
  have hpass := encodeFrom_start h (Nat.le_refl u.length) []
  rw [List.append_nil, encodeFrom, Except.map, List.append_nil] at hpass
  exact encodeFrom_length_eq hpass

/-! DECODE after ENCODE, with any table of R43. -/

/-- The payload is the bits that PBUF holds up to PAY_LEN (R70, R91). -/
theorem payloadBits_eq {s : State} {u : Bits} (hlen : s.payLen.toNat = u.length)
    (hbits : ∀ k, k < u.length → s.pBit k = u.getD k false) : s.payloadBits = u := by
  refine List.ext_getElem (by simp [State.payloadBits, hlen]) fun k _ hk => ?_
  simp only [State.payloadBits, List.getElem_map, List.getElem_range]
  rw [hbits k hk, List.getD_eq_getElem u false hk]

/-- ENCODE and then DECODE give the input bytes back when the codes fit PBUF and the bytes fit OBUF (R154). -/
theorem decode_after_encode {s : State} {u : Bits} (hfree : PrefixFree s.ct) (hin : s.inLen.toNat ≤ s.cfg.ibufSize)
    (hout : s.inLen.toNat ≤ s.cfg.obufSize) (hu : codesOf s.ct s.inputBytes = some u) (hfit : u.length ≤ s.cfg.pbufBits) :
    ∃ t v, exec .encode s = .next t ∧ exec .decode t = .next v ∧ t.err = s.err ∧ v.err = s.err ∧ v.outLen = s.inLen ∧
      ∀ k, k < s.inLen.toNat → v.byteAt .obuf k = s.byteAt .ibuf k := by
  obtain ⟨t, hencode, hframe, hpay, _, hbits, _⟩ := encodeConcatenatesTheCodes s u hin hu hfit
  have hct : t.ct = s.ct := by rw [hframe]
  have hcfg : t.cfg = s.cfg := by rw [hframe]
  have herr : t.err = s.err := by rw [hframe]
  obtain ⟨v, hdecode, hframe', hlen, hbytes, _⟩ := decodeRecoversTheSymbols t s.inputBytes u (hct.symm ▸ hfree)
    (by rw [hpay, hcfg]; exact hfit) (hct.symm ▸ hu) (payloadBits_eq hpay hbits)
    (by rw [inputBytes_length, hcfg]; exact hout)
  rw [inputBytes_length] at hlen hbytes
  refine ⟨t, v, hencode, hdecode, herr, by rw [hframe', herr], BitVec.eq_of_toNat_eq hlen, fun k hk => ?_⟩
  have hget : (v.bytesAt .obuf 0 s.inLen.toNat)[k]? = s.inputBytes[k]? := by rw [hbytes]
  simpa [State.bytesAt, State.inputBytes, hk] using hget

/-- COUNT, BUILD and CODEGEN complete within IBUF: the counts are the input's, and the table has a code for each of its
bytes (R110, R120, R124). -/
theorem exists_table_of_input {s : State} (hin : s.inLen.toNat ≤ s.cfg.ibufSize) :
    ∃ t1 t2 t3, exec .count s = .next t1 ∧ exec .build t1 = .next t2 ∧ exec .codegen t2 = .next t3 ∧
      t3 = { s with freq := t3.freq, node := t3.node, root := t3.root, nnode := t3.nnode, ct := t3.ct
                    nsym := t3.nsym, seq := .idle, done := true } ∧
      PrefixFree t3.ct ∧ (∀ x, t3.freqAt x = s.inputBytes.count x) ∧
      ∀ x ∈ s.inputBytes, ∃ c, entryAt t3.ct x = some c := by
  obtain ⟨_, hcounts⟩ := countTabulatesTheInput
  obtain ⟨hwithin, _⟩ := hcounts s
  obtain ⟨t1, hcount, hframe1, hfreq, htotal⟩ := hwithin hin
  simp only [← inputBytes_count] at hfreq
  have hsum : freqTotal t1 < 4294967296 := htotal.trans_lt s.inLen.isLt
  obtain ⟨t2, hbuild, hframe2, _⟩ := buildMakesATree t1 hsum
  have hinv := treeInv_of_build hsum hbuild
  obtain ⟨_, hpaths⟩ := codegenAssignsPaths
  obtain ⟨t3, hcodegen, hframe3, _⟩ := hpaths t2 hinv
  obtain ⟨hfree, _⟩ := codegenCodesArePrefixFreeAndComplete t2 t3 hinv hcodegen
  have hkept : t3.freq = t1.freq := by rw [hframe3, hframe2]
  refine ⟨t1, t2, t3, hcount, hbuild, hcodegen, by rw [hframe3, hframe2, hframe1], hfree, fun x => ?_, fun x hx => ?_⟩
  · rw [← hfreq x, State.freqAt, State.freqAt, hkept]
  · exact exists_entry_of_occurs hsum hbuild hcodegen ((hfreq x).trans_ne (List.count_pos_iff.mpr hx).ne')

/-- Settles O43: the counts make a table with a code for every input byte, and with it DECODE takes back what ENCODE
wrote. -/
theorem compressDecompressRoundTrip : Obligations.CompressDecompressRoundTrip := by
  intro s herr hin hout
  obtain ⟨t1, t2, t3, hcount, hbuild, hcodegen, hframe, hfree, hfreq, hentry⟩ := exists_table_of_input hin
  have hcfg : t3.cfg = s.cfg := by rw [hframe]
  have hlen : t3.inLen = s.inLen := by rw [hframe]
  have herr3 : t3.err = false := by rw [hframe, herr]
  have hbuf (k : Nat) : t3.byteAt .ibuf k = s.byteAt .ibuf k := byteAt_congr s t3 .ibuf k (by rw [hframe]; rfl)
  have hinput : t3.inputBytes = s.inputBytes := by simp only [State.inputBytes, State.bytesAt, hlen, hbuf]
  obtain ⟨u, hu⟩ := exists_codesOf hentry
  refine ⟨t1, t2, t3, hcount, hbuild, hcodegen, fun hpay => ?_⟩
  have hbits : u.length = weightedLength t3 t3.ct := by
    rw [codesOf_length hu, ← sum_symbols_count, weightedLength]
    simp only [hfreq]
  obtain ⟨t4, t5, hencode, hdecode, herr4, herr5, houtLen, hbytes⟩ := decode_after_encode hfree
    (by rw [hlen, hcfg]; exact hin) (by rw [hlen, hcfg]; exact hout) (hinput ▸ hu) (by rw [hbits, hcfg]; exact hpay)
  rw [hlen] at houtLen hbytes
  exact ⟨t4, t5, hencode, hdecode, herr4.trans herr3, herr5.trans herr3, houtLen, fun k hk => (hbytes k hk).trans (hbuf k)⟩

end Sys2Proof.Machine
end

section
/-! The bytes of a code-table line (R13, R160, R164, R165) and the line as the specification writes it. -/

namespace Sys2Proof.Machine

open Sys2Proof

/-! Bits as characters (R165). -/

@[simp] theorem bitOfChar_charOfBit (b : Bool) : bitOfChar (charOfBit b) = b := by cases b <;> rfl

@[simp] theorem isBitChar_charOfBit (b : Bool) : isBitChar (charOfBit b) = true := by cases b <;> rfl

theorem charOfBit_ne_spaceChar (b : Bool) : charOfBit b ≠ spaceChar := by cases b <;> decide

theorem charOfBit_ne_newlineChar (b : Bool) : charOfBit b ≠ newlineChar := by cases b <;> decide

theorem isBitChar_eq_false_iff (c : Byte) : isBitChar c = false ↔ nonBinary c := by
  simp [isBitChar, nonBinary]

/-! Digits (R164). -/

theorem isDigit_eq_false_iff (d : Byte) : isDigit d = false ↔ nonDigit d := by
  rw [isDigit, nonDigit, Bool.and_eq_false_iff, decide_eq_false_iff_not, decide_eq_false_iff_not, Nat.not_le, Nat.not_le]

theorem digitChar_toNat {n : Nat} (h : n < 10) : (digitChar n).toNat = 0x30 + n := by
  rw [digitChar, BitVec.toNat_ofNat]
  omega

theorem ne_newlineChar_of_isDigit {d : Byte} (h : isDigit d = true) : d ≠ newlineChar := by
  rintro rfl
  exact absurd h (by decide)

/-- The library's digit characters have the same bytes. -/
theorem digitChar_eq_ofNat {n : Nat} (h : n < 10) : digitChar n = BitVec.ofNat 8 (Nat.digitChar n).toNat := by
  interval_cases n <;> rfl

/-- The number a string of digits spells, by the library's function of the digits from the last to the first (R15). -/
theorem digitsValue_eq_ofDigits (ds : List Byte) :
    digitsValue ds = Nat.ofDigits 10 (ds.reverse.map fun d => d.toNat - 48) := by
  rw [Nat.ofDigits_eq_foldr, List.foldr_map, List.foldr_reverse, digitsValue]
  congr 1
  funext v d
  exact Nat.add_comm _ _

/-- Leading zeros do not count (R164). -/
theorem digitsValue_zeros (n : Nat) (ds : List Byte) : digitsValue (List.replicate n 0x30#8 ++ ds) = digitsValue ds := by
  induction n with
  | zero => rfl
  | succ n ih => exact ih

/-! Ordinals (R160, R164). -/

/-- R160's decimal is the library's. -/
theorem decimal_eq_toDigits (x : Byte) :
    decimal x = (Nat.toDigits 10 x.toNat).map fun ch => BitVec.ofNat 8 ch.toNat := by
  have hx := x.isLt
  simp only [decimal]
  split
  · rename_i h
    rw [Nat.toDigits_of_lt_base h, digitChar_eq_ofNat h]
    rfl
  · split
    · rename_i h1 h2
      rw [Nat.toDigits_of_base_le (by omega) (by omega), Nat.toDigits_of_lt_base (by omega),
        digitChar_eq_ofNat (by omega), digitChar_eq_ofNat (by omega)]
      rfl
    · rename_i h1 h2
      have hdiv : x.toNat / 10 / 10 = x.toNat / 100 := Nat.div_div_eq_div_mul _ _ _
      rw [Nat.toDigits_of_base_le (by omega) (by omega), Nat.toDigits_of_base_le (by omega) (by omega),
        Nat.toDigits_of_lt_base (by omega), hdiv, digitChar_eq_ofNat (by omega), digitChar_eq_ofNat (by omega),
        digitChar_eq_ofNat (by omega)]
      rfl

/-- The digits of a number spell it. -/
theorem digitsValue_toDigits (n : Nat) :
    digitsValue ((Nat.toDigits 10 n).map fun ch => BitVec.ofNat 8 ch.toNat) = n := by
  induction n using Nat.strong_induction_on with
  | _ n ih =>
    rw [Nat.toDigits_eq_if (by decide)]
    split
    · rename_i h
      rw [List.map_singleton, ← digitChar_eq_ofNat h]
      simp [digitsValue, digitChar_toNat h]
    · have hlast : n % 10 < 10 := Nat.mod_lt n (by decide)
      rw [List.map_append, digitsValue, List.foldl_append]
      change 10 * digitsValue _ + ((BitVec.ofNat 8 (Nat.digitChar (n % 10)).toNat).toNat - 0x30) = n
      rw [ih (n / 10) (by omega), ← digitChar_eq_ofNat hlast, digitChar_toNat hlast]
      omega

theorem isDigit_of_mem_decimal {x d : Byte} (h : d ∈ decimal x) : isDigit d = true := by
  rw [decimal_eq_toDigits, List.mem_map] at h
  obtain ⟨ch, hch, rfl⟩ := h
  have hdigit := Nat.isDigit_of_mem_toDigits (by decide) (by decide) hch
  obtain ⟨hlo, hhi⟩ : 48 ≤ ch.toNat ∧ ch.toNat ≤ 57 := Char.isDigit_iff_toNat.mp hdigit
  simp only [isDigit, BitVec.toNat_ofNat, Bool.and_eq_true, decide_eq_true_eq]
  omega

/-- R164's condition on the bytes after the space: one or more digits. -/
def IsOrdinal (ds : List Byte) : Prop := ds ≠ [] ∧ ∀ d ∈ ds, isDigit d = true

theorem decimal_ne_nil (x : Byte) : decimal x ≠ [] := by
  rw [decimal_eq_toDigits, ne_eq, List.map_eq_nil_iff]
  exact Nat.toDigits_ne_nil

/-- A symbol's decimal with leading zeros is an ordinal that spells the symbol (R160, R164). -/
theorem isOrdinal_zeros_decimal (zeros : Nat) (x : Byte) : IsOrdinal (List.replicate zeros 0x30#8 ++ decimal x) := by
  refine ⟨List.append_ne_nil_of_right_ne_nil _ (decimal_ne_nil x), fun d hd => ?_⟩
  rcases List.mem_append.mp hd with hd | hd
  · rw [List.eq_of_mem_replicate hd]
    rfl
  · exact isDigit_of_mem_decimal hd

theorem digitsValue_zeros_decimal (zeros : Nat) (x : Byte) :
    digitsValue (List.replicate zeros 0x30#8 ++ decimal x) = x.toNat := by
  rw [digitsValue_zeros, decimal_eq_toDigits, digitsValue_toDigits]

/-! Lines (R160). -/

/-- The specification's line in the model's own terms. -/
theorem specLineZeros_eq (zeros : Nat) (x : Byte) (u : Bits) :
    specLineZeros zeros x u = u.map charOfBit ++ spaceChar :: (List.replicate zeros 0x30#8 ++ decimal x) := by
  rw [decimal_eq_toDigits]
  rfl

/-- TABSER's line is the specification's (R160). -/
theorem tableLine_eq_specLine (x : Byte) (c : Code) : tableLine x c = specLine x c.bits :=
  (specLineZeros_eq 0 x c.bits).symm

theorem specLineZeros_ne_nil (zeros : Nat) (x : Byte) (u : Bits) : specLineZeros zeros x u ≠ [] := by
  rw [specLineZeros_eq]
  exact List.append_ne_nil_of_right_ne_nil _ (List.cons_ne_nil _ _)

/-- A line holds no newline, so it is one segment of its text (R160, R163). -/
theorem newlineChar_notMem_specLineZeros (zeros : Nat) (x : Byte) (u : Bits) :
    newlineChar ∉ specLineZeros zeros x u := by
  rw [specLineZeros_eq]
  intro h
  rcases List.mem_append.mp h with h | h
  · obtain ⟨b, _, hb⟩ := List.mem_map.mp h
    exact charOfBit_ne_newlineChar b hb
  · rcases List.mem_cons.mp h with h | h
    · exact absurd h (by decide)
    · exact ne_newlineChar_of_isDigit ((isOrdinal_zeros_decimal zeros x).2 _ h) rfl

end Sys2Proof.Machine
end

section
/-! TABSER (R160 to R162): O44. Its lines are in order because it sorts them by insertion, as the library does. -/

namespace Sys2Proof.Machine

open Sys2Proof

/-- R161's order on lines: the library's order on their byte values. -/
abbrev LineOrder : List Byte → List Byte → Prop := List.map BitVec.toNat ⁻¹'o (· ≤ ·)

/-- Mathlib's order on lists is the core library's. -/
theorem list_le_iff_core (l m : List Nat) : l ≤ m ↔ @LE.le _ List.instLE l m := not_lt.symm

theorem lineLe_iff (a b : List Byte) : lineLe a b = true ↔ LineOrder a b := by
  rw [LineOrder, Order.Preimage, list_le_iff_core]
  induction a generalizing b with
  | nil => simp [lineLe]
  | cons x xs ih =>
    cases b with
    | nil => simp [lineLe]
    | cons y ys =>
      rw [List.map_cons, List.map_cons, List.cons_le_cons_iff, ← ih, BitVec.toNat_inj]
      simp [lineLe]

theorem insertLine_eq_orderedInsert (l : List Byte) (ls : List (List Byte)) :
    insertLine l ls = ls.orderedInsert LineOrder l := by
  induction ls with
  | nil => rfl
  | cons m ms ih => simp only [insertLine, List.orderedInsert_cons, lineLe_iff, ih]

theorem sortLines_eq_insertionSort (ls : List (List Byte)) : sortLines ls = ls.insertionSort LineOrder := by
  induction ls with
  | nil => rfl
  | cons l ls ih => rw [sortLines, insertLine_eq_orderedInsert, ih, List.insertionSort_cons]

theorem sortLines_pairwise (ls : List (List Byte)) : (sortLines ls).Pairwise LineOrder := by
  rw [sortLines_eq_insertionSort]
  exact List.pairwise_insertionSort LineOrder ls

/-- What TABSER commits (R162). -/
def State.putTableText (s : State) : State :=
  { s.writeBytes .tbuf 0 (tableTextOf s.ct) with txtLen := lenWord (tableTextOf s.ct).length }

theorem exec_tabser_eq (s : State) : exec .tabser s = .next s.putTableText.completeOk := rfl

theorem putTableText_txtLen (s : State) : s.putTableText.txtLen.toNat = (tableTextOf s.ct).length :=
  lenWord_toNat ((tableTextOf_length_le s.ct).trans_lt (by decide))

/-- The text that TABPARSE would read after TABSER is the text of the table (R91, R162). -/
theorem putTableText_tableText (s : State) : s.putTableText.tableText = tableTextOf s.ct := by
  rw [State.tableText, putTableText_txtLen]
  exact bytesAt_writeBytes s .tbuf 0 (tableTextOf s.ct)

/-- Settles O44: the committed text is the sorted lines, and it fits TBUF. -/
theorem tabserWritesSortedLines : Obligations.TabserWritesSortedLines := by
  refine ⟨by decide, fun s => ?_⟩
  have hlen : s.putTableText.completeOk.txtLen.toNat = (tableTextOf s.ct).length := putTableText_txtLen s
  refine ⟨s.putTableText.completeOk, sortLines ((validEntries s.ct).map fun (e : Byte × Code) => tableLine e.1 e.2),
    exec_tabser_eq s, rfl, ?_, sortLines_pairwise _, hlen, ?_, putTableText_tableText s, fun k hk => ?_⟩
  · simpa only [tableLine_eq_specLine] using sortLines_perm ((validEntries s.ct).map fun e => tableLine e.1 e.2)
  · exact hlen.trans_le (tableTextOf_length_le s.ct)
  · rw [hlen] at hk
    exact byteAt_writeBytes_outside s .tbuf .tbuf 0 k (tableTextOf s.ct) (.inr (.inr (by omega)))

end Sys2Proof.Machine
end

section
/-! The cut of the text (R163): O45, by the first line of a text and its rest. -/

namespace Sys2Proof.Machine

open Sys2Proof

/-- A text with no newline is one segment. -/
theorem segments_of_notMem {l : List Byte} (h : newlineChar ∉ l) (a : Nat) :
    segments a l = [{ start := a, text := l }] := by
  induction l generalizing a with
  | nil => rfl
  | cons b bs ih =>
    rw [List.mem_cons, not_or] at h
    rw [segments, if_neg (Ne.symm h.1), ih h.2]

/-- The first newline ends the first segment, and the next begins right after it. -/
theorem segments_line {m : List Byte} (h : newlineChar ∉ m) (a : Nat) (rest : List Byte) :
    segments a (m ++ newlineChar :: rest) = { start := a, text := m } :: segments (a + (m.length + 1)) rest := by
  induction m generalizing a with
  | nil => simp [segments]
  | cons b bs ih =>
    rw [List.mem_cons, not_or] at h
    rw [List.cons_append, segments, if_neg (Ne.symm h.1), ih h.2, List.length_cons, Nat.add_right_comm a 1]
    rfl

/-- The bytes a text's lines take, newlines included: where the next line starts (R163). -/
def linesSize (ls : List (List Byte)) : Nat := (ls.map fun m => m.length + 1).sum

/-- The segments of lines with their newlines and a last line without one: the lines, each with its offset (R163). -/
theorem segments_lines {ls : List (List Byte)} {l : List Byte} (hls : ∀ m ∈ ls, newlineChar ∉ m)
    (hl : newlineChar ∉ l) (a : Nat) : segments a (ls.flatMap (fun m => m ++ [newlineChar]) ++ l) =
      (ls ++ [l]).zipIdx.map fun p => { start := a + linesSize (ls.take p.2), text := p.1 } := by
  induction ls generalizing a with
  | nil => simp [segments_of_notMem hl, linesSize]
  | cons m ms ih =>
    rw [List.forall_mem_cons] at hls
    have hoffset (k : Nat) : linesSize ((m :: ms).take (k + 1)) = m.length + 1 + linesSize (ms.take k) := rfl
    rw [List.flatMap_cons, List.append_assoc, List.append_assoc, List.singleton_append, segments_line hls.1, ih hls.2,
      List.cons_append, List.zipIdx_cons', List.map_cons, List.map_map]
    simp only [Function.comp_def, Prod.map, id, hoffset, Nat.add_assoc, List.take_zero]
    rfl

/-- The lines TABPARSE reads, with their offsets (R163). -/
theorem tableLines_lines {ls : List (List Byte)} {l : List Byte} (hls : ∀ m ∈ ls, newlineChar ∉ m)
    (hl : newlineChar ∉ l) : tableLines (ls.flatMap (fun m => m ++ [newlineChar]) ++ l) =
      ((ls ++ [l]).zipIdx.filter fun p => decide (p.1 ≠ [])).map fun p =>
        { start := linesSize (ls.take p.2), text := p.1 } := by
  rw [tableLines, segments_lines hls hl, List.filter_map]
  simp only [Nat.zero_add]
  congr 2
  funext p
  obtain ⟨m, k⟩ := p
  cases m <;> rfl

/-- Settles O45: the segments of lines with their offsets, and those of them that are not empty. -/
theorem textIsCutAtNewlines : Obligations.TextIsCutAtNewlines :=
  fun a _ _ hls hl => ⟨segments_lines hls hl a, tableLines_lines hls hl⟩

/-- The bytes of the lines TABPARSE reads: the lines that are not empty (R163). -/
theorem tableLines_map_text {ls : List (List Byte)} {l : List Byte} (hls : ∀ m ∈ ls, newlineChar ∉ m)
    (hl : newlineChar ∉ l) : (tableLines (ls.flatMap (fun m => m ++ [newlineChar]) ++ l)).map Segment.text =
      (ls ++ [l]).filter fun m => decide (m ≠ []) := by
  rw [tableLines_lines hls hl, List.map_map]
  conv_rhs => rw [← List.zipIdx_map_fst 0 (ls ++ [l]), List.filter_map]
  rfl

end Sys2Proof.Machine
end

section
/-! The eight checks of a code-table line (R163 to R167): O46. One lemma per check, each for a line that passes the checks
before it. -/

namespace Sys2Proof.Machine

open Sys2Proof

/-! What the conditions of the checks say. -/

theorem splitAtSpace_of_notMem {line : List Byte} (h : spaceChar ∉ line) : splitAtSpace line = none := by
  induction line with
  | nil => rfl
  | cons b bs ih =>
    rw [List.mem_cons, not_or] at h
    rw [splitAtSpace, if_neg (Ne.symm h.1), ih h.2]

/-- The line is cut at its first space (R163). -/
theorem splitAtSpace_append {B : List Byte} (h : spaceChar ∉ B) (O : List Byte) :
    splitAtSpace (B ++ spaceChar :: O) = some (B, O) := by
  induction B with
  | nil => simp [splitAtSpace]
  | cons b bs ih =>
    rw [List.mem_cons, not_or] at h
    rw [List.cons_append, splitAtSpace, if_neg (Ne.symm h.1), ih h.2]

theorem spaceChar_notMem_bits (u : Bits) : spaceChar ∉ u.map charOfBit := by
  intro h
  obtain ⟨b, _, hb⟩ := List.mem_map.mp h
  exact charOfBit_ne_spaceChar b hb

theorem ordinalCheck_iff (O : List Byte) : (O.isEmpty || !O.all isDigit) = true ↔ ¬ IsOrdinal O := by
  simp [IsOrdinal, imp_iff_not_or]

theorem bitCheck_iff (B : List Byte) : (!B.all isBitChar) = true ↔ ∃ c ∈ B, nonBinary c := by
  simp [isBitChar_eq_false_iff]

/-- R166's conflict is with an entry whose code begins the new one or is begun by it. -/
theorem prefixConflicts_iff (t : CodeTable) (u : Bits) :
    prefixConflicts t u = true ↔ ∃ x d, entryAt t x = some d ∧ (u <+: d.bits ∨ d.bits <+: u) := by
  have hentry (d : Code) : (isPrefix u d.bits || isPrefix d.bits u) = true ↔ u <+: d.bits ∨ d.bits <+: u := by
    rw [Bool.or_eq_true, isPrefix, isPrefix, List.isPrefixOf_iff_prefix, List.isPrefixOf_iff_prefix]
  rw [prefixConflicts, ← indexed_map_snd t, List.any_map, List.any_eq_true]
  constructor
  · rintro ⟨⟨x, e⟩, hmem, hp⟩
    cases e with
    | none => cases hp
    | some d => exact ⟨x, d, (mem_indexed t x _).mp hmem, (hentry d).mp hp⟩
  · rintro ⟨x, d, hx, hp⟩
    exact ⟨(x, some d), (mem_indexed t x _).mpr hx, (hentry d).mpr hp⟩

/-! The checks of the split, of the ordinal and of the bits' characters. -/

theorem parseLine_split (t : CodeTable) {line : List Byte} (h : spaceChar ∉ line) :
    parseLine t line = .error .split := by
  rw [parseLine, splitAtSpace_of_notMem h]

section
variable {B O : List Byte} (hB : spaceChar ∉ B) (t : CodeTable)
include hB

theorem parseLine_ordinalSyntax (h : ¬ IsOrdinal O) : parseLine t (B ++ spaceChar :: O) = .error .ordinalSyntax := by
  rw [parseLine, splitAtSpace_append hB]
  exact if_pos ((ordinalCheck_iff O).mpr h)

variable (hO : IsOrdinal O)
include hO

theorem parseLine_ordinalRange (h : 255 < digitsValue O) : parseLine t (B ++ spaceChar :: O) = .error .ordinalRange := by
  rw [parseLine, splitAtSpace_append hB]
  dsimp only
  rw [if_neg (mt (ordinalCheck_iff O).mp (not_not_intro hO)), if_pos h]

theorem parseLine_bitChar (hv : digitsValue O ≤ 255) (h : ∃ c ∈ B, nonBinary c) :
    parseLine t (B ++ spaceChar :: O) = .error .bitChar := by
  rw [parseLine, splitAtSpace_append hB]
  dsimp only
  rw [if_neg (mt (ordinalCheck_iff O).mp (not_not_intro hO)), if_neg (Nat.not_lt.mpr hv), if_pos ((bitCheck_iff B).mpr h)]

end

/-! The checks of the code, on a line that spells a bit sequence and a symbol. -/

section
variable {O : List Byte} (hO : IsOrdinal O) (hv : digitsValue O ≤ 255) (t : CodeTable)
include hO hv

/-- What is left of the checks once the bits and the symbol are read (R165, R166). -/
theorem parseLine_bits (u : Bits) : parseLine t (u.map charOfBit ++ spaceChar :: O) =
    if hlo : u.length = 0 then .error .emptyCode
    else if hhi : 255 < u.length then .error .codeTooLong
    else if (entryAt t (BitVec.ofNat 8 (digitsValue O))).isSome then .error .duplicateSymbol
    else if prefixConflicts t u then .error .prefixConflict
    else .ok (setEntry t (BitVec.ofNat 8 (digitsValue O)) { bits := u, len_range := ⟨by omega, by omega⟩ }) := by
  have hread : (u.map charOfBit).map bitOfChar = u := by simp [Function.comp_def]
  rw [parseLine, splitAtSpace_append (spaceChar_notMem_bits u)]
  dsimp only
  rw [if_neg (mt (ordinalCheck_iff O).mp (not_not_intro hO)), if_neg (Nat.not_lt.mpr hv), if_neg (by simp)]
  simp only [hread]

/-- A line with a code passes all checks but the two against the table (R166). -/
theorem parseLine_code (c : Code) : parseLine t (c.bits.map charOfBit ++ spaceChar :: O) =
    if (entryAt t (BitVec.ofNat 8 (digitsValue O))).isSome then .error .duplicateSymbol
    else if prefixConflicts t c.bits then .error .prefixConflict
    else .ok (setEntry t (BitVec.ofNat 8 (digitsValue O)) c) := by
  obtain ⟨hlo, hhi⟩ := c.len_range
  rw [parseLine_bits hO hv, dif_neg (Nat.ne_of_gt hlo), dif_neg (Nat.not_lt.mpr hhi)]

theorem parseLine_duplicateSymbol (c : Code) (h : entryAt t (BitVec.ofNat 8 (digitsValue O)) ≠ none) :
    parseLine t (c.bits.map charOfBit ++ spaceChar :: O) = .error .duplicateSymbol := by
  rw [parseLine_code hO hv, if_pos (Option.isSome_iff_ne_none.mpr h)]

variable (c : Code) (hnew : entryAt t (BitVec.ofNat 8 (digitsValue O)) = none)
include hnew

theorem parseLine_prefixConflict (h : ∃ x d, entryAt t x = some d ∧ (c.bits <+: d.bits ∨ d.bits <+: c.bits)) :
    parseLine t (c.bits.map charOfBit ++ spaceChar :: O) = .error .prefixConflict := by
  rw [parseLine_code hO hv, hnew, Option.isSome_none, if_neg Bool.false_ne_true,
    if_pos ((prefixConflicts_iff t c.bits).mpr h)]

/-- A line that passes all checks adds its entry (R167). -/
theorem parseLine_entry (h : ∀ x d, entryAt t x = some d → ¬ c.bits <+: d.bits ∧ ¬ d.bits <+: c.bits) :
    parseLine t (c.bits.map charOfBit ++ spaceChar :: O) = .ok (setEntry t (BitVec.ofNat 8 (digitsValue O)) c) := by
  have hfree : ¬ prefixConflicts t c.bits = true := by
    rw [prefixConflicts_iff]
    rintro ⟨x, d, hx, hp⟩
    exact not_or.mpr (h x d hx) hp
  rw [parseLine_code hO hv, hnew, Option.isSome_none, if_neg Bool.false_ne_true, if_neg hfree]

end

/-! The statement, in the specification's words. -/

theorem isOrdinal_iff (O : List Byte) : IsOrdinal O ↔ O ≠ [] ∧ ∀ d ∈ O, ¬ nonDigit d := by
  simp only [IsOrdinal, ← isDigit_eq_false_iff, Bool.not_eq_false]

/-- Bytes that are all '0' or '1' spell a bit sequence (R165). -/
theorem exists_bits_of_binary {B : List Byte} (h : ∀ c ∈ B, ¬ nonBinary c) : ∃ u : Bits, B = u.map charOfBit := by
  induction B with
  | nil => exact ⟨[], rfl⟩
  | cons c B ih =>
    rw [List.forall_mem_cons] at h
    obtain ⟨u, rfl⟩ := ih h.2
    have hc : c = charOfBit (bitOfChar c) := by
      by_cases hone : c = 0x31#8
      · rw [hone]
        rfl
      · have hzero : c = 0x30#8 := not_not.mp fun hne => h.1 ⟨hne, hone⟩
        rw [hzero]
        rfl
    exact ⟨bitOfChar c :: u, by rw [List.map_cons, ← hc]⟩

/-- Settles O46, check by check. -/
theorem tableLineChecksInOrder : Obligations.TableLineChecksInOrder := by
  refine ⟨fun t line h => parseLine_split t h, fun t B O v hB hv => ?_⟩
  rw [← digitsValue_eq_ofDigits] at hv
  subst hv
  refine ⟨fun hbad => parseLine_ordinalSyntax hB t ?_, fun hne hdigits => ?_⟩
  · rw [isOrdinal_iff]
    rintro ⟨hne, hdigits⟩
    rcases hbad with hnil | ⟨d, hd, hbad⟩
    · exact hne hnil
    · exact hdigits d hd hbad
  · have hO := (isOrdinal_iff O).mpr ⟨hne, hdigits⟩
    refine ⟨parseLine_ordinalRange hB t hO, parseLine_bitChar hB t hO, fun hv hnil => ?_, fun hv hbits hlong => ?_,
      fun c hv hcode => ?_⟩
    · subst hnil
      exact parseLine_bits hO hv t []
    · obtain ⟨u, rfl⟩ := exists_bits_of_binary hbits
      rw [List.length_map] at hlong
      exact (parseLine_bits hO hv t u).trans ((dif_neg (by omega)).trans (dif_pos hlong))
    · subst hcode
      exact ⟨parseLine_duplicateSymbol hO hv t c,
        fun hnew => ⟨parseLine_prefixConflict hO hv t c hnew, parseLine_entry hO hv t c hnew⟩⟩

end Sys2Proof.Machine
end

section
/-! TABPARSE: the first failing line (R167, R202), the entries it loads, and TABSER followed by TABPARSE (R168): O47 to
O49. -/

namespace Sys2Proof.Machine

open Sys2Proof

/-! The answer of the command, by the outcome of its lines. -/

section
variable {s : State} (hlen : s.txtLen.toNat ≤ Config.tbufSize)
include hlen

theorem exec_tabparse_of_ok {table : CodeTable} (h : parseLines emptyTable (tableLines s.tableText) = .ok table) :
    exec .tabparse s = .next
      { s with ct := table, nsym := BitVec.ofNat 9 (tableLines s.tableText).length, seq := .idle, done := true } := by
  rw [exec_tabparse, runTabparse, if_neg (Nat.not_lt.mpr hlen)]
  simp only [h]
  rfl

theorem exec_tabparse_of_error {r : Raise} (h : parseLines emptyTable (tableLines s.tableText) = .error r) :
    exec .tabparse s = .next (s.completeError .tabparse r) := by
  rw [exec_tabparse, runTabparse, if_neg (Nat.not_lt.mpr hlen)]
  simp only [h]
  rfl

end

/-- The lines before the first failing one are read first (R167). -/
theorem parseLines_append {t table : CodeTable} {good : List Segment} (h : parseLines t good = .ok table)
    (rest : List Segment) : parseLines t (good ++ rest) = parseLines table rest := by
  induction good generalizing t with
  | nil =>
    cases h
    rfl
  | cons g gs ih =>
    rw [List.cons_append, parseLines]
    rw [parseLines] at h
    cases hg : parseLine t g.text with
    | error why => simp [hg] at h
    | ok t1 =>
      rw [hg] at h
      exact ih h

theorem parseLines_bad {table : CodeTable} {bad : Segment} {why : LineFault} (h : parseLine table bad.text = .error why)
    (rest : List Segment) :
    parseLines table (bad :: rest) = .error { error := .malformedCodeTable why, pos := bad.start } := by
  rw [parseLines, h]

/-- Settles O47: the lines before the bad one load, and its check is raised at its first byte. -/
theorem tabparseReportsTheFirstBadLine : Obligations.TabparseReportsTheFirstBadLine := by
  intro s good rest bad table why sub hsub hlen hlines hgood hbad
  have hraise := (parseLines_append hgood (bad :: rest)).trans (parseLines_bad hbad rest)
  rw [← hlines] at hraise
  have hcode : sub = lineFaultSub why := by cases why <;> simpa [lineFaultSub] using hsub
  rw [exec_tabparse_of_error hlen hraise, hcode]
  rfl

/-! The lines of entries. -/

/-- A table can take the code `c` for symbol `x`: no entry has the symbol, and no code begins the other (R166). -/
def Admits (t : CodeTable) (x : Byte) (c : Code) : Prop :=
  entryAt t x = none ∧ ∀ y d, entryAt t y = some d → ¬ c.bits <+: d.bits ∧ ¬ d.bits <+: c.bits

theorem admits_emptyTable (x : Byte) (c : Code) : Admits emptyTable x c := by simp [Admits]

/-- An entry that is admitted leaves those admitted that do not conflict with it. -/
theorem Admits.setEntry {t : CodeTable} {x y : Byte} {c d : Code} (h : Admits t y d) (hxy : x ≠ y)
    (hcd : ¬ c.bits <+: d.bits ∧ ¬ d.bits <+: c.bits) : Admits (setEntry t x c) y d := by
  obtain ⟨hnew, hfree⟩ := h
  refine ⟨(entryAt_setEntry_ne t x y c hxy.symm).trans hnew, fun z e hz => ?_⟩
  by_cases hzx : z = x
  · subst hzx
    rw [entryAt_setEntry_same, Option.some.injEq] at hz
    exact hz ▸ hcd.symm
  · rw [entryAt_setEntry_ne t x z c hzx] at hz
    exact hfree z e hz

/-- The entries of a table with a new symbol's entry set. -/
theorem entryAt_setEntry_iff {t : CodeTable} {x : Byte} (h : entryAt t x = none) (y : Byte) (c d : Code) :
    entryAt (setEntry t x c) y = some d ↔ entryAt t y = some d ∨ y = x ∧ d = c := by
  by_cases hy : y = x
  · subst hy
    simp [entryAt_setEntry_same, h, eq_comm]
  · simp [entryAt_setEntry_ne t x y c hy, hy]

/-- The line of an entry the table admits adds it, whatever the number of leading zeros (R164, R167). -/
theorem parseLine_specLineZeros {t : CodeTable} {x : Byte} {c : Code} (h : Admits t x c) (zeros : Nat) :
    parseLine t (specLineZeros zeros x c.bits) = .ok (setEntry t x c) := by
  have hvalue := digitsValue_zeros_decimal zeros x
  have hsymbol : BitVec.ofNat 8 (digitsValue (List.replicate zeros 0x30#8 ++ decimal x)) = x := by
    rw [hvalue, BitVec.ofNat_toNat, BitVec.setWidth_eq]
  obtain ⟨hnew, hfree⟩ := h
  rw [specLineZeros_eq, parseLine_entry (isOrdinal_zeros_decimal zeros x) (by have := x.isLt; omega) t c
    (by rw [hsymbol]; exact hnew) hfree, hsymbol]

/-- The line of an entry given with its number of leading zeros. -/
def entryLine (e : Nat × Byte × Code) : List Byte := specLineZeros e.1 e.2.1 e.2.2.bits

/-- Two entries have different symbols, and neither code begins the other. -/
def Compatible (a b : Nat × Byte × Code) : Prop :=
  a.2.1 ≠ b.2.1 ∧ ¬ a.2.2.bits <+: b.2.2.bits ∧ ¬ b.2.2.bits <+: a.2.2.bits

/-- The lines of entries that the table admits, no two in conflict, add exactly these entries (R167). -/
theorem parseLines_entries {t : CodeTable} {es : List (Nat × Byte × Code)} {lines : List Segment}
    (hlines : lines.map Segment.text = es.map entryLine) (hes : es.Pairwise Compatible)
    (hadmits : ∀ e ∈ es, Admits t e.2.1 e.2.2) :
    ∃ t', parseLines t lines = .ok t' ∧
      ∀ x c, entryAt t' x = some c ↔ entryAt t x = some c ∨ ∃ zeros, (zeros, x, c) ∈ es := by
  induction es generalizing t lines with
  | nil =>
    rw [List.map_nil, List.map_eq_nil_iff] at hlines
    subst hlines
    exact ⟨t, rfl, by simp⟩
  | cons e es ih =>
    obtain ⟨zeros, x, c⟩ := e
    obtain ⟨g, gs, rfl, hg, hgs⟩ := List.map_eq_cons_iff.mp hlines
    rw [List.forall_mem_cons] at hadmits
    rw [List.pairwise_cons] at hes
    obtain ⟨t', hparse, hentries⟩ := ih (t := setEntry t x c) hgs hes.2 fun e he =>
      (hadmits.2 e he).setEntry (hes.1 e he).1 (hes.1 e he).2
    refine ⟨t', ?_, fun y d => (hentries y d).trans ?_⟩
    · rw [parseLines, hg, entryLine, parseLine_specLineZeros hadmits.1]
      exact hparse
    · simp only [entryAt_setEntry_iff hadmits.1.1, List.mem_cons, Prod.mk.injEq, exists_or, exists_and_right, exists_eq,
        true_and, or_assoc]

/-- Each line read is one entry of the table (R34, R167). -/
theorem parseLines_count {t : CodeTable} {lines : List Segment} (h : parseLines emptyTable lines = .ok t) :
    lines.length = (validEntries t).length := by
  have hlen := (parseLines_ok (by simp [PrefixFree]) h).2
  rw [hlen, validEntries_emptyTable, List.length_nil, Nat.zero_add]

/-- NSYM holds the number of entries of any table (R34). -/
theorem ofNat_count_toNat (t : CodeTable) : (BitVec.ofNat 9 (validEntries t).length).toNat = (validEntries t).length := by
  have hle := validEntries_length_le t
  rw [BitVec.toNat_ofNat]
  exact Nat.mod_eq_of_lt (by omega)

/-- Segments that are the lines of entries or empty hold no newline (R160, R163). -/
theorem newlineChar_notMem_of_lines {es : List (Nat × Byte × Code)} {ls : List (List Byte)}
    (h : (ls.filter fun m => decide (m ≠ [])) = es.map entryLine) : ∀ m ∈ ls, newlineChar ∉ m := by
  intro m hm hnewline
  have hline : m ∈ es.map entryLine := by
    rw [← h, List.mem_filter, decide_eq_true_eq]
    exact ⟨hm, List.ne_nil_of_mem hnewline⟩
  obtain ⟨e, _, rfl⟩ := List.mem_map.mp hline
  exact newlineChar_notMem_specLineZeros _ _ _ hnewline

/-- Settles O48: the lines TABPARSE reads are the entries' lines, and each is admitted. -/
theorem tabparseLoadsTheEntries : Obligations.TabparseLoadsTheEntries := by
  intro s es ls l hlen hes hlines htext
  have hclean := newlineChar_notMem_of_lines hlines
  have hread : (tableLines s.tableText).map Segment.text = es.map entryLine := by
    rw [htext]
    exact (tableLines_map_text (fun m hm => hclean m (List.mem_append_left _ hm)) (hclean l (by simp))).trans hlines
  obtain ⟨table, hparse, hentries⟩ := parseLines_entries hread hes fun e _ => admits_emptyTable e.2.1 e.2.2
  have hcount := parseLines_count hparse
  have hes_count : (tableLines s.tableText).length = es.length := by simpa using congrArg List.length hread
  refine ⟨_, exec_tabparse_of_ok hlen hparse, rfl, ?_, fun x c => by simpa using hentries x c⟩
  simp only [hcount, ofNat_count_toNat]
  exact hcount.symm.trans hes_count

/-! TABSER, then TABPARSE (R168). -/

/-- A table is its entries. -/
theorem codeTable_ext {t t' : CodeTable} (h : ∀ x c, entryAt t x = some c ↔ entryAt t' x = some c) : t = t' := by
  refine Vector.ext fun k hk => Option.ext fun c => ?_
  have hkx : (BitVec.ofNat 8 k).toNat = k := by simpa using hk
  simpa [entryAt, hkx] using h (BitVec.ofNat 8 k) c

/-- Lines that are a table's in another order are the lines of its entries in another order. -/
theorem exists_entries_of_perm {t : CodeTable} {lines : List (List Byte)}
    (h : lines.Perm ((validEntries t).map fun e => specLine e.1 e.2.bits)) :
    ∃ es : List (Byte × Code), es.Perm (validEntries t) ∧ lines = es.map fun e => specLine e.1 e.2.bits := by
  have hcomp := congrFun (congrFun (List.eq_map_comp_perm fun e : Byte × Code => specLine e.1 e.2.bits) lines)
    (validEntries t)
  obtain ⟨es, hlines, hperm⟩ := hcomp.mpr h
  exact ⟨es, hperm, hlines⟩

/-- The entries of a table of R43, in any order, are in no conflict. -/
theorem compatible_of_prefixFree {t : CodeTable} (hfree : PrefixFree t) {es : List (Byte × Code)}
    (h : es.Perm (validEntries t)) : (es.map fun e => (0, e)).Pairwise Compatible := by
  have hsymm {a b : Nat × Byte × Code} (hab : Compatible a b) : Compatible b a := ⟨hab.1.symm, hab.2.symm⟩
  refine ((h.map fun e => (0, e)).pairwise_iff hsymm).mpr (List.pairwise_map.mpr ?_)
  refine ((validEntries_ascending t).and hfree).imp fun {a b} ⟨hlt, hab, hba⟩ => ⟨fun heq => ?_, ?_, ?_⟩
  · exact absurd hlt (by rw [show a.1 = b.1 from heq]; exact Nat.lt_irrefl _)
  · exact fun hp => Bool.false_ne_true (hab.symm.trans (List.isPrefixOf_iff_prefix.mpr hp))
  · exact fun hp => Bool.false_ne_true (hba.symm.trans (List.isPrefixOf_iff_prefix.mpr hp))

/-- Of the segments of a serialized table only the one after the last newline is empty (R163). -/
theorem filter_lines_ne_nil (es : List (Byte × Code)) :
    ((es.map fun e : Byte × Code => specLine e.1 e.2.bits) ++ [[]]).filter (fun m => decide (m ≠ [])) =
      (es.map fun e => (0, e)).map entryLine := by
  have hall : ∀ m ∈ es.map fun e => specLine e.1 e.2.bits, decide (m ≠ []) = true := by
    intro m hm
    obtain ⟨e, _, rfl⟩ := List.mem_map.mp hm
    exact decide_eq_true (specLineZeros_ne_nil 0 e.1 e.2.bits)
  rw [List.filter_append, List.filter_eq_self.mpr hall, List.map_map]
  exact List.append_nil _

/-- Settles O49: TABSER's lines are those of the table's entries, and TABPARSE loads exactly these. -/
theorem tableSerializationRoundTrip : Obligations.TableSerializationRoundTrip := by
  rintro s t u ⟨hfree, hnsym⟩ htabser htabparse
  obtain ⟨_, hall⟩ := tabserWritesSortedLines
  obtain ⟨t', lines, ht', hframe, hperm, _, _, hlen, htext, _⟩ := hall s
  obtain rfl := Host.Outcome.next.inj (ht'.symm.trans htabser)
  obtain ⟨es, hes, rfl⟩ := exists_entries_of_perm hperm
  obtain ⟨u', hu', hframe', hcount, hentries⟩ := tabparseLoadsTheEntries t' _ _ [] hlen
    (compatible_of_prefixFree hfree hes) (filter_lines_ne_nil es) (htext.trans (List.append_nil _).symm)
  obtain rfl := Host.Outcome.next.inj (hu'.symm.trans htabparse)
  have hct : u'.ct = s.ct := codeTable_ext fun x c => by
    rw [hentries, ← mem_validEntries s.ct, ← hes.mem_iff]
    simp
  have hns : u'.nsym = s.nsym := BitVec.eq_of_toNat_eq (by rw [hcount, hnsym, List.length_map, hes.length_eq])
  refine ⟨?_, hct, hns⟩
  rw [hframe', hct, hns, hframe]

end Sys2Proof.Machine
end

section
/-! BITS2TXT and TXT2BITS (R180, R181) and the one after the other (R182): O50 to O52. -/

namespace Sys2Proof.Machine

open Sys2Proof

/-! Characters of a rendered payload (R180, R181). -/

theorem not_nonBinary_charOfBit (b : Bool) : ¬ nonBinary (charOfBit b) := by
  simp [← isBitChar_eq_false_iff]

/-- A '0' or '1' is the character of the bit it spells. -/
theorem charOfBit_bitOfChar {c : Byte} (h : ¬ nonBinary c) : charOfBit (bitOfChar c) = c := by
  obtain ⟨u, hu⟩ := exists_bits_of_binary (B := [c]) (by simpa using h)
  obtain ⟨b, _, rfl⟩ := List.map_eq_singleton_iff.mp hu.symm
  rw [bitOfChar_charOfBit]

/-! BITS2TXT (R180). -/

/-- What BITS2TXT commits: the payload's characters from RBUF byte 0 on, and their number (R180). -/
def State.putRendering (s : State) : State :=
  { s.writeBytes .rbuf 0 (s.payloadBits.map charOfBit) with rtxtLen := s.payLen }

@[simp] theorem payloadBits_length (s : State) : s.payloadBits.length = s.payLen.toNat := by simp [State.payloadBits]

theorem byteAt_putRendering_inside (s : State) {k : Nat} (h : k < s.payLen.toNat) :
    s.putRendering.byteAt .rbuf k = charOfBit (s.pBit k) := by
  have hwritten : s.putRendering.byteAt .rbuf (0 + k) = _ :=
    byteAt_writeBytes_inside s .rbuf 0 k (s.payloadBits.map charOfBit) (by simpa using h)
  simpa [State.payloadBits] using hwritten

theorem byteAt_putRendering_past (s : State) {k : Nat} (h : s.payLen.toNat ≤ k) :
    s.putRendering.byteAt .rbuf k = s.byteAt .rbuf k :=
  byteAt_writeBytes_outside s .rbuf .rbuf 0 k (s.payloadBits.map charOfBit) (.inr (.inr (by simpa using h)))

section
variable {s : State}

theorem exec_bits2txt_of_lengthRange (h : s.cfg.pbufBits < s.payLen.toNat) :
    exec .bits2txt s = .next (s.failed 6#8 2#8 0) := by
  rw [exec_bits2txt, runBits2txt, if_pos h]
  rfl

theorem exec_bits2txt_of_overflow (hlen : s.payLen.toNat ≤ s.cfg.pbufBits) (h : s.cfg.rbufSize < s.payLen.toNat) :
    exec .bits2txt s = .next (s.failed 7#8 3#8 0) := by
  rw [exec_bits2txt, runBits2txt, if_neg (Nat.not_lt.mpr hlen), if_pos h]
  rfl

theorem exec_bits2txt_of_fits (hlen : s.payLen.toNat ≤ s.cfg.pbufBits) (hfit : s.payLen.toNat ≤ s.cfg.rbufSize) :
    exec .bits2txt s = .next s.putRendering.completeOk := by
  rw [exec_bits2txt, runBits2txt, if_neg (Nat.not_lt.mpr hlen), if_neg (Nat.not_lt.mpr hfit)]
  rfl

end

/-- Settles O50: the three ranges of PAY_LEN, and the bytes of the committed rendering. -/
theorem bits2txtRendersTheBits : Obligations.Bits2txtRendersTheBits := by
  refine ⟨decode_encode .bits2txt, fun s =>
    ⟨exec_bits2txt_of_lengthRange, exec_bits2txt_of_overflow, fun hlen hfit => ?_⟩⟩
  exact ⟨_, exec_bits2txt_of_fits hlen hfit, rfl, fun k hk => byteAt_putRendering_inside s hk,
    fun k hk => byteAt_putRendering_past s hk⟩

/-! TXT2BITS (R181). -/

/-- The checking loop's offset by the library's search. -/
theorem firstNonBit_eq_findIdx? (i : Nat) (cs : List Byte) :
    firstNonBit i cs = (cs.findIdx? fun c => !isBitChar c).map (i + ·) := by
  induction cs generalizing i with
  | nil => rfl
  | cons c cs ih =>
    rw [firstNonBit, List.findIdx?_cons]
    cases isBitChar c with
    | true => simp [ih, Function.comp_def, Nat.add_comm, Nat.add_left_comm]
    | false => rfl

@[simp] theorem renderedText_length (s : State) : s.renderedText.length = s.rtxtLen.toNat := bytesAt_length s .rbuf 0 _

theorem renderedText_getElem (s : State) (k : Nat) (h : k < s.renderedText.length) :
    s.renderedText[k] = s.byteAt .rbuf k :=
  (bytesAt_getElem s .rbuf 0 _ k h).trans (by rw [Nat.zero_add])

theorem mem_renderedText {s : State} {c : Byte} :
    c ∈ s.renderedText ↔ ∃ k < s.rtxtLen.toNat, s.byteAt .rbuf k = c := by
  simp [State.renderedText, State.bytesAt]

/-- What TXT2BITS commits: the bits the text spells (R181). -/
def State.putParsed (s : State) : State := s.putPayload (s.renderedText.map bitOfChar)

theorem putParsed_frame (s : State) : s.putParsed = { s with pbuf := s.putParsed.pbuf, payLen := s.rtxtLen } := by
  have hlen : lenWord (s.renderedText.map bitOfChar).length = s.rtxtLen := by simp [lenWord]
  rw [State.putParsed, State.putPayload, hlen]
  rfl

/-- Each text byte is one payload bit. -/
theorem pBit_putParsed_inside (s : State) {k : Nat} (h : k < s.rtxtLen.toNat) :
    s.putParsed.pBit k = bitOfChar (s.byteAt .rbuf k) := by
  rw [State.putParsed, pBit_putPayload s _ k (by simp; omega), bitAt, List.getD_eq_getElem _ _ (by simpa using h),
    List.getElem_map, renderedText_getElem]

theorem pBit_putParsed_pad (s : State) {k : Nat} (hpad : s.rtxtLen.toNat ≤ k)
    (h : k < 8 * ((s.rtxtLen.toNat + 7) / 8)) : s.putParsed.pBit k = false := by
  rw [State.putParsed, pBit_putPayload s _ k (by simp; omega), bitAt, List.getD_eq_default _ _ (by simpa using hpad)]

theorem byteAt_putParsed_past (s : State) {k : Nat} (h : (s.rtxtLen.toNat + 7) / 8 ≤ k) :
    s.putParsed.byteAt .pbuf k = s.byteAt .pbuf k :=
  byteAt_putPayload_past s _ k (by simpa using h)

section
variable {s : State}

theorem exec_txt2bits_of_lengthRange (h : s.cfg.rbufSize < s.rtxtLen.toNat) :
    exec .txt2bits s = .next (s.failed 6#8 4#8 0) := by
  rw [exec_txt2bits, runTxt2bits, if_pos h]
  rfl

theorem exec_txt2bits_of_overflow (hlen : s.rtxtLen.toNat ≤ s.cfg.rbufSize) (h : s.cfg.pbufBits < s.rtxtLen.toNat) :
    exec .txt2bits s = .next (s.failed 7#8 1#8 0) := by
  rw [exec_txt2bits, runTxt2bits, if_neg (Nat.not_lt.mpr hlen), if_pos h]
  rfl

variable (hlen : s.rtxtLen.toNat ≤ s.cfg.rbufSize) (hfit : s.rtxtLen.toNat ≤ s.cfg.pbufBits)
include hlen hfit

theorem exec_txt2bits_of_binary (h : ∀ k, k < s.rtxtLen.toNat → ¬ nonBinary (s.byteAt .rbuf k)) :
    exec .txt2bits s = .next s.putParsed.completeOk := by
  have hnone : firstNonBit 0 s.renderedText = none := by
    rw [firstNonBit_eq_findIdx?, Option.map_eq_none_iff, List.findIdx?_eq_none_iff]
    intro c hc
    obtain ⟨k, hk, rfl⟩ := mem_renderedText.mp hc
    simpa [← isBitChar_eq_false_iff] using h k hk
  rw [exec_txt2bits, runTxt2bits, if_neg (Nat.not_lt.mpr hlen), if_neg (Nat.not_lt.mpr hfit), hnone]
  rfl

theorem exec_txt2bits_of_nonBinary {i : Nat} (hi : i < s.rtxtLen.toNat) (hbad : nonBinary (s.byteAt .rbuf i))
    (hgood : ∀ k, k < i → ¬ nonBinary (s.byteAt .rbuf k)) :
    exec .txt2bits s = .next (s.failed 2#8 0#8 i) := by
  have hfirst : firstNonBit 0 s.renderedText = some i := by
    rw [firstNonBit_eq_findIdx?, Option.map_eq_some_iff]
    refine ⟨i, List.findIdx?_eq_some_iff_getElem.mpr ⟨by simpa using hi, ?_, fun k hk => ?_⟩, Nat.zero_add i⟩
    · simpa [renderedText_getElem, isBitChar_eq_false_iff] using hbad
    · simpa [renderedText_getElem, ← isBitChar_eq_false_iff] using hgood k hk
  rw [exec_txt2bits, runTxt2bits, if_neg (Nat.not_lt.mpr hlen), if_neg (Nat.not_lt.mpr hfit), hfirst]
  rfl

end

/-- Settles O51: the two ranges of RTXT_LEN, and within both the outcomes of the search for a byte that is no bit. -/
theorem txt2bitsParsesTheText : Obligations.Txt2bitsParsesTheText := by
  refine ⟨decode_encode .txt2bits, fun s =>
    ⟨exec_txt2bits_of_lengthRange, exec_txt2bits_of_overflow, fun hlen hfit =>
      ⟨fun hbinary => ?_, fun _ => exec_txt2bits_of_nonBinary hlen hfit⟩⟩⟩
  exact ⟨_, exec_txt2bits_of_binary hlen hfit hbinary, congrArg State.completeOk (putParsed_frame s),
    fun k hk => pBit_putParsed_inside s hk, fun k hpad hk => pBit_putParsed_pad s hpad hk,
    fun k hk => byteAt_putParsed_past s hk⟩

/-! One after the other (R182). -/

/-- Settles O52: the rendering is a text of '0' and '1', and either command reads what the other wrote. -/
theorem bitTextRoundTrip : Obligations.BitTextRoundTrip := by
  obtain ⟨_, hrender⟩ := bits2txtRendersTheBits
  obtain ⟨_, hparse⟩ := txt2bitsParsesTheText
  constructor
  · intro s t u hlen hfit hst htu
    obtain ⟨_, _, hok⟩ := hrender s
    obtain ⟨t', ht', hframe, hbytes, _⟩ := hok hlen hfit
    obtain rfl := Host.Outcome.next.inj (ht'.symm.trans hst)
    have hcfg : t'.cfg = s.cfg := by rw [hframe]
    have hrtxt : t'.rtxtLen = s.payLen := by rw [hframe]
    obtain ⟨_, _, hok'⟩ := hparse t'
    rw [hcfg, hrtxt] at hok'
    obtain ⟨hok', _⟩ := hok' hfit hlen
    obtain ⟨u', hu', hframe', hbits, hpad, _⟩ := hok' fun k hk => by
      rw [hbytes k hk]
      exact not_nonBinary_charOfBit (s.pBit k)
    obtain rfl := Host.Outcome.next.inj (hu'.symm.trans htu)
    refine ⟨by rw [hframe'], fun k hk => ?_, hpad⟩
    rw [hbits k hk, hbytes k hk]
    exact bitOfChar_charOfBit (s.pBit k)
  · intro s t u hlen hfit hbinary hst htu
    obtain ⟨_, _, hok⟩ := hparse s
    obtain ⟨hok, _⟩ := hok hlen hfit
    obtain ⟨t', ht', hframe, hbits, _⟩ := hok hbinary
    obtain rfl := Host.Outcome.next.inj (ht'.symm.trans hst)
    have hcfg : t'.cfg = s.cfg := by rw [hframe]
    have hpay : t'.payLen = s.rtxtLen := by rw [hframe]
    obtain ⟨_, _, hok'⟩ := hrender t'
    rw [hcfg, hpay] at hok'
    obtain ⟨u', hu', hframe', hbytes, _⟩ := hok' hfit hlen
    obtain rfl := Host.Outcome.next.inj (hu'.symm.trans htu)
    refine ⟨by rw [hframe'], fun k hk => ?_⟩
    rw [hbytes k hk, hbits k hk]
    exact charOfBit_bitOfChar (hbinary k hk)

end Sys2Proof.Machine
end

section
/-! Completion without and with error, and the degenerate cases (60_exceptions.md R200 to R211): O4, O7, O9, O26, O28, O29, O53. -/

namespace Sys2Proof.Machine

open Sys2Proof

/-! Acceptance and the engine's move (R203, R204, R208). -/

/-- The engine moves once the command's host steps are used up, or when the host has nothing to do (R247; log 5). -/
theorem step_of_engine_turn {s : State} {w : Word} {wait : Nat} (hs : s.seq = .busy w wait)
    (hturn : wait = 0 ∨ s.host = []) : step s = complete w s := by
  rcases wait with _ | wait
  · simp only [step, hs]
  · have hhost : s.host = [] := hturn.resolve_left (Nat.succ_ne_zero wait)
    simp only [step, hs, hhost]

theorem complete_of_command {w : Word} {i : Instr} (hw : decode w = .command i) (s : State) : complete w s = exec i s := by
  simp only [complete, hw]

/-- The state with a command's own word to fetch is the one its acceptance leaves, with no host step to wait for (log 6). -/
theorem withFetchWord_eq_latch (s : State) (w : Word) : s.withFetchWord 32 w.toNat = s.latch w 0 := by
  rw [State.withFetchWord, Nat.mod_eq_of_lt w.isLt, BitVec.ofNat_toNat, BitVec.setWidth_eq]

/-- Settles O4: when the engine moves it completes the word, and a command's word completes as the command. -/
theorem stepRunsDecodedCommand : Obligations.StepRunsDecodedCommand := by
  refine ⟨fun s w wait i hs hturn hw => ?_, fun s i => ?_⟩
  · rw [step_of_engine_turn hs hturn, complete_of_command hw]
  · rw [withFetchWord_eq_latch, step_of_engine_turn (latch_seq s (encode i) 0) (.inl rfl),
      complete_of_command (decode_encode i)]

/-- An accepted command word is in progress (R203). -/
theorem accept_command {s : State} {w : Word} {i : Instr} (h : decode w = .command i) :
    s.accept w =
      { s with seq := .busy w (s.latencies.headD 0), latencies := s.latencies.tail, done := false, err := false, ovr := false,
               lastOp := BitVec.ofNat 8 w.toNat, errCode := { cause := 0#8, sub := 0#8 }, errPos := 0#32 } := by
  simp only [State.accept, h, State.latch, lowByte_eq]

/-- Settles O7: while IDLE the CMD write is the acceptance. -/
theorem acceptanceLatchesTheCommand : Obligations.AcceptanceLatchesTheCommand := by
  intro s w i hidle hw
  have hfree : s.seq.isBusy = false := by rw [hidle]; rfl
  rw [hostWrite_cmd, requestCommand_idle w hfree, accept_command hw]
  rfl

/-- Settles O9: the write is a dropped request; of the transitions that change a flag only an acceptance and a reset
clear OVR. -/
theorem busyCmdWriteIsDropped : Obligations.BusyCmdWriteIsDropped := by
  refine ⟨fun s w hbusy => ?_, fun s t hstep hset hclear => ?_⟩
  · rw [hostWrite_cmd, requestCommand_busy w hbusy]
    rfl
  · have hne : t.ovr ≠ s.ovr := by rw [hset, hclear]; decide
    rcases flagsChangeOnlyByTransitions s t hstep with
      ⟨_, _, _, hovr⟩ | ⟨v, rest, hidle, hhost, _⟩ | ⟨_, _, _, _, _, hovr⟩ | ⟨_, _, _, _, _, _, _, hovr⟩ | ⟨during, rest, hhost, _⟩
    · exact absurd hovr hne
    · exact .inl ⟨v, rest, hidle, hhost⟩
    · exact absurd hovr hne
    · rw [hovr] at hclear
      cases hclear
    · exact .inr ⟨during, rest, hhost⟩

/-! Completion without and with error (R204 to R206). -/

/-- What a command commits leaves ERR, ERRCODE and ERRPOS (R204). -/
theorem commits_errorStatus {i : Instr} {s c : State} (h : Commits i s c) :
    c.err = s.err ∧ c.errCode = s.errCode ∧ c.errPos = s.errPos := by
  cases i with
  | count => obtain ⟨_, rfl⟩ := commits_count h; exact ⟨rfl, rfl, rfl⟩
  | build => obtain rfl := commits_build h; exact ⟨rfl, rfl, rfl⟩
  | codegen => obtain ⟨table, m, _, rfl⟩ := h; exact ⟨rfl, rfl, rfl⟩
  | encode => obtain ⟨u, _, rfl⟩ := commits_encode h; exact ⟨rfl, rfl, rfl⟩
  | decode => obtain ⟨xs, _, rfl⟩ := commits_decode h; exact ⟨rfl, rfl, rfl⟩
  | tabser => obtain rfl := commits_tabser h; exact ⟨rfl, rfl, rfl⟩
  | tabparse => obtain ⟨table, _, rfl⟩ := commits_tabparse h; exact ⟨rfl, rfl, rfl⟩
  | bits2txt => obtain ⟨_, rfl⟩ := commits_bits2txt h; exact ⟨rfl, rfl, rfl⟩
  | txt2bits => obtain ⟨_, rfl⟩ := commits_txt2bits h; exact ⟨rfl, rfl, rfl⟩

/-- Every command answers a next state where NODE and ROOT are a tree, which CODEGEN alone needs (R41, R124; log 10). -/
theorem exists_exec_next {s : State} (htree : TreeInv s) (i : Instr) : ∃ t, exec i s = .next t := by
  cases i with
  | codegen =>
    obtain ⟨_, hcodegen⟩ := codegenAssignsPaths
    obtain ⟨t, ht, _⟩ := hcodegen s htree
    exact ⟨t, ht⟩
  | count => exact ⟨_, exec_count s⟩
  | build => exact ⟨_, exec_build s⟩
  | encode => exact ⟨_, exec_encode s⟩
  | decode => exact ⟨_, exec_decode s⟩
  | tabser => exact ⟨_, exec_tabser s⟩
  | tabparse => exact ⟨_, exec_tabparse s⟩
  | bits2txt => exact ⟨_, exec_bits2txt s⟩
  | txt2bits => exact ⟨_, exec_txt2bits s⟩

/-- Settles O26: the command answers, and its answer is a commit or an error of R202. -/
theorem everyCommandCompletes : Obligations.EveryCommandCompletes := by
  intro s i hinv
  obtain ⟨t, ht⟩ := exists_exec_next hinv.tree i
  refine ⟨t, ht, ?_⟩
  rcases exec_cases ht with ⟨r, rfl⟩ | ⟨c, hc, rfl⟩
  · exact ⟨rfl, rfl, .inr ⟨rfl, errCodeOf_legal r.error⟩⟩
  · obtain ⟨herr, hcode, hpos⟩ := commits_errorStatus hc
    refine ⟨rfl, rfl, .inl ?_⟩
    rw [← herr, ← hcode, ← hpos]
    rfl

/-- R206 with its causes: the errors that leave a destination buffer UNSPECIFIED, and all others. -/
theorem spoil_cases_cause (s : State) (i : Instr) (e : CmdError) :
    s.spoil i e = s ∨
    (i = .encode ∧ (causeOf e = 4#8 ∨ causeOf e = 7#8) ∧ s.spoil i e = s.unspecify .pbuf) ∨
    (i = .decode ∧ (causeOf e = 3#8 ∨ causeOf e = 7#8) ∧ s.spoil i e = s.unspecify .obuf) := by
  unfold State.spoil
  split
  · exact .inr (.inl ⟨rfl, .inl rfl, rfl⟩)
  · exact .inr (.inl ⟨rfl, .inr rfl, rfl⟩)
  · exact .inr (.inr ⟨rfl, .inl rfl, rfl⟩)
  · exact .inr (.inr ⟨rfl, .inr rfl, rfl⟩)
  · exact .inl rfl

/-- Settles O28: a completion that turns ERR on is an error's, and R206 says which buffer it may have changed. -/
theorem errorsArePrecise : Obligations.ErrorsArePrecise := by
  intro i s t h hclear hset
  rcases exec_cases h with ⟨⟨e, pos⟩, rfl⟩ | ⟨c, hc, rfl⟩
  · have hlegal := errCodeOf_legal e
    rcases spoil_cases_cause s i e with hs | ⟨hi, hcause, hs⟩ | ⟨hi, hcause, hs⟩ <;> rw [State.completeError, hs]
    · exact ⟨rfl, rfl, rfl, hlegal, .inl rfl, .inl rfl⟩
    · exact ⟨rfl, rfl, rfl, hlegal, .inr ⟨hi, hcause⟩, .inl rfl⟩
    · exact ⟨rfl, rfl, rfl, hlegal, .inl rfl, .inr ⟨hi, hcause⟩⟩
  · obtain ⟨herr, _⟩ := commits_errorStatus hc
    rw [completeOk_err, herr, hclear] at hset
    cases hset

/-! LENGTH_RANGE (R201, R202, R207): each command that reads a length tests it before anything else. -/

section
variable {s : State}

theorem exec_encode_of_lengthRange (h : s.cfg.ibufSize < s.inLen.toNat) : exec .encode s = .next (s.failed 6#8 1#8 0) := by
  rw [exec_encode, runEncode, if_pos h]
  rfl

theorem exec_decode_of_lengthRange (h : s.cfg.pbufBits < s.payLen.toNat) : exec .decode s = .next (s.failed 6#8 2#8 0) := by
  rw [exec_decode, runDecode, if_pos h]
  rfl

theorem exec_tabparse_of_lengthRange (h : Config.tbufSize < s.txtLen.toNat) :
    exec .tabparse s = .next (s.failed 6#8 3#8 0) := by
  rw [exec_tabparse, runTabparse, if_pos h]
  rfl

end

/-- Settles O29, command by command. -/
theorem lengthBeyondBufferIsReported : Obligations.LengthBeyondBufferIsReported := fun _ =>
  ⟨fun h => ⟨exec_count_of_lt h, exec_encode_of_lengthRange h⟩,
    fun h => ⟨exec_decode_of_lengthRange h, exec_bits2txt_of_lengthRange h⟩,
    exec_tabparse_of_lengthRange, exec_txt2bits_of_lengthRange⟩

/-! The degenerate empty cases (R211). -/

/-- Writing no bytes changes nothing (R11). -/
@[simp] theorem writeBytes_nil (s : State) (b : BufId) (off : Nat) : s.writeBytes b off [] = s := setBuf_buf_same s b

/-- The empty payload has no byte to write (R140). -/
theorem putPayload_nil (s : State) : s.putPayload [] = { s with payLen := 0#32 } := by
  have hbytes : packBits [] = [] := rfl
  rw [State.putPayload, hbytes, writeBytes_nil]
  rfl

section
variable {s : State}

theorem inputBytes_of_zero (h : s.inLen = 0#32) : s.inputBytes = [] := by
  simp [State.inputBytes, State.bytesAt, h]

theorem payloadBits_of_zero (h : s.payLen = 0#32) : s.payloadBits = [] := by
  simp [State.payloadBits, h]

theorem exec_count_of_empty (h : s.inLen = 0#32) :
    exec .count s = .next { s with freq := Vector.replicate 256 0#32, seq := .idle, done := true } := by
  rw [exec_count_of_commits (commits_count_of_le (by simp [h])), inputBytes_of_zero h]
  simp [tabulate, State.completeOk]

theorem exec_encode_of_empty (h : s.inLen = 0#32) :
    exec .encode s = .next { s with payLen := 0#32, seq := .idle, done := true } := by
  have hloop : encodeFrom s.ct s.cfg.pbufBits 0 0 s.inputBytes = .ok [] := by rw [inputBytes_of_zero h, encodeFrom]
  rw [exec_encode_of_ok (by simp [h]) hloop, putPayload_nil]
  rfl

theorem exec_decode_of_empty (h : s.payLen = 0#32) :
    exec .decode s = .next { s with outLen := 0#32, seq := .idle, done := true } := by
  have hwalk : decodeFrom s.ct s.cfg.obufSize 0 0 [] 0 s.payloadBits = .ok [] := by
    rw [payloadBits_of_zero h, decodeFrom, if_pos rfl]
  rw [exec_decode_of_ok (by simp [h]) hwalk, State.putOutput, writeBytes_nil]
  rfl

theorem exec_tabser_of_empty (h : validEntries s.ct = []) :
    exec .tabser s = .next { s with txtLen := 0#32, seq := .idle, done := true } := by
  have htext : tableTextOf s.ct = [] := by rw [tableTextOf, h]; rfl
  rw [exec_tabser_eq, State.putTableText, htext, writeBytes_nil]
  rfl

/-- No symbol occurs when every count is 0 (R120). -/
theorem occurring_of_zero (h : ∀ x, s.freqAt x = 0) : occurring s.freq = [] := by
  rw [occurring_eq]
  simp [h]

/-- An arena with NODE[0] only is empty (R40). -/
theorem arenaOf_none : arenaOf [Node.none] = Vector.replicate 512 Node.none := by
  refine Vector.ext fun k hk => ?_
  have hget := nodeNo_arenaOf [Node.none] hk
  cases k <;> simpa [nodeNo, hk] using hget

theorem exec_build_of_empty (h : ∀ x, s.freqAt x = 0) :
    exec .build s = .next { s with node := Vector.replicate 512 Node.none, root := 0#9, nnode := 0#10,
                                   seq := .idle, done := true } := by
  have hleaves := occurring_of_zero h
  have hmerges := builtMerges_nil hleaves
  rw [exec_build_eq, builtNodes, hmerges, hleaves]
  simp [arenaOf_none]

/-- A text of newlines has no line (R163). -/
theorem tableLines_of_newlines {text : List Byte} (h : ∀ b ∈ text, b = newlineChar) : tableLines text = [] := by
  have htext : text = (List.replicate text.length []).flatMap (fun m => m ++ [newlineChar]) ++ [] := by
    simpa [List.flatMap_replicate] using List.eq_replicate_of_mem h
  have hnone : (tableLines text).map Segment.text = [] := by
    rw [htext, tableLines_map_text (by simp) (by simp)]
    simp
  exact List.map_eq_nil_iff.mp hnone

theorem exec_tabparse_of_empty (hlen : s.txtLen.toNat ≤ Config.tbufSize) (h : ∀ b ∈ s.tableText, b = newlineChar) :
    exec .tabparse s = .next { s with ct := emptyTable, nsym := 0#9, seq := .idle, done := true } := by
  have hlines := tableLines_of_newlines h
  have hparse : parseLines emptyTable (tableLines s.tableText) = .ok emptyTable := by rw [hlines, parseLines]
  rw [exec_tabparse_of_ok hlen hparse, hlines]
  rfl

theorem exec_codegen_of_empty (h : s.root = 0#9) :
    exec .codegen s = .next { s with ct := emptyTable, nsym := 0#9, seq := .idle, done := true } :=
  exec_codegen_of_derive (m := 0) (if_pos h)

end

/-- Settles O53, command by command. -/
theorem emptyInputRaisesNothing : Obligations.EmptyInputRaisesNothing := fun _ =>
  ⟨fun h => ⟨exec_count_of_empty h, exec_encode_of_empty h⟩, exec_build_of_empty, exec_codegen_of_empty,
    exec_tabser_of_empty, exec_tabparse_of_empty, exec_decode_of_empty⟩

end Sys2Proof.Machine
end

section
/-! Reset and hazards (70_reset_and_hazards.md R240 to R251): O6, O10, O22, O23, O58, O60. What reads, writes and resets do while
a command runs, what can stop the machine, and the end of a program. -/

namespace Sys2Proof.Machine

open Sys2Proof

theorem isBusy_eq_false_iff (q : Seq) : q.isBusy = false ↔ q = .idle := by
  cases q <;> simp [Seq.isBusy]

/-! Reset (R48, R240, R241). -/

/-- A reset, with or without an access during it, takes at least one draw: the buffers' (log 3). -/
theorem lt_draws_resetTurn (s : State) (during : Option Access) : s.draws < (s.resetTurn during).draws := by
  have hblock : s.draws < s.resetBlock.draws := Nat.lt_succ_self s.draws
  rcases during with _ | _ | _
  · exact hblock
  · exact Nat.lt_succ_of_lt hblock
  · exact hblock

/-- Settles O23: the turn of a reset is R240's state, which holds every reset value of R48. -/
theorem resetSetsEverything : Obligations.ResetSetsEverything := by
  intro s during
  refine ⟨s.resetTurn during, rfl, ?_, lt_draws_resetTurn s during, ?_⟩
  · rw [resetTurn_frame]
    rfl
  · rw [resetTurn_frame]
    exact ⟨fun x => by simp [State.freqAt], fun i => by simp [nodeAt], fun x => by simp [entryAt]⟩

/-! Reads while BUSY (R249). -/

/-- A read changes the reply and the counter of free values only (R72, R249). -/
theorem hostRead_frame (s : State) (bits : Nat) (a : Word) :
    s.hostRead bits a = { s with reply := (s.hostRead bits a).reply, draws := (s.hostRead bits a).draws } := by
  unfold State.hostRead
  split
  · rfl
  · split <;> rfl

/-- ERRCODE reads 0 when no error is recorded (R27). -/
theorem errCodeWord_of_zero {s : State} (h : s.errCode = { cause := 0#8, sub := 0#8 }) : s.errCodeWord = 0#32 := by
  rw [State.errCodeWord, h]
  rfl

/-- Settles O22: the registers of R249 are read as while IDLE, and acceptance left ERRCODE and ERRPOS 0 (R26). -/
theorem readsWhileBusy : Obligations.ReadsWhileBusy := by
  rintro s hbusy ⟨hrunning, -, hclear⟩
  obtain ⟨-, herr⟩ := hrunning hbusy
  obtain ⟨hcode, hpos⟩ := hclear herr
  obtain ⟨hid, hcaps⟩ := hostRead_constants s
  have hread (a : Word) (r : CsrName) (hlt : a.toNat < 0x1000) (hal : a.toNat % 4 = 0) (hr : csrAt a.toNat = some r)
      (hfree : readableWhileBusy .csr a.toNat = true) := hostRead_register s a r hlt hal hr (.inr hfree)
  have herrcode := hread 0x0C#32 .ERRCODE (by decide) (by decide) (by decide) (by decide)
  have herrpos := hread 0x10#32 .ERRPOS (by decide) (by decide) (by decide) (by decide)
  rw [State.csrRead, errCodeWord_of_zero hcode] at herrcode
  rw [State.csrRead, hpos] at herrpos
  obtain ⟨hibuf, hobuf, hpbuf, hrbuf, htbuf⟩ := hcaps
  exact ⟨hid, hread 0x08#32 .STATUS (by decide) (by decide) (by decide) (by decide), (statusWord_busy s).trans hbusy,
    herrcode, herrpos, hibuf, hobuf, hpbuf, hrbuf, htbuf, hostRead_frame s⟩

/-! Writes while BUSY (R245). -/

/-- An access that has a location meets no condition of the bus error (R65). -/
theorem not_busErrorCondition_of_resolve {cfg : Config} {bits : Nat} {a : Word} {loc : Region × Nat}
    (h : resolve cfg bits a = some loc) : ¬ busErrorCondition cfg bits a := by
  rw [← resolve_none_iff, h]
  exact nofun

/-- Of the accesses that have a location, those to CMD are the ones to address 4 (R23, R60). -/
theorem cmd_location_iff {cfg : Config} {bits : Nat} {a : Word} {r : Region} {off : Nat}
    (h : resolve cfg bits a = some (r, off)) : (r = .csr ∧ off = 4) ↔ a = 4#32 := by
  constructor
  · rintro ⟨rfl, rfl⟩
    exact (resolve_cmd h).2
  · rintro rfl
    obtain rfl : bits = 32 := by
      by_contra hbits
      exact not_busErrorCondition_of_resolve h (.inr (.inl ⟨hbits, by decide⟩))
    rw [resolve_csr cfg 4#32 (by decide) (by decide)] at h
    cases h
    exact ⟨rfl, rfl⟩

/-- A host write answers a next state, or it is R245's fault: no bus error, an address other than CMD, a command running. -/
theorem hostWrite_next_or_fault (s : State) (bits : Nat) (a v : Word) :
    ((∃ t, s.hostWrite bits a v = .next t) ∧ (busErrorCondition s.cfg bits a ∨ a = 4#32 ∨ s.seq.isBusy = false)) ∨
    (s.hostWrite bits a v = .fault .hostWriteWhileBusy ∧
      ¬ busErrorCondition s.cfg bits a ∧ a ≠ 4#32 ∧ s.seq.isBusy = true) := by
  rcases hostWrite_cases s bits a v with
    ⟨hnone, hw⟩ | ⟨r, off, hres, ⟨hr, hoff, hw⟩ | ⟨hcmd, hbusy, hw⟩ | ⟨_, hidle, hw⟩⟩
  · exact .inl ⟨⟨_, hw⟩, .inl ((resolve_none_iff _ _ _).mp hnone)⟩
  · exact .inl ⟨⟨_, hw⟩, .inr (.inl ((cmd_location_iff hres).mp ⟨hr, hoff⟩))⟩
  · exact .inr ⟨hw, not_busErrorCondition_of_resolve hres, (cmd_location_iff hres).not.mp hcmd, hbusy⟩
  · exact .inl ⟨⟨_, hw⟩, .inr (.inr hidle)⟩

/-- Settles O10, by the two outcomes of a host write. -/
theorem busyWriteIsAFault : Obligations.BusyWriteIsAFault := by
  intro s bits a v hmapped
  rcases hostWrite_next_or_fault s bits a v with ⟨hnext, hwhy⟩ | ⟨hfault, _, ha, hbusy⟩
  · refine ⟨fun hbusy ha => ?_, fun _ => hnext⟩
    rcases hwhy with herr | hcmd | hidle
    · exact absurd herr hmapped
    · exact absurd hcmd ha
    · exact absurd (hidle.symm.trans hbusy) Bool.false_ne_true
  · refine ⟨fun _ _ => hfault, fun hor => ?_⟩
    rcases hor with hcmd | hidle
    · exact absurd hcmd ha
    · exact absurd (hidle.symm.trans hbusy) Bool.false_ne_true

/-! What can stop the machine (R245, R247). -/

/-- Whose turn a step is, whatever it answers: nobody's, the engine's, or the host's, which a command keeps waiting
through (R73, R247; log 5). -/
theorem step_turns (s : State) :
    step s = .next s ∨
    (∃ w wait, s.seq = .busy w wait ∧ (wait = 0 ∨ s.host = []) ∧ step s = complete w s) ∨
    (∃ op rest seq, s.host = op :: rest ∧ seq.isBusy = s.seq.isBusy ∧
      step s = State.hostTurn { s with host := rest, seq := seq } op) := by
  obtain ⟨hquiet, hturn⟩ := stepGivesTheHostItsTurn
  cases hs : s.seq with
  | idle =>
    cases hh : s.host with
    | nil => exact .inl (hquiet s hs hh)
    | cons op rest => exact .inr (.inr ⟨op, rest, .idle, rfl, rfl, by rw [(hturn s op rest hh).1 hs, ← hs]⟩)
  | busy w wait =>
    by_cases hengine : wait = 0 ∨ s.host = []
    · exact .inr (.inl ⟨w, wait, rfl, hengine, step_of_engine_turn hs hengine⟩)
    · obtain ⟨hwait, hhost⟩ := not_or.mp hengine
      obtain ⟨m, rfl⟩ := Nat.exists_eq_succ_of_ne_zero hwait
      obtain ⟨op, rest, hh⟩ := List.exists_cons_of_ne_nil hhost
      exact .inr (.inr ⟨op, rest, .busy w m, hh, rfl, (hturn s op rest hh).2 w m hs⟩)

/-- No command is refused: every arm of the dispatch has its meaning. -/
theorem exec_ne_refused (i : Instr) (s : State) (r : Refusal) : exec i s ≠ .refused r := by
  cases i with
  | codegen => rcases exec_codegen_cases s with ⟨_, _, _, he⟩ | ⟨_, he⟩ <;> rw [he] <;> exact nofun
  | count => exact nofun
  | build => exact nofun
  | encode => exact nofun
  | decode => exact nofun
  | tabser => exact nofun
  | tabparse => exact nofun
  | bits2txt => exact nofun
  | txt2bits => exact nofun

theorem complete_ne_refused (w : Word) (s : State) (r : Refusal) : complete w s ≠ .refused r := by
  cases hw : decode w with
  | command i =>
    rw [complete_of_command hw]
    exact exec_ne_refused i s r
  | illegal why =>
    simp only [complete, hw]
    exact nofun

/-- A host operation answers a next state, or it is the write R245 forbids. -/
theorem hostTurn_next_or_fault (s : State) (op : HostOp) :
    (∃ t, s.hostTurn op = .next t) ∨
    (s.hostTurn op = .fault .hostWriteWhileBusy ∧ s.seq.isBusy = true ∧
      ∃ bits a v, op = .access (.write bits a v) ∧ a ≠ 4#32 ∧ ¬ busErrorCondition s.cfg bits a) := by
  rcases op with (⟨bits, a⟩ | ⟨bits, a, v⟩) | stop | during
  case access.read => exact .inl ⟨_, rfl⟩
  case access.write =>
    rcases hostWrite_next_or_fault s bits a v with ⟨hnext, _⟩ | ⟨hfault, hmapped, ha, hbusy⟩
    · exact .inl hnext
    · exact .inr ⟨hfault, hbusy, bits, a, v, rfl, ha, hmapped⟩
  case poll => exact .inl ⟨_, rfl⟩
  case reset => exact .inl ⟨_, rfl⟩

/-- On a state that meets the invariant the word in progress is a command's (R93, R203). -/
theorem Inv.command {s : State} (h : Inv s) {w : Word} {wait : Nat} (hs : s.seq = .busy w wait) :
    ∃ i, decode w = .command i := by
  have hrunning := h.running
  rw [hs] at hrunning
  cases hw : decode w with
  | command i => exact ⟨i, rfl⟩
  | illegal why => simp [runsCommand, hw] at hrunning

/-- On a state that meets the invariant a completion answers an IDLE state with DONE = 1 (R204, R205). -/
theorem complete_next_of_inv {s : State} (h : Inv s) {w : Word} {wait : Nat} (hs : s.seq = .busy w wait) :
    ∃ t, complete w s = .next t ∧ t.seq = .idle ∧ t.done = true := by
  obtain ⟨i, hi⟩ := h.command hs
  obtain ⟨t, ht, hidle, hdone, _⟩ := everyCommandCompletes s i h
  exact ⟨t, (complete_of_command hi s).trans ht, hidle, hdone⟩

/-- Settles O58: neither the engine nor the host refuses, the engine completes, and the host's only fault is R245's. -/
theorem onlyTheBusyWriteStopsTheMachine : Obligations.OnlyTheBusyWriteStopsTheMachine := by
  refine ⟨fun s r hr => ?_, fun s f hinv hf => ?_⟩
  · rcases step_turns s with hstep | ⟨w, wait, _, _, hstep⟩ | ⟨op, rest, seq, _, _, hstep⟩ <;> rw [hstep] at hr
    · cases hr
    · exact complete_ne_refused w s r hr
    · rcases hostTurn_next_or_fault { s with host := rest, seq := seq } op with ⟨t, ht⟩ | ⟨ht, _⟩ <;>
        rw [ht] at hr <;> cases hr
  · rcases step_turns s with hstep | ⟨w, wait, hs, _, hstep⟩ | ⟨op, rest, seq, hh, hsame, hstep⟩ <;> rw [hstep] at hf
    · cases hf
    · obtain ⟨t, ht, _⟩ := complete_next_of_inv hinv hs
      rw [ht] at hf
      cases hf
    · rcases hostTurn_next_or_fault { s with host := rest, seq := seq } op with
        ⟨t, ht⟩ | ⟨ht, hbusy, bits, a, v, rfl, ha, hmapped⟩ <;> rw [ht] at hf <;> cases hf
      exact ⟨rfl, hsame ▸ hbusy, bits, a, v, rest, hh, ha, hmapped⟩

/-! The wait for a completion (R204, R205, R247). -/

/-- A run whose first step answers goes on from the answer. -/
theorem run_succ_of_step {s t : State} (h : step s = .next t) (k : Nat) :
    Host.Core.run core (k + 1) s = Host.Core.run core k t := by
  have hstep : core.step s = .next t := h
  simp only [Host.Core.run, hstep]

/-- A host operation R245 permits leaves the command in progress, and at most puts itself back at the head of what the host
has to do (a poll that read BUSY = 1, R97). -/
theorem hostTurn_of_keepsRunning {s : State} {op : HostOp} (hkeep : keepsRunning op = true) (hbusy : s.seq.isBusy = true) :
    ∃ t, s.hostTurn op = .next t ∧ t.seq = s.seq ∧ (t.host = s.host ∨ t.host = op :: s.host) := by
  rcases op with (⟨bits, a⟩ | ⟨bits, a, v⟩) | stop | during
  case access.read =>
    refine ⟨_, rfl, ?_⟩
    rw [hostRead_frame]
    exact ⟨rfl, .inl rfl⟩
  case access.write =>
    obtain ⟨rfl, rfl⟩ : bits = 32 ∧ a = 4#32 := by simpa [keepsRunning] using hkeep
    refine ⟨_, hostWrite_cmd s v, ?_⟩
    rw [requestCommand_busy v hbusy]
    exact ⟨rfl, .inl rfl⟩
  case poll => exact ⟨_, hostTurn_poll s stop, rfl, .inr (if_pos hbusy)⟩
  case reset => cases hkeep

/-- Settles O6, by induction on the host steps left: the engine's turn completes, a host step leaves one fewer. -/
theorem acceptedCommandCompletes : Obligations.AcceptedCommandCompletes := by
  intro s w n hinv hs hkeep
  induction n generalizing s with
  | zero =>
    obtain ⟨t, ht, hend⟩ := complete_next_of_inv hinv hs
    exact ⟨1, by omega, t, run_succ_of_step ((step_of_engine_turn hs (.inl rfl)).trans ht) 0, hend⟩
  | succ n ih =>
    cases hh : s.host with
    | nil =>
      obtain ⟨t, ht, hend⟩ := complete_next_of_inv hinv hs
      exact ⟨1, by omega, t, run_succ_of_step ((step_of_engine_turn hs (.inr hh)).trans ht) 0, hend⟩
    | cons op rest =>
      rw [hh, List.forall_mem_cons] at hkeep
      obtain ⟨hop, hrest⟩ := hkeep
      obtain ⟨_, hturn⟩ := stepGivesTheHostItsTurn
      obtain ⟨u, hu, hseq, hhost⟩ := hostTurn_of_keepsRunning (s := { s with host := rest, seq := .busy w n }) hop rfl
      have hstep : step s = .next u := ((hturn s op rest hh).2 w n hs).trans hu
      have hkeep' : ∀ op' ∈ u.host, keepsRunning op' = true := by
        rcases hhost with hhost | hhost <;> rw [hhost]
        · exact hrest
        · exact List.forall_mem_cons.mpr ⟨hop, hrest⟩
      obtain ⟨k, hk, t, ht, hend⟩ := ih u (stepKeepsTheInvariant s u hinv hstep) hseq hkeep'
      exact ⟨k + 1, by omega, t, (run_succ_of_step hstep k).trans ht, hend⟩

/-! The end of a program (R251). -/

/-- Only a program that ends by `issue` or `word` waits for the engine (R251; log 14). -/
theorem programEnded_iff (s : State) (prog : List Stmt) :
    s.programEnded prog = true ↔ s.host = [] ∧ (endsByIssue prog = true → s.seq = .idle) := by
  rw [← isBusy_eq_false_iff]
  cases hend : endsByIssue prog <;> simp [State.programEnded, hend]

theorem endsByIssue_concat (before : List Stmt) (last : Stmt) :
    endsByIssue (before ++ [last]) = true ↔ (∃ i, last = .issue i) ∨ ∃ imm, last = .word imm := by
  cases last <;> simp [endsByIssue]

/-- The next host operation is performed unless the engine moves first (R247; log 5). -/
theorem hostMove_of_cons {s : State} {op : HostOp} {rest : List HostOp} (hh : s.host = op :: rest)
    (hwait : ∀ w, s.seq ≠ .busy w 0) : s.hostMove = some op := by
  match hs : s.seq with
  | .idle => simp only [State.hostMove, hs, hh]
  | .busy w 0 => exact absurd hs (hwait w)
  | .busy w (n + 1) => simp only [State.hostMove, hs, hh]

theorem view_congr {m m' : Memory} {n : Nat} (h : ∀ k < n, m.lookup k = m'.lookup k) : m.view n = m'.view n :=
  List.map_congr_left fun k hk => h k (List.mem_range.mp hk)

theorem viewBits_congr {m m' : Memory} {n : Nat}
    (h : ∀ k < n, (m.lookup (k / 8)).map (fun b => b.getLsbD (7 - k % 8)) =
      (m'.lookup (k / 8)).map (fun b => b.getLsbD (7 - k % 8))) : m.viewBits n = m'.viewBits n :=
  List.map_congr_left fun k hk => h k (List.mem_range.mp hk)

/-- Settles O60: the ends by the last statement, the lengths by the step's host operation, the end view field by field. -/
theorem endOfAProgram : Obligations.EndOfAProgram := by
  refine ⟨fun s => ?_, fun s before last => ?_, fun l s t x rest _ hh hwait => ?_,
    fun l s t ht hbusy hout hpay htxt hrtxt => ?_⟩
  · rw [programEnded_iff]
    simp [endsByIssue]
  · rw [programEnded_iff, endsByIssue_concat]
  · simp only [CmdLengths.note, hostMove_of_cons hh hwait]
  · rw [State.endView, view_congr hout, viewBits_congr hpay, view_congr htxt, view_congr hrtxt, State.statusWord, hbusy, ht]
    rfl

end Sys2Proof.Machine
end
